-- ==== Sys2Proof/Word.lean ====
section
/-! DEFINITION. The word types of the block: bytes, command words, levels and client ids. -/

namespace Sys2Proof

/-- A byte (00_scope.md section 5): bit 7 is the most significant. -/
abbrev Byte := BitVec 8

/-- A format-C command word (R60): 64 bits, bit 63 the most significant. -/
abbrev CmdWord := BitVec 64

/-- A pin identifier, PINID_W = 8 bits (R10). -/
abbrev PinId := BitVec 8

/-- A level of a line: `true` is 1 (high), `false` is 0 (low). -/
abbrev Level := Bool

/-- A client id (R17, R65). DESIGN CHOICE: the spec gives it no width (log 9, safe). -/
abbrev ClientId := Nat

/-- PIN_NONE, the "missing" identifier (00_scope.md section 4). -/
abbrev pinNone : PinId := 0xFF

end Sys2Proof
end

