-- ==== Sys2Proof/Syntax.lean ====
section
/-! DEFINITION. The instructions: one constructor per row of spec/opcode_table.json (R63). -/

namespace Sys2Proof

/-- The commands of the control port, the operations of the raster port and the two PHY requests (R63).
Operands stand as the fields of the word give them (R62); a payload (R68) is a list of bytes in ascending
index order. -/
inductive Instr where
  | sessionOpen
  | sessionClose
  | configure (clk dout rst dc : PinId)
  | displayOn
  | displayOff
  | refresh
  | clear
  | mapFb (size : BitVec 32)
  | bulkWrite (off len : BitVec 16) (payload : List Byte)
  | queryInfo
  | teardown
  | fbClear
  | fbFillWhite
  | drawPoint (x y : Byte) (set : Bool)
  | drawChar (x y fontSize : Byte) (glyph : BitVec 16) (wide set : Bool)
  | drawString (x y fontSize : Byte) (n : BitVec 16) (glyphs : List Byte)
  | drawBitmap (x y w h : Byte) (frame : BitVec 16)
  | fillRegion (x1 y1 x2 y2 : Byte) (set : Bool)
  | phyCmd (byte : Byte)
  | phyData (byte : Byte)
  deriving DecidableEq, Repr

/-- Where a word is admitted (R63 column "Port", R65, R66). -/
inductive Port where
  | control
  | raster
  | phy
  deriving DecidableEq, Repr

/-- The port of each instruction (R63, R65). -/
def Instr.port : Instr → Port
  | .sessionOpen => .control
  | .sessionClose => .control
  | .configure _ _ _ _ => .control
  | .displayOn => .control
  | .displayOff => .control
  | .refresh => .control
  | .clear => .control
  | .mapFb _ => .control
  | .bulkWrite _ _ _ => .control
  | .queryInfo => .control
  | .teardown => .control
  | .fbClear => .raster
  | .fbFillWhite => .raster
  | .drawPoint _ _ _ => .raster
  | .drawChar _ _ _ _ _ _ => .raster
  | .drawString _ _ _ _ _ => .raster
  | .drawBitmap _ _ _ _ _ => .raster
  | .fillRegion _ _ _ _ _ => .raster
  | .phyCmd _ => .phy
  | .phyData _ => .phy

end Sys2Proof
end

