-- ==== Sys2Proof/WellFormed.lean ====
section
/-! DEFINITION. Which instructions are well-formed: the payload has exactly the count its word names (R68).
Every value of every other field is legal (R62, R66). -/

namespace Sys2Proof

/-- R68: BULK_WRITE is followed by exactly `len` payload bytes, DRAW_STRING by exactly `n`. -/
def Instr.wellFormed : Instr → Bool
  | .bulkWrite _ len payload => payload.length == len.toNat
  | .drawString _ _ _ n glyphs => glyphs.length == n.toNat
  | .sessionOpen => true
  | .sessionClose => true
  | .configure _ _ _ _ => true
  | .displayOn => true
  | .displayOff => true
  | .refresh => true
  | .clear => true
  | .mapFb _ => true
  | .queryInfo => true
  | .teardown => true
  | .fbClear => true
  | .fbFillWhite => true
  | .drawPoint _ _ _ => true
  | .drawChar _ _ _ _ _ _ => true
  | .drawBitmap _ _ _ _ _ => true
  | .fillRegion _ _ _ _ _ => true
  | .phyCmd _ => true
  | .phyData _ => true

end Sys2Proof
end

