-- ==== Sys2Proof/Decode.lean ====
section
/-! DEFINITION. The decoder of the command word and of the PHY request (30_encoding.md), and after it the
encoder, written from the same sub-formats (R61). -/

namespace Sys2Proof

/-- Why a word is no instruction (R64). -/
inductive Reject where
  /-- `op` is not in the opcode map of R63. -/
  | reservedOpcode (op : Byte)
  /-- `op` is in the map and a must-be-zero field is not zero. -/
  | mustBeZero (op : Byte)
  /-- the payload does not have the count the word names (R68). -/
  | payloadLength (want given : Nat)
  /-- fewer bytes than a command word and its payload take. -/
  | tooFewBytes
  /-- bits above the nine of format P (R66). -/
  | notFormatP
  deriving DecidableEq, Repr

/-- Bits 63:56 (R61). -/
def opcode (w : CmdWord) : Byte := w.extractLsb' 56 8

/-- The `n`-bit field whose lowest bit is bit `lo`, used as it stands (R62). -/
def field (w : CmdWord) (lo n : Nat) : BitVec n := w.extractLsb' lo n

/-- The one-bit field at bit `i`. -/
def flag (w : CmdWord) (i : Nat) : Bool := w.getLsbD i

/-- Whether the `n` bits from bit `lo` up are zero (R61 "must be zero"). -/
def zeroField (w : CmdWord) (lo n : Nat) : Bool := w.extractLsb' lo n == 0

/-- An instruction whose must-be-zero fields passed, or the reserved word (R64). -/
def accept? (op : Byte) (zeros : Bool) (i : Instr) : Except Reject Instr :=
  if zeros then .ok i else .error (.mustBeZero op)

/-- How many payload bytes follow the word (R68): `len` of a BULK_WRITE word, the element count of a
DRAW_STRING word; a reserved word is followed by none (log 21). -/
def payloadCount (w : CmdWord) : Nat :=
  match (opcode w).toNat with
  | 0x09 => if zeroField w 32 24 then (field w 0 16).toNat else 0
  | 0x14 => if zeroField w 24 8 && zeroField w 0 8 then (field w 8 16).toNat else 0
  | _ => 0

/-- The opcode map of R63 with the must-be-zero fields of its column "Unused, must be 0". -/
def decodeWord (w : CmdWord) (payload : List Byte) : Except Reject Instr :=
  let op := opcode w
  match op.toNat with
  | 0x01 => accept? op (zeroField w 0 56) .sessionOpen
  | 0x02 => accept? op (zeroField w 0 56) .sessionClose
  | 0x03 => accept? op (zeroField w 0 24)
      (.configure (field w 48 8) (field w 40 8) (field w 32 8) (field w 24 8))
  | 0x04 => accept? op (zeroField w 0 56) .displayOn
  | 0x05 => accept? op (zeroField w 0 56) .displayOff
  | 0x06 => accept? op (zeroField w 0 56) .refresh
  | 0x07 => accept? op (zeroField w 0 56) .clear
  | 0x08 => accept? op (zeroField w 32 24) (.mapFb (field w 0 32))
  | 0x09 => accept? op (zeroField w 32 24) (.bulkWrite (field w 16 16) (field w 0 16) payload)
  | 0x0A => accept? op (zeroField w 0 56) .queryInfo
  | 0x0B => accept? op (zeroField w 0 56) .teardown
  | 0x10 => accept? op (zeroField w 0 56) .fbClear
  | 0x11 => accept? op (zeroField w 0 56) .fbFillWhite
  | 0x12 => accept? op (zeroField w 1 39) (.drawPoint (field w 48 8) (field w 40 8) (flag w 0))
  | 0x13 => accept? op (zeroField w 24 8 && zeroField w 2 6)
      (.drawChar (field w 48 8) (field w 40 8) (field w 32 8) (field w 8 16) (flag w 1) (flag w 0))
  | 0x14 => accept? op (zeroField w 24 8 && zeroField w 0 8)
      (.drawString (field w 48 8) (field w 40 8) (field w 32 8) (field w 8 16) payload)
  | 0x15 => accept? op (zeroField w 0 8)
      (.drawBitmap (field w 48 8) (field w 40 8) (field w 32 8) (field w 24 8) (field w 8 16))
  | 0x16 => accept? op (zeroField w 1 23)
      (.fillRegion (field w 48 8) (field w 40 8) (field w 32 8) (field w 24 8) (flag w 0))
  | _ => .error (.reservedOpcode op)

/-- A command word with its payload (R60, R68): the payload has the word's own count and the word decodes. -/
def decodeCommand (w : CmdWord) (payload : List Byte) : Except Reject Instr :=
  if payload.length = payloadCount w then decodeWord w payload
  else .error (.payloadLength (payloadCount w) payload.length)

/-- Format P (R66): bit 8 is `isData`, bits 7:0 are `byte`; there is no reserved encoding. -/
def decodePhy (r : BitVec 9) : Instr :=
  if r.getLsbD 8 then .phyData (r.extractLsb' 0 8) else .phyCmd (r.extractLsb' 0 8)

/-- The command word moved as bytes, most significant byte first (R51). -/
def wordOfBytes (b7 b6 b5 b4 b3 b2 b1 b0 : Byte) : CmdWord :=
  b7 ++ b6 ++ b5 ++ b4 ++ b3 ++ b2 ++ b1 ++ b0

/-- The eight bytes of a command word, most significant first (R51). -/
def bytesOfWord (w : CmdWord) : List Byte :=
  [field w 56 8, field w 48 8, field w 40 8, field w 32 8, field w 24 8, field w 16 8, field w 8 8,
    field w 0 8]

/-- Decoding a stream of bytes: a command word, its payload, and the rest of the stream. -/
def decodeBytes : List Byte → Except Reject (Instr × List Byte)
  | b7 :: b6 :: b5 :: b4 :: b3 :: b2 :: b1 :: b0 :: rest =>
    let w := wordOfBytes b7 b6 b5 b4 b3 b2 b1 b0
    let n := payloadCount w
    if rest.length < n then .error .tooFewBytes
    else
      match decodeCommand w (rest.take n) with
      | .ok i => .ok (i, rest.drop n)
      | .error e => .error e
  | _ => .error .tooFewBytes

/-! ## The encoder -/

/-- The words of an instruction: a format-C word with its payload, or a format-P request (R60). -/
inductive Words where
  | command (w : CmdWord) (payload : List Byte)
  | request (r : BitVec 9)
  deriving DecidableEq, Repr

/-- Sub-format C0 (R61). -/
def wordC0 (op : Byte) : CmdWord := op ++ (0 : BitVec 56)

/-- Sub-format C1 (R61). -/
def wordC1 (op clk dout rst dc : Byte) : CmdWord := op ++ clk ++ dout ++ rst ++ dc ++ (0 : BitVec 24)

/-- Sub-format C2 (R61). -/
def wordC2 (op : Byte) (size : BitVec 32) : CmdWord := op ++ (0 : BitVec 24) ++ size

/-- Sub-format C3 (R61). -/
def wordC3 (op : Byte) (off len : BitVec 16) : CmdWord := op ++ (0 : BitVec 24) ++ off ++ len

/-- Sub-format C4 (R61). -/
def wordC4 (op a b c d : Byte) (idx : BitVec 16) (wide set : Bool) : CmdWord :=
  op ++ a ++ b ++ c ++ d ++ idx ++ (0 : BitVec 6) ++ BitVec.ofBool wide ++ BitVec.ofBool set

/-- Format P (R66). -/
def wordP (isData : Bool) (byte : Byte) : BitVec 9 := BitVec.ofBool isData ++ byte

/-- The words of a well-formed instruction (R61, R63, R66, R68). -/
def encode : Instr → Words
  | .sessionOpen => .command (wordC0 0x01) []
  | .sessionClose => .command (wordC0 0x02) []
  | .configure clk dout rst dc => .command (wordC1 0x03 clk dout rst dc) []
  | .displayOn => .command (wordC0 0x04) []
  | .displayOff => .command (wordC0 0x05) []
  | .refresh => .command (wordC0 0x06) []
  | .clear => .command (wordC0 0x07) []
  | .mapFb size => .command (wordC2 0x08 size) []
  | .bulkWrite off len payload => .command (wordC3 0x09 off len) payload
  | .queryInfo => .command (wordC0 0x0A) []
  | .teardown => .command (wordC0 0x0B) []
  | .fbClear => .command (wordC0 0x10) []
  | .fbFillWhite => .command (wordC0 0x11) []
  | .drawPoint x y set => .command (wordC4 0x12 x y 0 0 0 false set) []
  | .drawChar x y fs g wide set => .command (wordC4 0x13 x y fs 0 g wide set) []
  | .drawString x y fs n glyphs => .command (wordC4 0x14 x y fs 0 n false false) glyphs
  | .drawBitmap x y w h frame => .command (wordC4 0x15 x y w h frame false false) []
  | .fillRegion x1 y1 x2 y2 set => .command (wordC4 0x16 x1 y1 x2 y2 0 false set) []
  | .phyCmd byte => .request (wordP false byte)
  | .phyData byte => .request (wordP true byte)

/-- Decoding any words. -/
def decode : Words → Except Reject Instr
  | .command w payload => decodeCommand w payload
  | .request r => .ok (decodePhy r)

/-! ## The rows of spec/opcode_table.json -/

/-- A row of the opcode table: a word selects it when `w &&& mask = pattern` (R63). -/
structure Row where
  mask : CmdWord
  pattern : CmdWord
  deriving DecidableEq, Repr

def Row.selects (r : Row) (w : CmdWord) : Bool := w &&& r.mask == r.pattern

/-- The 18 format-C rows, in the order of the table. -/
def opcodeRows : List Row :=
  [⟨0xFFFFFFFFFFFFFFFF, 0x0100000000000000⟩, ⟨0xFFFFFFFFFFFFFFFF, 0x0200000000000000⟩,
   ⟨0xFF00000000FFFFFF, 0x0300000000000000⟩, ⟨0xFFFFFFFFFFFFFFFF, 0x0400000000000000⟩,
   ⟨0xFFFFFFFFFFFFFFFF, 0x0500000000000000⟩, ⟨0xFFFFFFFFFFFFFFFF, 0x0600000000000000⟩,
   ⟨0xFFFFFFFFFFFFFFFF, 0x0700000000000000⟩, ⟨0xFFFFFFFF00000000, 0x0800000000000000⟩,
   ⟨0xFFFFFFFF00000000, 0x0900000000000000⟩, ⟨0xFFFFFFFFFFFFFFFF, 0x0A00000000000000⟩,
   ⟨0xFFFFFFFFFFFFFFFF, 0x0B00000000000000⟩, ⟨0xFFFFFFFFFFFFFFFF, 0x1000000000000000⟩,
   ⟨0xFFFFFFFFFFFFFFFF, 0x1100000000000000⟩, ⟨0xFF0000FFFFFFFFFE, 0x1200000000000000⟩,
   ⟨0xFF000000FF0000FC, 0x1300000000000000⟩, ⟨0xFF000000FF0000FF, 0x1400000000000000⟩,
   ⟨0xFF000000000000FF, 0x1500000000000000⟩, ⟨0xFF00000000FFFFFE, 0x1600000000000000⟩]

/-- The port a word's opcode belongs to (R65): 0x10 to 0x16 are raster opcodes. -/
def portOfWord (w : CmdWord) : Port :=
  if 0x10 ≤ (opcode w).toNat ∧ (opcode w).toNat ≤ 0x16 then .raster else .control

/-- The instruction the decoder reads from the table's own numbering of a word: 64 bits for format C (laid out
as bytes, most significant first, followed by a payload of zeros), 9 bits for format P. -/
def decodeTableWord (nbits w : Nat) : Option Instr :=
  if nbits ≤ 16 then
    if w < 512 then some (decodePhy (BitVec.ofNat 9 w)) else none
  else
    let cw := BitVec.ofNat 64 w
    match decodeBytes (bytesOfWord cw ++ List.replicate (payloadCount cw) 0) with
    | .ok (i, _) => some i
    | .error _ => none

end Sys2Proof
end

