-- ==== Sys2Proof/Config.lean ====
section
/-! DEFINITION. The parameters of 00_scope.md section 4: the sizes the source fixes, the record of the
parameters a platform chooses, and the free values (constants without a body). -/

namespace Sys2Proof.Config

/-- WIDTH: pixels per row, bytes per page. -/
abbrev width : Nat := 128
/-- HEIGHT: pixel rows. -/
abbrev height : Nat := 64
/-- NPAGES = HEIGHT / 8 (R2). -/
abbrev npages : Nat := height / 8
/-- FBSIZE = WIDTH * HEIGHT / 8 (R2). -/
abbrev fbSize : Nat := width * height / 8
/-- How many pads the platform names: identifiers 0 to 254 (R23). -/
abbrev padCount : Nat := 255
/-- FONT_SIZES. -/
abbrev fontSizes : List Nat := [12, 16, 24]

/-- The parameters of 00_scope.md section 4 that a platform or an integrator fixes before the block runs.
DESIGN CHOICE: State carries the record and no step changes it (log 1, safe). -/
structure Params where
  /-- DC_DATA, the level of the select line that means "data"; DC_CMD is the other one. -/
  dcData : Level
  /-- INIT_SEQ; INIT_LEN is its length. -/
  initSeq : List Byte
  /-- PAGE_CMD(h), h in 0..NPAGES-1. -/
  pageCmd : Vector Byte npages
  /-- COL_LO_CMD. -/
  colLoCmd : Byte
  /-- COL_HI_CMD. -/
  colHiCmd : Byte
  /-- ON_SEQ, three bytes. -/
  onSeq : Vector Byte 3
  /-- OFF_SEQ, three bytes. -/
  offSeq : Vector Byte 3
  /-- VALID_PADS, the identifiers the platform has. -/
  validPads : List PinId
  /-- MAP_GRANULE, in bytes. -/
  mapGranule : Nat
  /-- T_RESET_LOW, in nanoseconds. -/
  tResetLow : Nat
  /-- T_RESET_HIGH, in nanoseconds. -/
  tResetHigh : Nat
  /-- CLOSE_POWERS_DOWN. -/
  closePowersDown : Bool
  deriving DecidableEq, Repr, Inhabited

/-- The constraints of 00_scope.md section 4 and R3 on the record: ON_SEQ and OFF_SEQ differ, MAP_GRANULE is
positive, VALID_PADS is a subset of 0..254. -/
def Params.legal (p : Params) : Bool :=
  p.onSeq != p.offSeq && decide (0 < p.mapGranule) && !p.validPads.contains pinNone

/-- DC_CMD = 1 - DC_DATA. -/
def Params.dcCmd (p : Params) : Level := !p.dcData

/-- MAP_SIZE: FBSIZE rounded up to a multiple of MAP_GRANULE. -/
def Params.mapSize (p : Params) : Nat :=
  (fbSize + p.mapGranule - 1) / p.mapGranule * p.mapGranule

/-- Free value: what the platform chose for the OPEN parameters. It has no body, so nothing about it can be
proved (DESIGN CHOICE, log 2, safe). -/
opaque rawParams : Params

/-- The record made legal: every legal choice of the open parameters is its own image, so all of them are
still possible (log 2). -/
def Params.legalise (p : Params) : Params :=
  { p with
    offSeq := if p.offSeq = p.onSeq then p.offSeq.set 0 (p.offSeq[0] ^^^ 1) else p.offSeq
    validPads := p.validPads.filter fun id => id != pinNone
    mapGranule := max 1 p.mapGranule }

/-- The parameters the block is created with: the open ones free, T_RESET_LOW, T_RESET_HIGH and
CLOSE_POWERS_DOWN at the defaults of 00_scope.md section 4. -/
def params : Params :=
  { rawParams.legalise with
    tResetLow := 100000000
    tResetHigh := 0
    closePowersDown := true }

/-- DLY in nanoseconds, default zero (00_scope.md section 4); the reset value of CR9 (log 19). -/
def dly : BitVec 32 := 0

/-- Free value: FONT(fs, wide, g, k), a total function (R43). Beyond the real table it is a draw per byte
(log 3). -/
opaque font (fs : Nat) (wide : Bool) (g k : Nat) : Byte

/-- Free value: BITMAP(f, k), a total function (R43, log 3). -/
opaque bitmap (f k : Nat) : Byte

/-- Free value: the n-th byte drawn for a read of a byte nothing has written (R16, R47) or of the padding of
the shared mapping (R50); log 4. -/
opaque freeByte (n : Nat) : Byte

end Sys2Proof.Config
end

