-- ==== Sys2Proof/Machine/Memory.lean ====
section
/-! DEFINITION. The framebuffer as data: the bytes written since reset, in one canonical form
(20_memory.md R40, R44, R45, R47). An address that is not listed holds no value: nothing has written it
(10_state.md R16, R30), and a read of it is a draw (log 4). -/

namespace Sys2Proof.Machine

/-- The written bytes of FB, addresses strictly rising. -/
abbrev Memory := List Host.Cell

/-- The byte last written to `a`, or none if nothing has written it. -/
def Memory.read : Memory → Nat → Option Byte
  | [], _ => none
  | (k, v) :: m, a => if k = a then some v else Memory.read m a

/-- `FB[a] <- v`, keeping the canonical form. -/
def Memory.write : Memory → Nat → Byte → Memory
  | [], a, v => [(a, v)]
  | (k, w) :: m, a, v =>
    if a < k then (a, v) :: (k, w) :: m
    else if a = k then (a, v) :: m
    else (k, w) :: Memory.write m a v

/-- The canonical form: addresses strictly rising and inside 0..FBSIZE-1. -/
abbrev Memory.wf (m : Memory) : Prop :=
  m.Pairwise (fun c d => c.1 < d.1) ∧ ∀ c ∈ m, c.1 < Config.fbSize

end Sys2Proof.Machine
end

