-- ==== Sys2Proof/Machine/State.lean ====
section
/-! DEFINITION. The state of the block as plain data (10_state.md), the reasons a step can stop, and the state
right after reset (R30). -/

namespace Sys2Proof.Machine

/-- The four logical roles (R10, 00_scope.md section 5): role r is PRS bit r. -/
inductive Role where
  | clk
  | dout
  | rst
  | dc
  deriving DecidableEq, Repr

/-- The agents of R46. -/
inductive Agent where
  | seq
  | ras
  | ext
  | env
  | panel
  deriving DecidableEq, Repr

/-- PINREG[0..3] (R10), one register per role. -/
structure PinGroup where
  clk : PinId
  dout : PinId
  rst : PinId
  dc : PinId
  deriving DecidableEq, Repr

/-- LC (R14): the values 6 and 7 are never taken. -/
inductive Lifecycle where
  | unbound
  | pinsAcquired
  | initialized
  | opened
  | closed
  | released
  deriving DecidableEq, Repr

/-- PAD_OWNER[id] (R23). -/
inductive Owner where
  | free
  | self
  | other
  deriving DecidableEq, Repr

/-- PAD_DRV[id] (R23): not driven, or driven to a level. -/
inductive Drive where
  | z
  | driven (level : Level)
  deriving DecidableEq, Repr

/-- The platform's register pair of one pad (R214). -/
structure Pad where
  owner : Owner
  drv : Drive
  deriving DecidableEq, Repr

/-- The event kinds of TRACE (R24). -/
inductive Event where
  | acquire (id : PinId) (ok : Bool)
  | release (id : PinId)
  | pin (role : Role) (id : PinId) (level : Level)
  | wait (t : Nat)
  | fbRead (addr : Nat) (v : Byte)
  | fbWrite (agent : Agent) (addr : Nat) (v : Byte)
  | resp (op code : Byte)
  deriving DecidableEq, Repr

/-- The sequencer's and the PHY's hidden registers: SR and BITCNT (R21), PG, COL and IDX (R22). -/
structure SeqRegs where
  sr : BitVec 8
  bitcnt : BitVec 3
  pg : BitVec 3
  col : BitVec 7
  idx : BitVec 8
  deriving DecidableEq, Repr

/-- The rasteriser's loop counters (R22). -/
inductive RasCounter where
  | rx
  | ry
  | rc
  | rr
  | rk
  deriving DecidableEq, Repr

/-- One step of a raster operation. `ctr` writes a loop counter (no micro-step); the others are the micro-steps
of R45 and R101: a plain write, the read t <- MemRead(a), and the write back of t with the mask's bits set or
cleared. Addresses are inside FB by construction (R58). -/
inductive RasOp where
  | ctr (c : RasCounter) (v : Nat)
  | fill (a : Fin Config.fbSize) (v : Byte)
  | fetch (a : Fin Config.fbSize)
  | store (a : Fin Config.fbSize) (mask : Byte) (set : Bool)
  deriving DecidableEq, Repr

/-- The rasteriser's hidden registers (R22), the t of DrawPoint, and the fine position of the operation in
flight as "the remaining micro-steps" (10_state.md section 4). -/
structure RasRegs where
  rx : Nat
  ry : Nat
  rc : Nat
  rr : Nat
  rk : Nat
  tmp : Byte
  ops : List RasOp
  deriving DecidableEq, Repr

/-- A word offered on the control port with the client id beside it (R65). -/
structure CtlOffer where
  cid : ClientId
  word : CmdWord
  deriving DecidableEq, Repr

/-- A step of another agent, or an arrival at a port, while a command runs or the block waits (R46, R49, R23,
R25; log 7). -/
inductive Act where
  /-- EXT reads byte k of the shared mapping. -/
  | extRead (k : Nat)
  /-- EXT writes byte k of the shared mapping. -/
  | extWrite (k : Nat) (v : Byte)
  /-- ENV takes a free pad. -/
  | envTake (id : PinId)
  /-- ENV frees a pad another owner held. -/
  | envFree (id : PinId)
  /-- ENV requests teardown. -/
  | requestTeardown
  /-- RAS takes its next step: of the operation in flight, or the acceptance of the next raster word. -/
  | rasStep
  /-- A client offers a control word and its payload. -/
  | offerControl (cid : ClientId) (word : CmdWord) (payload : List Byte)
  /-- A client offers a raster word and its payload. -/
  | offerRaster (word : CmdWord) (payload : List Byte)
  deriving DecidableEq, Repr

/-- The inputs of the block, held as data the step reads (the model's own; log 7, log 8, log 9, log 10,
log 11). -/
structure Inputs where
  /-- the client id beside the control word in execution. -/
  cid : ClientId
  /-- control words offered, oldest first (held while BUSY = 1, R19). -/
  ctlPort : List CtlOffer
  /-- the control port's payload stream (R68). -/
  ctlPayload : List Byte
  /-- raster words offered, oldest first. -/
  rasPort : List CmdWord
  /-- the raster port's payload stream (R68). -/
  rasPayload : List Byte
  /-- PHY requests placed at the PHY's own input (log 10). -/
  phyPort : List (BitVec 9)
  /-- which port the coming steps serve; when empty, the control port comes first. -/
  turns : List Port
  /-- the k-th entry lists the acts of the other agents just before the k-th coming micro-step. -/
  agenda : List (List Act)
  /-- the answers of the PIN_FAULT oracle to the coming pin writes (R90); the empty list is `never`. -/
  pinFault : List Bool
  deriving DecidableEq, Repr

/-- The three numbers of a QUERY_INFO response (R69). -/
structure Answer where
  width : BitVec 16
  height : BitVec 16
  fbSize : BitVec 16
  deriving DecidableEq, Repr

/-- The whole state (10_state.md section 1), and after it the model's own fields (INVENTORY.md). -/
structure State where
  /-- PINREG (R10). -/
  pinreg : PinGroup
  /-- PRS (R12): bit r is role r. -/
  prs : BitVec 4
  /-- CFG (R13). -/
  cfg : Bool
  /-- LC (R14). -/
  lc : Lifecycle
  /-- FB (R16): the bytes written since reset. -/
  fb : Memory
  /-- SLOCK (R17). -/
  slock : Bool
  /-- OWNER (R17). -/
  owner : ClientId
  /-- MAPPED (R18). -/
  mapped : Bool
  /-- BUSY (R19). -/
  busy : Bool
  /-- RBUSY (R19). -/
  rbusy : Bool
  /-- STATUS (R20). -/
  status : BitVec 8
  /-- SR, BITCNT, PG, COL, IDX (R21, R22). -/
  seqr : SeqRegs
  /-- RX, RY, RC, RR, RK (R22) and the operation in flight. -/
  ras : RasRegs
  /-- PAD_OWNER and PAD_DRV for id 0..254 (R23). -/
  pads : Vector Pad Config.padCount
  /-- TRACE (R24), newest event first (log 12). -/
  traceRev : List Event
  /-- TDREQ (R25). -/
  tdreq : Bool
  /-- DEAD (R25). -/
  dead : Bool
  /-- CR9 DLYCFG (R29): DLY in nanoseconds, read-only. -/
  dlyCfg : BitVec 32
  /-- the parameters (R28), read-only (log 1). -/
  params : Config.Params
  /-- the inputs. -/
  inp : Inputs
  /-- the numbers of the last control response, if it carried any (R69, log 17). -/
  answer : Option Answer
  /-- the byte EXT's last read returned (R49, R50, log 16). -/
  extByte : Byte
  /-- how many free bytes have been drawn (log 4). -/
  draws : Nat
  deriving DecidableEq, Repr

/-- TRACE (R24), oldest event first. -/
def State.trace (s : State) : List Event := s.traceRev.reverse

/-- Why the machine stops. Every one of them is safe: the model has no behaviour where the spec gives none. -/
inductive Fault where
  /-- raised by every step and every meaning while DEAD = 1: the block is stuck (R25, U24). -/
  | dead
  /-- raised by PinWrite with PRS[r] = 0: "a model must treat it as a fault" (R80, U21). -/
  | pinNotOwned (role : Role)
  /-- raised by PinWrite with PRS[r] = 1 and another pad not owned: no pin is written unless all four pads are
  owned (R241, log 18). -/
  | groupNotOwned
  /-- raised by PinWrite, PadAcquire and PadRelease through 0xFF, which names no pad (R80, log 18). -/
  | noSuchPad
  /-- raised by MemRead and MemWrite outside 0..FBSIZE-1, which no rule performs (R44, R45, R58). -/
  | addressOutOfRange (a : Nat)
  deriving DecidableEq, Repr

/-- Why a meaning refuses. -/
inductive Refusal where
  /-- the instruction has no meaning yet; safe. -/
  | notModelled (mnemonic : String)
  deriving DecidableEq, Repr

/-- The state right after reset (R30). OWNER and the counters are unspecified there: DESIGN CHOICE 0 (log 5,
unsafe). Which pads are free is ENV's choice: DESIGN CHOICE all of them, and ENV's acts take them (log 6). -/
def State.reset : State where
  pinreg := ⟨pinNone, pinNone, pinNone, pinNone⟩
  prs := 0
  cfg := false
  lc := .unbound
  fb := []
  slock := false
  owner := 0
  mapped := false
  busy := false
  rbusy := false
  status := 0
  seqr := ⟨0, 0, 0, 0, 0⟩
  ras := ⟨0, 0, 0, 0, 0, 0, []⟩
  pads := Vector.replicate Config.padCount ⟨.free, .z⟩
  traceRev := []
  tdreq := false
  dead := false
  dlyCfg := Config.dly
  params := Config.params
  inp := ⟨0, [], [], [], [], [], [], [], []⟩
  answer := none
  extByte := 0
  draws := 0

end Sys2Proof.Machine
end

