-- ==== Sys2Proof/Machine/Admission.lean ====
section
/-! DEFINITION. What stands at the head of a port: a command ready to be accepted with its payload, a word the
port rejects, or nothing yet (30_encoding.md R64, R65, R68). -/

namespace Sys2Proof.Machine

/-- The head of a port. -/
inductive Offered where
  /-- no word, or its payload is not all there yet: it is held (R68, log 20). -/
  | nothing
  /-- a reserved word, or an opcode of the other port (R64, R65); the state has the word taken off. -/
  | reserved (op : Byte) (s : State)
  /-- an instruction of this port; the state has the word and its payload taken off. -/
  | command (i : Instr) (s : State)

/-- How many payload bytes a word takes on a port: an opcode of the other port takes none (R65, log 21). -/
def payloadOn (p : Port) (w : CmdWord) : Nat := if portOfWord w = p then payloadCount w else 0

/-- A word with its payload on a port: an instruction, if the port admits it (R65). -/
def decodeOn (p : Port) (w : CmdWord) (payload : List Byte) : Option Instr :=
  match decodeCommand w payload with
  | .ok i => if i.port = p then some i else none
  | .error _ => none

/-- The head of the control port (R65): the client id goes beside the word. -/
def offeredControl (s : State) : Offered :=
  match s.inp.ctlPort with
  | [] => .nothing
  | o :: os =>
    let n := payloadOn .control o.word
    if s.inp.ctlPayload.length < n then .nothing
    else
      let s' := { s with inp := { s.inp with
        cid := o.cid, ctlPort := os, ctlPayload := s.inp.ctlPayload.drop n } }
      match decodeOn .control o.word (s.inp.ctlPayload.take n) with
      | some i => .command i s'
      | none => .reserved (opcode o.word) s'

/-- The head of the raster port (R65). -/
def offeredRaster (s : State) : Offered :=
  match s.inp.rasPort with
  | [] => .nothing
  | w :: ws =>
    let n := payloadOn .raster w
    if s.inp.rasPayload.length < n then .nothing
    else
      let s' := { s with inp := { s.inp with
        rasPort := ws, rasPayload := s.inp.rasPayload.drop n } }
      match decodeOn .raster w (s.inp.rasPayload.take n) with
      | some i => .command i s'
      | none => .reserved (opcode w) s'

end Sys2Proof.Machine
end

