-- ==== Sys2Proof/Machine/Operands.lean ====
section
/-! DEFINITION. The operand forms: pixel coordinates to framebuffer addresses (R41, R42), font sizes and glyph
sizes (R109, R110), roles to registers (R10). All arithmetic is on naturals; nothing wraps (R109). -/

namespace Sys2Proof.Machine

open Sys2Proof.Config (width height npages fbSize fontSizes)

/-- PINREG[r] (R10). -/
def PinGroup.get (g : PinGroup) : Role → PinId
  | .clk => g.clk
  | .dout => g.dout
  | .rst => g.rst
  | .dc => g.dc

/-- `PINREG[r] <- id`. -/
def PinGroup.put (g : PinGroup) (r : Role) (id : PinId) : PinGroup :=
  match r with
  | .clk => { g with clk := id }
  | .dout => { g with dout := id }
  | .rst => { g with rst := id }
  | .dc => { g with dc := id }

/-- The number of a role (00_scope.md section 5), which is its PRS bit (R12). -/
def Role.num : Role → Nat
  | .clk => 0
  | .dout => 1
  | .rst => 2
  | .dc => 3

/-- The pixel (x, y) exists (R42). -/
abbrev onScreen (x y : Nat) : Prop := x < width ∧ y < height

/-- `ByteIndex(q, x) = q*WIDTH + x` (R41). -/
def byteIndex (q x : Nat) : Nat := q * width + x

/-- The address of the byte of an on-screen pixel: `ByteIndex(y / 8, x)`; no address otherwise (R42). -/
def pixelAddr (x y : Nat) : Option (Fin fbSize) :=
  if h : onScreen x y then
    some ⟨byteIndex (y / 8) x, by simp only [byteIndex, onScreen, width, height, fbSize] at *; omega⟩
  else none

/-- The bit of a pixel inside its byte: `7 - (y % 8)` (R42). -/
def pixelBit (y : Nat) : Nat := 7 - y % 8

/-- `1 << (7 - (y % 8))` (R101). -/
def pixelMask (y : Nat) : Byte := 1 <<< pixelBit y

/-- t with the mask's bits set or cleared (R101). -/
def applyMask (t mask : Byte) (set : Bool) : Byte := if set then t ||| mask else t &&& ~~~mask

/-- The pixel at (x, y) of the framebuffer, when its byte has been written (R42). -/
def pixelOf (m : Memory) (x y : Nat) : Option Bool :=
  match pixelAddr x y with
  | some a => (Memory.read m a.val).map fun b => b.getLsbD (pixelBit y)
  | none => none

/-- Whether `fs` is an admitted font size (R105). -/
def isFontSize (fs : Nat) : Bool := fontSizes.contains fs

/-- `ceil(rows / 8)`: the bytes of one column of a picture (R43, R104). -/
def bytesPerColumn (rows : Nat) : Nat := (rows + 7) / 8

/-- The columns of a glyph: `fs` when double-byte, `fs / 2` when half-width (R105, R110). -/
def glyphColumns (fs : Nat) (wide : Bool) : Nat := if wide then fs else fs / 2

/-- The framebuffer page a hardware page shows (R54). -/
def fbPageOf (pg : Nat) : Nat := npages - 1 - pg

/-- `a, a+1, ..., b`, empty when a > b (00_scope.md section 5). -/
def upTo (a b : Nat) : List Nat := (List.range (b + 1 - a)).map (a + ·)

end Sys2Proof.Machine
end

