-- ==== Sys2Proof/Machine/Flags.lean ====
section
/-! DEFINITION. Flags and control registers: PRS, the guard (R138), the session check (R205), the result codes
(R200), the lifecycle encoding (R14), the numbered view of the registers (R29). -/

namespace Sys2Proof.Machine

/-- PRS[r] (R12). -/
def prsBit (prs : BitVec 4) (r : Role) : Bool := prs.getLsbD r.num

/-- `PRS[r] <- 1`. -/
def prsSet (prs : BitVec 4) (r : Role) : BitVec 4 := prs ||| ((1 : BitVec 4) <<< r.num)

/-- `PRS[r] <- 0`. -/
def prsClear (prs : BitVec 4) (r : Role) : BitVec 4 := prs &&& ~~~((1 : BitVec 4) <<< r.num)

/-- PRS with every bit set. -/
abbrev prsAll : BitVec 4 := 0b1111

/-- `Guard()`: PRS = 0b1111 (R138). -/
def guardOk (s : State) : Bool := s.prs == prsAll

/-- The session check: SLOCK = 1 and cid = OWNER (R205). -/
def sessionOk (s : State) : Bool := s.slock && s.inp.cid == s.owner

/-- The result codes of R200. -/
inductive Code where
  | ok
  | config
  | pinUnavailable
  | busy
  | notReady
  | boundary
  | io
  | sizeMismatch
  | alreadyMapped
  | noSession
  | illegal
  deriving DecidableEq, Repr

/-- The numbers of R200. -/
def Code.byte : Code → Byte
  | .ok => 0x00
  | .config => 0x01
  | .pinUnavailable => 0x02
  | .busy => 0x03
  | .notReady => 0x04
  | .boundary => 0x05
  | .io => 0x06
  | .sizeMismatch => 0x07
  | .alreadyMapped => 0x08
  | .noSession => 0x09
  | .illegal => 0x0A

/-- The 3-bit encoding of LC (R14). -/
def Lifecycle.code : Lifecycle → BitVec 3
  | .unbound => 0
  | .pinsAcquired => 1
  | .initialized => 2
  | .opened => 3
  | .closed => 4
  | .released => 5

/-- The pad named by an identifier, if there is one (R23). -/
def padOf (s : State) (id : PinId) : Option Pad := s.pads[id.toNat]?

/-- LINE(r) (R26): the drive of the pad bound to the role, Z when the role's pad is not acquired. -/
def line (s : State) (r : Role) : Drive :=
  if prsBit s.prs r then
    match padOf s (s.pinreg.get r) with
    | some p => p.drv
    | none => .z
  else .z

/-- CR5 CTRL (R29): bit 0 CFG, 1 SLOCK, 2 MAPPED, 3 BUSY, 4 RBUSY, 5 TDREQ, 6 DEAD, bit 7 hardwired 0. -/
def ctrl (s : State) : BitVec 8 :=
  (0 : BitVec 1) ++ BitVec.ofBool s.dead ++ BitVec.ofBool s.tdreq ++ BitVec.ofBool s.rbusy ++
    BitVec.ofBool s.busy ++ BitVec.ofBool s.mapped ++ BitVec.ofBool s.slock ++ BitVec.ofBool s.cfg

/-- The byte-wide control registers by number, CR0 to CR7 (R29); no command reads them. -/
def controlRegister (s : State) : Nat → Option (BitVec 8)
  | 0 => some s.pinreg.clk
  | 1 => some s.pinreg.dout
  | 2 => some s.pinreg.rst
  | 3 => some s.pinreg.dc
  | 4 => some (s.prs.setWidth 8)
  | 5 => some (ctrl s)
  | 6 => some (s.lc.code.setWidth 8)
  | 7 => some s.status
  | _ => none

end Sys2Proof.Machine
end

