-- ==== Sys2Proof/Machine/RasterOps.lean ====
section
/-! DEFINITION. The micro-steps of each raster operation, in the order of its pseudocode
(41_framebuffer_raster.md). No address, value or order in them depends on the framebuffer: what the read of a
DrawPoint returns enters through the rasteriser's t. -/

namespace Sys2Proof.Machine

open Sys2Proof.Config (width height fbSize)

/-- `DrawPoint(x, y, v)` (R101): the read and the write back of the pixel's byte, or no access at all. -/
def pointOps (x y : Nat) (v : Bool) : List RasOp :=
  match pixelAddr x y with
  | some a => [.fetch a, .store a (pixelMask y) v]
  | none => []

/-- `for a = 0 to FBSIZE - 1: MemWrite(a, 1, v)` (R102, R103). -/
def fillAllOps (v : Byte) : List RasOp := (List.finRange fbSize).map fun a => .fill a v

/-- `Blit(x0, y0, rows, cols, src, set)` (R104): column after column, each row top to bottom, every column
starting at a fresh byte; a 0 bit writes the opposite of `set`. -/
def blitOps (x0 y0 rows cols : Nat) (src : Nat → Byte) (set : Bool) : List RasOp :=
  (List.range cols).flatMap fun c =>
    .ctr .rc c :: (List.range rows).flatMap fun r =>
      .ctr .rr r ::
        pointOps (x0 + c) (y0 + r)
          ((src (c * bytesPerColumn rows + r / 8)).getLsbD (7 - r % 8) == set)

/-- `DrawChar(x, y, g, fs, wide, set)` (R105). -/
def charOps (x y g fs : Nat) (wide set : Bool) : List RasOp :=
  if isFontSize fs then blitOps x y fs (glyphColumns fs wide) (Config.font fs wide g) set else []

/-- The loop of `DrawString` (R106) from pen position (x, y) and element k on: the line test, then the page
test, both before the glyph, both strict. -/
def stringLoopOps (fs : Nat) (x y k : Nat) : List Byte → List RasOp
  | [] => []
  | g :: gs =>
    let lineWrap := decide (x > width - fs / 2)
    let x1 := if lineWrap then 0 else x
    let y1 := if lineWrap then y + fs else y
    let pageWrap := decide (y1 > height - fs)
    let x2 := if pageWrap then 0 else x1
    let y2 := if pageWrap then 0 else y1
    .ctr .rk k ::
      ((if lineWrap then [.ctr .rx 0, .ctr .ry (y + fs)] else []) ++
       (if pageWrap then .ctr .rx 0 :: .ctr .ry 0 :: fillAllOps 0x00 else []) ++
       charOps x2 y2 g.toNat fs false true ++
       .ctr .rx (x2 + fs / 2) :: stringLoopOps fs (x2 + fs / 2) y2 (k + 1) gs)

/-- `DrawString(x, y, fs, g[0..n-1])` (R106). -/
def stringOps (x y fs : Nat) (glyphs : List Byte) : List RasOp :=
  if isFontSize fs then .ctr .rx x :: .ctr .ry y :: stringLoopOps fs x y 0 glyphs else []

/-- The loops of FILL_REGION (R108): both bounds inclusive, x outermost. -/
def regionOps (x1 y1 x2 y2 : Nat) (set : Bool) : List RasOp :=
  (upTo x1 x2).flatMap fun x =>
    .ctr .rx x :: (upTo y1 y2).flatMap fun y => .ctr .ry y :: pointOps x y set

/-- FB_CLEAR (R102). -/
def fbClearProgram : List RasOp := fillAllOps 0x00

/-- FB_FILL_WHITE (R103). -/
def fbFillWhiteProgram : List RasOp := fillAllOps 0xFF

/-- DRAW_POINT (R101). -/
def drawPointProgram (x y : Byte) (set : Bool) : List RasOp := pointOps x.toNat y.toNat set

/-- DRAW_CHAR (R105). -/
def drawCharProgram (x y fs : Byte) (g : BitVec 16) (wide set : Bool) : List RasOp :=
  charOps x.toNat y.toNat g.toNat fs.toNat wide set

/-- DRAW_STRING (R106). -/
def drawStringProgram (x y fs : Byte) (glyphs : List Byte) : List RasOp :=
  stringOps x.toNat y.toNat fs.toNat glyphs

/-- DRAW_BITMAP (R107): rows = h, columns = w, set = 1. -/
def drawBitmapProgram (x y w h : Byte) (frame : BitVec 16) : List RasOp :=
  blitOps x.toNat y.toNat h.toNat w.toNat (Config.bitmap frame.toNat) true

/-- FILL_REGION (R108). -/
def fillRegionProgram (x1 y1 x2 y2 : Byte) (set : Bool) : List RasOp :=
  regionOps x1.toNat y1.toNat x2.toNat y2.toNat set

/-- The micro-steps the rasteriser takes for an instruction of the raster port; none for any other. -/
def rasterProgram : Instr → List RasOp
  | .fbClear => fbClearProgram
  | .fbFillWhite => fbFillWhiteProgram
  | .drawPoint x y set => drawPointProgram x y set
  | .drawChar x y fs g wide set => drawCharProgram x y fs g wide set
  | .drawString x y fs _ glyphs => drawStringProgram x y fs glyphs
  | .drawBitmap x y w h frame => drawBitmapProgram x y w h frame
  | .fillRegion x1 y1 x2 y2 set => fillRegionProgram x1 y1 x2 y2 set
  | .sessionOpen => []
  | .sessionClose => []
  | .configure _ _ _ _ => []
  | .displayOn => []
  | .displayOff => []
  | .refresh => []
  | .clear => []
  | .mapFb _ => []
  | .bulkWrite _ _ _ => []
  | .queryInfo => []
  | .teardown => []
  | .phyCmd _ => []
  | .phyData _ => []

end Sys2Proof.Machine
end

