-- ==== Sys2Proof/Machine/Ops.lean ====
section
/-! DEFINITION. The operations every meaning shares: framebuffer accesses, pads, the micro-steps of the
rasteriser, the acts of the other agents between micro-steps, the micro-steps of the sequencer, and the two
ways a command ends: with a response (R165), which is also how it raises an error (R203). -/

namespace Sys2Proof.Machine

open Sys2Proof.Config (fbSize)

/-! ## Single effects -/

/-- `Emit(e)` (R24). -/
def emit (e : Event) (s : State) : State := { s with traceRev := e :: s.traceRev }

/-- The next free byte (log 4). -/
def drawByte (s : State) : Byte × State := (Config.freeByte s.draws, { s with draws := s.draws + 1 })

/-- `MemRead(a, 1)` (R44): the latest write, or a draw if none has happened since reset (R47). -/
def memRead (a : Nat) (s : State) : Byte × State :=
  match Memory.read s.fb a with
  | some v => (v, emit (.fbRead a v) s)
  | none => ((drawByte s).1, emit (.fbRead a (drawByte s).1) (drawByte s).2)

/-- `MemWrite(a, 1, v)` by an agent (R45). -/
def memWrite (agent : Agent) (a : Nat) (v : Byte) (s : State) : State :=
  emit (.fbWrite agent a v) { s with fb := Memory.write s.fb a v }

/-- Writes the register pair of a pad (R23, R214). -/
def setPad (id : PinId) (p : Pad) (s : State) : State :=
  { s with pads := s.pads.setIfInBounds id.toNat p }

/-! ## The rasteriser's steps -/

/-- Writes a loop counter of the rasteriser (R22). -/
def RasRegs.setCounter (g : RasRegs) (c : RasCounter) (v : Nat) : RasRegs :=
  match c with
  | .rx => { g with rx := v }
  | .ry => { g with ry := v }
  | .rc => { g with rc := v }
  | .rr => { g with rr := v }
  | .rk => { g with rk := v }

/-- One step of a raster operation (R101, R102): the two halves of DrawPoint are two steps (R53). -/
def rasDo (op : RasOp) (s : State) : State :=
  match op with
  | .ctr c v => { s with ras := s.ras.setCounter c v }
  | .fill a v => memWrite .ras a.val v s
  | .fetch a => { (memRead a.val s).2 with ras := { s.ras with tmp := (memRead a.val s).1 } }
  | .store a mask set => memWrite .ras a.val (applyMask s.ras.tmp mask set) s

/-- A raster operation is accepted (R100): RBUSY is 1 from here to its last step (R19); one without a step
completes at once. -/
def rasStart (ops : List RasOp) (s : State) : State :=
  { s with ras := { s.ras with ops := ops }, rbusy := !ops.isEmpty }

/-- The operation in flight takes its next step; RBUSY falls with the last (R55). -/
def rasTick (s : State) : State :=
  match s.ras.ops with
  | [] => { s with rbusy := false }
  | op :: rest => rasDo op { s with ras := { s.ras with ops := rest }, rbusy := !rest.isEmpty }

/-- RAS on its own: a step of the operation in flight, or the acceptance of the next raster word; a reserved
word is dropped (R64, R65). RAS of a dead block has no step (R25). -/
def rasAgent (s : State) : State :=
  if s.dead then s
  else
    match s.ras.ops with
    | _ :: _ => rasTick s
    | [] =>
      match offeredRaster s with
      | .nothing => s
      | .reserved _ s' => s'
      | .command i s' => rasStart (rasterProgram i) s'

/-! ## The other agents, between micro-steps (R46, R47; log 7) -/

/-- EXT reads byte k of the mapping (R49); a byte of the padding is unspecified and leaves TRACE alone (R50,
log 16). Without the mapping, or beyond it, EXT has no step. -/
def extRead (k : Nat) (s : State) : State :=
  if s.mapped then
    if k < fbSize then { (memRead k s).2 with extByte := (memRead k s).1 }
    else if k < s.params.mapSize then { (drawByte s).2 with extByte := (drawByte s).1 }
    else s
  else s

/-- EXT writes byte k of the mapping (R49); a write to the padding has no effect (R50). -/
def extWrite (k : Nat) (v : Byte) (s : State) : State :=
  if s.mapped && decide (k < fbSize) then memWrite .ext k v s else s

/-- ENV changes a pad's owner from `old` to `new`, both of them not `self` (R23). -/
def envOwner (id : PinId) (old new : Owner) (s : State) : State :=
  match padOf s id with
  | some p => if p.owner = old then setPad id { p with owner := new } s else s
  | none => s

/-- One act, while `running` executes; RAS takes no act inside its own operation (log 23). -/
def doAct (running : Agent) (a : Act) (s : State) : State :=
  match a with
  | .extRead k => extRead k s
  | .extWrite k v => extWrite k v s
  | .envTake id => envOwner id .free .other s
  | .envFree id => envOwner id .other .free s
  | .requestTeardown => { s with tdreq := true }
  | .rasStep => if running = .ras then s else rasAgent s
  | .offerControl cid w payload => { s with inp := { s.inp with
      ctlPort := s.inp.ctlPort ++ [⟨cid, w⟩], ctlPayload := s.inp.ctlPayload ++ payload } }
  | .offerRaster w payload => { s with inp := { s.inp with
      rasPort := s.inp.rasPort ++ [w], rasPayload := s.inp.rasPayload ++ payload } }

/-- A micro-step boundary: the acts the agenda has for it happen, in order. -/
def boundary (running : Agent) (s : State) : State :=
  match s.inp.agenda with
  | [] => s
  | acts :: rest =>
    acts.foldl (fun t a => doAct running a t) { s with inp := { s.inp with agenda := rest } }

/-! ## Micro-steps of the sequencer -/

/-- How a part of a command body ends: it goes on, it raised an error (R203), or the model stops. -/
inductive Res where
  | ok (s : State)
  | raise (c : Code) (s : State)
  | fault (f : Fault)

/-- What comes after, if the part went on. -/
def Res.andThen (r : Res) (k : State → Res) : Res :=
  match r with
  | .ok s => k s
  | .raise c s => .raise c s
  | .fault f => .fault f

/-- The parts in order, up to the first that does not go on. -/
def runAll : List (State → Res) → State → Res
  | [], s => .ok s
  | p :: ps, s => (p s).andThen (runAll ps)

/-- A register write, no micro-step (log 27). -/
def update (f : State → State) (s : State) : Res := .ok (f s)

/-- A register write that the spec calls a step of its own (R182 (c), log 27): other agents may act before it. -/
def updateStep (f : State → State) (s : State) : Res := .ok (f (boundary .seq s))

/-- The PIN_FAULT oracle's answer to a pin write, true for "fail", and the state with the answer used; with no
answers left it is `never` (R90, log 11). -/
def askOracle (s : State) : Bool × State :=
  match s.inp.pinFault with
  | [] => (false, s)
  | fails :: rest => (fails, { s with inp := { s.inp with pinFault := rest } })

/-- `PinWrite(r, v)` on a boundary's far side (R80): the pad bound to the role is driven and the event
recorded; without the pads it is a fault (R80, R241, log 18); the PIN_FAULT oracle may make it fail (R90). -/
def pinDrive (r : Role) (v : Level) (s : State) : Res :=
  if prsBit s.prs r = false then .fault (.pinNotOwned r)
  else if s.prs ≠ prsAll then .fault .groupNotOwned
  else
    match padOf s (s.pinreg.get r) with
    | none => .fault .noSuchPad
    | some p =>
      if (askOracle s).1 then .raise .io (askOracle s).2
      else
        .ok (emit (.pin r (s.pinreg.get r) v)
          (setPad (s.pinreg.get r) { p with drv := .driven v } (askOracle s).2))

/-- `PinWrite(r, v)` as a micro-step (R80). -/
def pinWrite (r : Role) (v : Level) (s : State) : Res := pinDrive r v (boundary .seq s)

/-- `Wait(t)` (R81): nothing when t = 0, otherwise one micro-step that records it. -/
def wait (t : Nat) (s : State) : Res :=
  if t = 0 then .ok s else .ok (emit (.wait t) (boundary .seq s))

/-- `v <- MemRead(a, 1)` as a micro-step of SEQ, and what is done with v. -/
def seqRead (a : Nat) (k : Byte → State → Res) (s : State) : Res :=
  if a < fbSize then
    k (memRead a (boundary .seq s)).1 (memRead a (boundary .seq s)).2
  else .fault (.addressOutOfRange a)

/-- `MemWrite(a, 1, v)` as a micro-step of SEQ. -/
def seqWrite (a : Nat) (v : Byte) (s : State) : Res :=
  if a < fbSize then .ok (memWrite .seq a v (boundary .seq s)) else .fault (.addressOutOfRange a)

/-- `for a = 0 to FBSIZE - 1: MemWrite(a, 1, 0x00)` by SEQ (R164). -/
def seqZero : State → Res := runAll ((List.range fbSize).map fun a => seqWrite a 0x00)

/-! ## Taking an error and returning: the frame of a control command (R165, R203) -/

/-- The end of a control command: STATUS, the Resp event, BUSY <- 0 (R165). "That is all of trap entry"
(R203): nothing is saved, no mode changes; and there is no return instruction (R206). -/
def respond (op : Byte) (c : Code) (s : State) : State :=
  { emit (.resp op c.byte) { s with status := c.byte } with busy := false }

/-- The command's last micro-step (R20): other agents may act before the STATUS write, as before any other. The
spec's list of micro-steps (00_scope.md section 5) leaves the STATUS write out and R20 calls it one: DESIGN CHOICE,
R20 is followed (log 27, safe). -/
def finish (op : Byte) (c : Code) (s : State) : State := respond op c (boundary .seq s)

/-- The response to a body's end; a raised error is taken here. -/
def conclude (op : Byte) : Res → Host.Outcome State Fault Refusal
  | .ok s => .next (finish op .ok s)
  | .raise c s => .next (finish op c s)
  | .fault f => .fault f

/-- The start of a control command: BUSY <- 1 (R165); the last response's numbers are gone (log 17). -/
def begin (s : State) : State := { s with busy := true, answer := none }

/-- The frame of a control command (R165): the session check for the commands that need one (R205), then the
body to its end or its first `raise`. A dead block accepts nothing (R25). -/
def controlFrame (op : Byte) (needsSession : Bool) (body : State → Res) (s : State) :
    Host.Outcome State Fault Refusal :=
  if s.dead then .fault .dead
  else if needsSession && !sessionOk s then .next (finish op .noSession (begin s))
  else conclude op (body (begin s))

/-- A reserved word on the control port: it "completes at once with STATUS = ERR_ILLEGAL and changes nothing
else" (R64, R65); its one micro-step is the STATUS write (R20, R165). -/
def illegal (op : Byte) (s : State) : Host.Outcome State Fault Refusal :=
  if s.dead then .fault .dead else .next (finish op .illegal (begin s))

/-! ## The frame of a raster operation (R100) -/

/-- Whether a step is a micro-step, so that other agents may act before it. -/
def RasOp.isAccess : RasOp → Bool
  | .ctr _ _ => false
  | .fill _ _ => true
  | .fetch _ => true
  | .store _ _ _ => true

/-- `n` steps of the operation in flight, or all of them if there are fewer. -/
def rasDrain : Nat → State → State
  | 0, s => s
  | n + 1, s =>
    match s.ras.ops with
    | [] => s
    | op :: _ => rasDrain n (rasTick (if op.isAccess then boundary .ras s else s))

/-- The operation in flight runs to its end. -/
def rasFinish (s : State) : State := rasDrain s.ras.ops.length s

/-- A raster operation from acceptance to completion: one waits until RBUSY = 0 (R100, log 26), then its steps
happen in order. It cannot fail. A dead block accepts nothing (R25). -/
def rasterFrame (ops : List RasOp) (s : State) : Host.Outcome State Fault Refusal :=
  if s.dead then .fault .dead else .next (rasFinish (rasStart ops (rasFinish s)))

end Sys2Proof.Machine
end

