-- ==== Sys2Proof/Machine/Phy.lean ====
section
/-! DEFINITION. The serial PHY encoder (40_serial_phy.md): SendByte, SendSeq, PHY.CMD, PHY.DATA. -/

namespace Sys2Proof.Machine

/-- The level of the select line for a selector: DC_DATA for data, DC_CMD for a command (R83). -/
def selectLevel (p : Config.Params) (isData : Bool) : Level := if isData then p.dcData else p.dcCmd

/-- `PinWrite(DC, level of the selector)`. -/
def selectWrite (isData : Bool) (s : State) : Res := pinWrite .dc (selectLevel s.params isData) s

/-- `Wait(DLY)` (R86). -/
def delay (s : State) : Res := wait s.dlyCfg.toNat s

/-- `SR <- b` (R83). -/
def loadSr (b : Byte) (s : State) : State := { s with seqr := { s.seqr with sr := b } }

/-- `BITCNT <- i` (R83). -/
def setBitcnt (i : Nat) (s : State) : State :=
  { s with seqr := { s.seqr with bitcnt := BitVec.ofNat 3 i } }

/-- `PinWrite(DOUT, SR[7])` (R83). -/
def dataWrite (s : State) : Res := pinWrite .dout (s.seqr.sr.getLsbD 7) s

/-- `SR <- {SR[6:0], 0}` (R83). -/
def shiftSr (s : State) : State := { s with seqr := { s.seqr with sr := s.seqr.sr <<< 1 } }

/-- One bit cell, BITCNT = i: clock low, data, clock high, shift (R83). -/
def bitCell (i : Nat) : State → Res :=
  runAll [update (setBitcnt i),
    pinWrite .clk false, delay,
    dataWrite, delay,
    pinWrite .clk true, delay,
    update shiftSr]

/-- `SendByte(b, s)` (R83): the select line, the eight cells 7 down to 0, the select line back at DC_DATA. -/
def sendByte (b : Byte) (isData : Bool) : State → Res :=
  runAll [selectWrite isData, delay, update (loadSr b),
    bitCell 7, bitCell 6, bitCell 5, bitCell 4, bitCell 3, bitCell 2, bitCell 1, bitCell 0,
    selectWrite true, delay]

/-- `IDX <- k` (R22, log 13). -/
def setIdx (k : Nat) (s : State) : State := { s with seqr := { s.seqr with idx := BitVec.ofNat 8 k } }

/-- `SendSeq(L, s)` from index k on (R91). -/
def sendSeqFrom (isData : Bool) : Nat → List Byte → State → Res
  | _, [], s => .ok s
  | k, b :: bs, s => (sendByte b isData (setIdx k s)).andThen (sendSeqFrom isData (k + 1) bs)

/-- `SendSeq(L, s)` (R91): consecutive transactions, nothing in between. -/
def sendSeq (bytes : List Byte) (isData : Bool) : State → Res := sendSeqFrom isData 0 bytes

/-- A PHY request on its own (R84, R85): it writes no flag and no STATUS and has no response; a failing pin
write ends it (R90). -/
def phyFrame (b : Byte) (isData : Bool) (s : State) : Host.Outcome State Fault Refusal :=
  if s.dead then .fault .dead
  else
    match sendByte b isData s with
    | .ok t => .next t
    | .raise _ t => .next t
    | .fault f => .fault f

/-- PHY.CMD byte: `SendByte(byte, 0)` (R84). -/
def execPhyCmd (byte : Byte) (s : State) : Host.Outcome State Fault Refusal := phyFrame byte false s

/-- PHY.DATA byte: `SendByte(byte, 1)` (R85). -/
def execPhyData (byte : Byte) (s : State) : Host.Outcome State Fault Refusal := phyFrame byte true s

end Sys2Proof.Machine
end

