-- ==== Sys2Proof/Machine/Lifecycle.lean ====
section
/-! DEFINITION. The pin manager and the device lifecycle (42_lifecycle_pins.md): pad requests, validation,
acquisition with rollback, idle levels, power-on, release. -/

namespace Sys2Proof.Machine

/-- An identifier of VALID_PADS, which excludes 0xFF (R140). -/
def validId (s : State) (id : PinId) : Bool := id != pinNone && s.params.validPads.contains id

/-- `ValidatePins(clk, dout, rst, dc)` (R140): pairwise distinct, each in VALID_PADS. -/
def validatePins (clk dout rst dc : PinId) (s : State) : Bool :=
  clk != dout && clk != rst && clk != dc && dout != rst && dout != dc && rst != dc &&
    validId s clk && validId s dout && validId s rst && validId s dc

/-- `PRS[r] <- 1`. -/
def setPrs (r : Role) (s : State) : State := { s with prs := prsSet s.prs r }

/-- `PRS[r] <- 0`. -/
def clearPrs (r : Role) (s : State) : State := { s with prs := prsClear s.prs r }

/-- `PINREG[r] <- 0xFF`. -/
def clearPin (r : Role) (s : State) : State := { s with pinreg := s.pinreg.put r pinNone }

/-- `LC <- l` (R139). -/
def setLc (l : Lifecycle) (s : State) : State := { s with lc := l }

/-- `PadAcquire(PINREG[r])` and `PRS[r] <- 1`, or the failed request (R131, R133): one atomic test and set
(R56). -/
def acquireRole (r : Role) (s0 : State) : Res :=
  let s := boundary .seq s0
  let id := s.pinreg.get r
  match padOf s id with
  | none => .fault .noSuchPad
  | some p =>
    if p.owner = .free then .ok (setPrs r (emit (.acquire id true) (setPad id { p with owner := .self } s)))
    else .raise .pinUnavailable (emit (.acquire id false) s)

/-- `PadRelease(PINREG[r])` (R132): the pad is free and not driven. -/
def padRelease (r : Role) (s0 : State) : Res :=
  let s := boundary .seq s0
  let id := s.pinreg.get r
  match padOf s id with
  | none => .fault .noSuchPad
  | some _ => .ok (emit (.release id) (setPad id ⟨.free, .z⟩ s))

/-- `if PRS[r] = 1: PadRelease(PINREG[r]); PRS[r] <- 0`, then `PINREG[r] <- 0xFF` (R134, R136). -/
def releaseRole (r : Role) (s : State) : Res :=
  if prsBit s.prs r then runAll [padRelease r, update (clearPrs r), update (clearPin r)] s
  else .ok (clearPin r s)

/-- `ReleasePins()` (R134), role order 0 to 3. -/
def releasePins : State → Res :=
  runAll [releaseRole .clk, releaseRole .dout, releaseRole .rst, releaseRole .dc]

/-- `Rollback()` (R136), role order 3 down to 0: PRS = 0, PINREG = 0xFF, CFG = 0, and LC as it was when the
CONFIGURE began. -/
def rollback (lc0 : Lifecycle) : State → Res :=
  runAll [releaseRole .dc, releaseRole .rst, releaseRole .dout, releaseRole .clk,
    update fun s => { s with lc := lc0, cfg := false }]

/-- `IdleLevels()` (R135). -/
def idleLevels : State → Res :=
  runAll [pinWrite .clk true, pinWrite .dout true, pinWrite .rst true, selectWrite true]

/-- `AcquirePins()` (R133), without its rollback, which the caller makes. -/
def acquirePins : State → Res :=
  runAll [acquireRole .clk, acquireRole .dout, acquireRole .rst, acquireRole .dc,
    idleLevels, update (setLc .pinsAcquired)]

/-- `PowerOn()` (R137). -/
def powerOn : State → Res :=
  runAll [pinWrite .rst false,
    fun s => wait s.params.tResetLow s,
    pinWrite .rst true,
    fun s => wait s.params.tResetHigh s,
    fun s => sendSeq s.params.initSeq false s,
    update (setLc .initialized)]

end Sys2Proof.Machine
end

