-- ==== Sys2Proof/Machine/Control.lean ====
section
/-! DEFINITION. The control and refresh commands (43_control_refresh.md). All need a session and run inside the
frame of R165. -/

namespace Sys2Proof.Machine

open Sys2Proof.Config (width npages fbSize)

/-- `if not Guard(): raise ERR_NOT_READY` before a body (R138). -/
def guarded (body : State → Res) (s : State) : Res :=
  if guardOk s then body s else .raise .notReady s

/-- `PG <- pg` (R22). -/
def setPg (pg : Nat) (s : State) : State := { s with seqr := { s.seqr with pg := BitVec.ofNat 3 pg } }

/-- `COL <- col` (R22). -/
def setCol (col : Nat) (s : State) : State := { s with seqr := { s.seqr with col := BitVec.ofNat 7 col } }

/-- The addressing triple of a hardware page (R70). -/
def addressing (p : Config.Params) (pg : Nat) : List Byte :=
  [p.pageCmd[pg]?.getD 0, p.colLoCmd, p.colHiCmd]

/-- One column of a page: `v <- MemRead(q * WIDTH + COL, 1); SendByte(v, 1)` (R163). -/
def refreshColumn (q col : Nat) (s : State) : Res :=
  seqRead (q * width + col) (fun v => sendByte v true) (setCol col s)

/-- One hardware page (R163): skipped whole if its bytes would exceed FB (R58), otherwise its addressing
triple as commands and its WIDTH bytes as data, left to right. -/
def refreshPage (pg : Nat) (s0 : State) : Res :=
  let s := setPg pg s0
  let q := fbPageOf pg
  if (q + 1) * width > fbSize then .ok s
  else
    (sendSeq (addressing s.params pg) false s).andThen
      (runAll ((List.range width).map fun col => refreshColumn q col))

/-- `RefreshBody()` (R163): hardware pages NPAGES-1 down to 0. -/
def refreshBody : State → Res := runAll ((List.range npages).reverse.map refreshPage)

/-- `ClearBody()` (R164). -/
def clearBody : State → Res := runAll [seqZero, refreshBody]

/-- The part of CONFIGURE that a rollback undoes (R160): AcquirePins, PowerOn, `CFG <- 1`, ClearBody. -/
def bringUp : State → Res :=
  runAll [acquirePins, powerOn, update (fun s => { s with cfg := true }), clearBody]

/-- The body of CONFIGURE (R160): a no-op when already configured; ERR_CONFIG before anything is touched; any
later failure is rolled back before it is reported (R133, R136). -/
def configureBody (clk dout rst dc : PinId) (s : State) : Res :=
  if s.cfg then .ok s
  else if !validatePins clk dout rst dc s then .raise .config s
  else
    match bringUp { s with pinreg := ⟨clk, dout, rst, dc⟩ } with
    | .ok t => .ok t
    | .raise c t => (rollback s.lc t).andThen fun u => .raise c u
    | .fault f => .fault f

/-- CONFIGURE clk, dout, rst, dc (R160). -/
def execConfigure (clk dout rst dc : PinId) (s : State) : Host.Outcome State Fault Refusal :=
  controlFrame 0x03 true (configureBody clk dout rst dc) s

/-- DISPLAY_ON (R161). -/
def execDisplayOn (s : State) : Host.Outcome State Fault Refusal :=
  controlFrame 0x04 true
    (guarded (runAll [fun t => sendSeq t.params.onSeq.toList false t, update (setLc .opened)])) s

/-- DISPLAY_OFF (R162). -/
def execDisplayOff (s : State) : Host.Outcome State Fault Refusal :=
  controlFrame 0x05 true
    (guarded (runAll [fun t => sendSeq t.params.offSeq.toList false t, update (setLc .closed)])) s

/-- REFRESH (R163). -/
def execRefresh (s : State) : Host.Outcome State Fault Refusal :=
  controlFrame 0x06 true (guarded refreshBody) s

/-- CLEAR (R164). -/
def execClear (s : State) : Host.Outcome State Fault Refusal :=
  controlFrame 0x07 true (guarded clearBody) s

end Sys2Proof.Machine
end

