-- ==== Sys2Proof/Machine/Raster.lean ====
section
/-! DEFINITION. The meanings of the raster operations (41_framebuffer_raster.md): each is its micro-steps
(Machine/RasterOps.lean) inside the raster frame of R100. -/

namespace Sys2Proof.Machine

/-- FB_CLEAR (R102). -/
def execFbClear (s : State) : Host.Outcome State Fault Refusal := rasterFrame fbClearProgram s

/-- FB_FILL_WHITE (R103). -/
def execFbFillWhite (s : State) : Host.Outcome State Fault Refusal := rasterFrame fbFillWhiteProgram s

/-- DRAW_POINT x, y, set (R101). -/
def execDrawPoint (x y : Byte) (set : Bool) (s : State) : Host.Outcome State Fault Refusal :=
  rasterFrame (drawPointProgram x y set) s

/-- DRAW_CHAR x, y, glyphIndex, fontSize, wide, set (R105): a font size outside FONT_SIZES draws nothing. -/
def execDrawChar (x y fontSize : Byte) (glyph : BitVec 16) (wide set : Bool) (s : State) :
    Host.Outcome State Fault Refusal :=
  rasterFrame (drawCharProgram x y fontSize glyph wide set) s

/-- DRAW_STRING x, y, fontSize, [g0, ..., g(n-1)] (R106). -/
def execDrawString (x y fontSize : Byte) (glyphs : List Byte) (s : State) :
    Host.Outcome State Fault Refusal :=
  rasterFrame (drawStringProgram x y fontSize glyphs) s

/-- DRAW_BITMAP x, y, frameIndex, w, h (R107). -/
def execDrawBitmap (x y w h : Byte) (frame : BitVec 16) (s : State) :
    Host.Outcome State Fault Refusal :=
  rasterFrame (drawBitmapProgram x y w h frame) s

/-- FILL_REGION x1, y1, x2, y2, set (R108). -/
def execFillRegion (x1 y1 x2 y2 : Byte) (set : Bool) (s : State) : Host.Outcome State Fault Refusal :=
  rasterFrame (fillRegionProgram x1 y1 x2 y2 set) s

end Sys2Proof.Machine
end

