-- ==== Sys2Proof/Machine/Session.lean ====
section
/-! DEFINITION. The session interface (44_session_interface.md), inside the frame of R165. -/

namespace Sys2Proof.Machine

open Sys2Proof.Config (width height fbSize)

/-- SESSION_OPEN's body (R180): the test and the set are one step (R56). -/
def openBody (s : State) : Res :=
  if s.slock then .raise .busy s else .ok { s with slock := true, owner := s.inp.cid }

/-- SESSION_OPEN (R180); it needs no session. -/
def execSessionOpen (s : State) : Host.Outcome State Fault Refusal := controlFrame 0x01 false openBody s

/-- `if Guard() and CLOSE_POWERS_DOWN: SendSeq(OFF_SEQ, 0)` (R182). -/
def powerDown (s : State) : Res :=
  if guardOk s && s.params.closePowersDown then sendSeq s.params.offSeq.toList false s else .ok s

/-- `CloseBody()` (R182). EXT loses its access "at the step MAPPED <- 0" (R182 (c)). -/
def closeBody : State → Res :=
  runAll [powerDown, releasePins,
    update fun s => { s with cfg := false, lc := .released },
    updateStep fun s => { s with mapped := false },
    update fun s => { s with slock := false }]

/-- SESSION_CLOSE's body (R182): a no-op answering OK unless the issuer holds the session. -/
def sessionCloseBody (s : State) : Res := if sessionOk s then closeBody s else .ok s

/-- SESSION_CLOSE (R182); it needs no session. -/
def execSessionClose (s : State) : Host.Outcome State Fault Refusal :=
  controlFrame 0x02 false sessionCloseBody s

/-- MAP_FB's body (R183): the size is tested first (R204). -/
def mapBody (size : BitVec 32) (s : State) : Res :=
  if size.toNat ≠ s.params.mapSize then .raise .sizeMismatch s
  else if s.mapped then .raise .alreadyMapped s
  else .ok { s with mapped := true }

/-- MAP_FB size (R183). -/
def execMapFb (size : BitVec 32) (s : State) : Host.Outcome State Fault Refusal :=
  controlFrame 0x08 true (mapBody size) s

/-- `for i: MemWrite(a + i, 1, d[i])`, ascending (R184). -/
def writeBytes : Nat → List Byte → State → Res
  | _, [], s => .ok s
  | a, d :: ds, s => (seqWrite a d s).andThen (writeBytes (a + 1) ds)

/-- BULK_WRITE's body (R184): the sum is taken in naturals and tested before the first write. -/
def bulkBody (off len : BitVec 16) (payload : List Byte) (s : State) : Res :=
  if off.toNat + len.toNat > fbSize then .raise .boundary s else writeBytes off.toNat payload s

/-- BULK_WRITE off, len [d0, ..., d(len-1)] (R184). -/
def execBulkWrite (off len : BitVec 16) (payload : List Byte) (s : State) :
    Host.Outcome State Fault Refusal :=
  controlFrame 0x09 true (bulkBody off len payload) s

/-- The answer (WIDTH, HEIGHT, FBSIZE) as 16-bit numbers (R69, R185). -/
def queryAnswer : Answer := ⟨BitVec.ofNat 16 width, BitVec.ofNat 16 height, BitVec.ofNat 16 fbSize⟩

/-- QUERY_INFO (R185); it needs no session and reads no state. -/
def execQueryInfo (s : State) : Host.Outcome State Fault Refusal :=
  controlFrame 0x0A false (update fun t => { t with answer := some queryAnswer }) s

/-- The block ends (R25, R187): DEAD <- 1; the framebuffer no longer exists and a raster operation in flight is
cut off with it (log 14). -/
def die (s : State) : State :=
  { s with dead := true, fb := [], rbusy := false, ras := { s.ras with ops := [] } }

/-- TEARDOWN's body (R187, R210): the request is cleared as it is taken (log 15), CloseBody whoever holds the
session, then DEAD <- 1. -/
def teardownBody : State → Res :=
  runAll [update fun s => { s with tdreq := false }, closeBody, update die]

/-- TEARDOWN (R187), on the control port from any client or taken for TDREQ (R210). -/
def execTeardown (s : State) : Host.Outcome State Fault Refusal :=
  controlFrame 0x0B false teardownBody s

end Sys2Proof.Machine
end

