-- ==== Sys2Proof/Machine/Dispatch.lean ====
section
/-! DEFINITION. One arm per instruction. -/

namespace Sys2Proof.Machine

def exec (i : Instr) (s : State) : Host.Outcome State Fault Refusal :=
  match i with
  | .sessionOpen => Sys2Proof.Machine.execSessionOpen s
  | .sessionClose => Sys2Proof.Machine.execSessionClose s
  | .configure clk dout rst dc => Sys2Proof.Machine.execConfigure clk dout rst dc s
  | .displayOn => Sys2Proof.Machine.execDisplayOn s
  | .displayOff => Sys2Proof.Machine.execDisplayOff s
  | .refresh => Sys2Proof.Machine.execRefresh s
  | .clear => Sys2Proof.Machine.execClear s
  | .mapFb size => Sys2Proof.Machine.execMapFb size s
  | .bulkWrite off len payload => Sys2Proof.Machine.execBulkWrite off len payload s
  | .queryInfo => Sys2Proof.Machine.execQueryInfo s
  | .teardown => Sys2Proof.Machine.execTeardown s
  | .fbClear => Sys2Proof.Machine.execFbClear s
  | .fbFillWhite => Sys2Proof.Machine.execFbFillWhite s
  | .drawPoint x y set => Sys2Proof.Machine.execDrawPoint x y set s
  | .drawChar x y fontSize glyph wide set => Sys2Proof.Machine.execDrawChar x y fontSize glyph wide set s
  | .drawString x y fontSize _ glyphs => Sys2Proof.Machine.execDrawString x y fontSize glyphs s
  | .drawBitmap x y w h frame => Sys2Proof.Machine.execDrawBitmap x y w h frame s
  | .fillRegion x1 y1 x2 y2 set => Sys2Proof.Machine.execFillRegion x1 y1 x2 y2 set s
  | .phyCmd byte => Sys2Proof.Machine.execPhyCmd byte s
  | .phyData byte => Sys2Proof.Machine.execPhyData byte s

end Sys2Proof.Machine
end

