-- ==== Sys2Proof/Machine/Serve.lean ====
section
/-! DEFINITION. Which command the block takes next, and the placing of a word at the head of its port
(30_encoding.md R64, R65; 60_exceptions.md R210; log 8). -/

namespace Sys2Proof.Machine

/-- The control port's turn (R19, R65): while BUSY = 1 the word is held (log 20); a reserved word answers
ERR_ILLEGAL (R64). -/
def serveControl (s : State) : Host.Outcome State Fault Refusal :=
  if s.busy then .next s
  else
    match offeredControl s with
    | .nothing => .next s
    | .reserved op t => illegal op t
    | .command i t => exec i t

/-- The raster port's turn: an operation in flight completes first (R100, log 26); a reserved word is dropped
(R64). -/
def serveRaster (s : State) : Host.Outcome State Fault Refusal :=
  let s' := rasFinish s
  match offeredRaster s' with
  | .nothing => .next s'
  | .reserved _ t => .next t
  | .command i t => exec i t

/-- The PHY input's turn (R66, log 10). -/
def servePhy (s : State) : Host.Outcome State Fault Refusal :=
  match s.inp.phyPort with
  | [] => .next s
  | r :: rs => exec (decodePhy r) { s with inp := { s.inp with phyPort := rs } }

/-- Whether the control port has something to take now. -/
def controlReady (s : State) : Bool :=
  !s.busy &&
    match offeredControl s with
    | .nothing => false
    | .reserved _ _ => true
    | .command _ _ => true

/-- One step of a live block: a pending teardown request ahead of everything when BUSY = 0 (R210), then the
port whose turn it is; with no turn given, the control port, then the PHY input, then the raster port
(log 8). -/
def serve (s : State) : Host.Outcome State Fault Refusal :=
  if s.tdreq && !s.busy then exec .teardown s
  else
    match s.inp.turns with
    | .control :: ts => serveControl { s with inp := { s.inp with turns := ts } }
    | .raster :: ts => serveRaster { s with inp := { s.inp with turns := ts } }
    | .phy :: ts => servePhy { s with inp := { s.inp with turns := ts } }
    | [] =>
      if controlReady s then serveControl s
      else if s.inp.phyPort.isEmpty then serveRaster s
      else servePhy s

/-- A command word at the head of its own port with a payload of zeros, and the next turn for that port. -/
def placeCommand (w : CmdWord) (s : State) : State :=
  let zeros := List.replicate (payloadCount w) (0 : Byte)
  match portOfWord w with
  | .raster =>
    { s with inp := { s.inp with
        rasPort := w :: s.inp.rasPort
        rasPayload := zeros ++ s.inp.rasPayload
        turns := .raster :: s.inp.turns } }
  | _ =>
    { s with inp := { s.inp with
        ctlPort := ⟨s.owner, w⟩ :: s.inp.ctlPort
        ctlPayload := zeros ++ s.inp.ctlPayload
        turns := .control :: s.inp.turns } }

/-- A PHY request at the PHY's input, and the next turn for it. -/
def placeRequest (r : BitVec 9) (s : State) : State :=
  { s with inp := { s.inp with phyPort := r :: s.inp.phyPort, turns := .phy :: s.inp.turns } }

/-- What the very next step needs to take a placed word: a live block, BUSY = 0, no pending teardown, no act
of another agent before it. -/
def readyToServe (s : State) : State :=
  { s with dead := false, busy := false, tdreq := false, inp := { s.inp with agenda := [] } }

end Sys2Proof.Machine
end

