-- ==== Sys2Proof/Machine/Step.lean ====
section
/-! DEFINITION. One step of the block, and the placing of a word for it. -/

namespace Sys2Proof.Machine

/-- A dead block takes no step (R25, U24). Otherwise the acts due before the next command happen (log 7), and
the block takes its next command (R165, R210). -/
def step (s : State) : Host.Outcome State Fault Refusal :=
  if s.dead then .fault .dead else serve (boundary .env s)

/-- The state with one instruction's bits, numbered as spec/opcode_table.json numbers them, placed where the
next step takes its command: at most 16 bits a PHY request, otherwise a 64-bit command word (log 8). -/
def State.withFetchWord (s : State) (nbits w : Nat) : State :=
  if nbits ≤ 16 then placeRequest (BitVec.ofNat 9 w) (readyToServe s)
  else placeCommand (BitVec.ofNat 64 w) (readyToServe s)

end Sys2Proof.Machine
end

