-- ==== Sys2Proof/Safety.lean ====
section
/-! DEFINITION. The terms claims are stated in: the premises "no other agent takes a step" and "the pads are
owned", the event sequences the spec prints, what an observer of the four lines receives, the result codes a
command can answer, the lifecycle moves, and the invariant of a block between commands. -/

namespace Sys2Proof.Machine

open Sys2Proof.Config (width height npages fbSize)

/-! ## Premises -/

/-- No agent but the one named takes a step, and PIN_FAULT = never (95_test_vectors.md, conventions). -/
structure Alone (s : State) : Prop where
  agenda : s.inp.agenda = []
  oracle : s.inp.pinFault = []

/-- The four pads are acquired and named by four distinct identifiers (R11, R12). -/
structure OwnsPins (s : State) : Prop where
  prs : s.prs = prsAll
  named : ∀ r : Role, s.pinreg.get r ≠ pinNone
  distinct : ∀ r q : Role, s.pinreg.get r = s.pinreg.get q → r = q

/-- A control command of the session's owner on a live block (R165, R205). -/
structure OwnerMayIssue (s : State) : Prop where
  alive : s.dead = false
  session : sessionOk s = true

/-! ## Event sequences -/

/-- `Wait(DLY)` as events (R81, R86). -/
def delayEvents (d : Nat) : List Event := if d = 0 then [] else [.wait d]

/-- A pin write of a transaction with its delay (R83, R86). -/
def writeEvents (g : PinGroup) (d : Nat) (r : Role) (v : Level) : List Event :=
  .pin r (g.get r) v :: delayEvents d

/-- One bit cell: clock low, data, clock high (R67). -/
def cellEvents (g : PinGroup) (d : Nat) (v : Level) : List Event :=
  writeEvents g d .clk false ++ writeEvents g d .dout v ++ writeEvents g d .clk true

/-- The events of `SendByte(b, s)`, oldest first (R83): DC, the cells 7 down to 0, DC. -/
def byteEvents (p : Config.Params) (g : PinGroup) (d : Nat) (b : Byte) (isData : Bool) : List Event :=
  writeEvents g d .dc (if isData then p.dcData else !p.dcData) ++
    ([7, 6, 5, 4, 3, 2, 1, 0].flatMap fun i => cellEvents g d (b.getLsbD i)) ++
    writeEvents g d .dc p.dcData

/-- The events of `SendSeq(L, s)` (R91). -/
def bytesEvents (p : Config.Params) (g : PinGroup) (d : Nat) (bytes : List Byte) (isData : Bool) :
    List Event :=
  bytes.flatMap fun b => byteEvents p g d b isData

/-- The events of one hardware page of REFRESH (R163), `v a` being the byte read at address a. -/
def pageEvents (p : Config.Params) (g : PinGroup) (d : Nat) (v : Nat → Byte) (pg : Nat) : List Event :=
  bytesEvents p g d [p.pageCmd[pg]?.getD 0, p.colLoCmd, p.colHiCmd] false ++
    (List.range width).flatMap fun col =>
      let a := (npages - 1 - pg) * width + col
      .fbRead a (v a) :: byteEvents p g d (v a) true

/-- The events of `RefreshBody()` (R163): pages NPAGES-1 down to 0. -/
def refreshEvents (p : Config.Params) (g : PinGroup) (d : Nat) (v : Nat → Byte) : List Event :=
  (List.range npages).reverse.flatMap (pageEvents p g d v)

/-- The FBSIZE writes of one value in ascending order (R102, R103, R164). -/
def fillEvents (agent : Agent) (v : Byte) : List Event :=
  (List.range fbSize).map fun a => .fbWrite agent a v

/-- The (byte, selector) pairs of the REFRESH stream (R166). -/
def refreshStream (p : Config.Params) (v : Nat → Byte) : List (Byte × Bool) :=
  (List.range npages).reverse.flatMap fun pg =>
    [(p.pageCmd[pg]?.getD 0, false), (p.colLoCmd, false), (p.colHiCmd, false)] ++
      (List.range width).map fun col => (v ((npages - 1 - pg) * width + col), true)

/-! ## An observer of the four lines (40_serial_phy.md section 7; a receiver of R88 (e)) -/

/-- The levels an observer has seen on the lines, and the bits it has shifted in since the last byte. -/
structure Rx where
  clk : Level
  dout : Level
  rst : Level
  dc : Level
  bits : List Level
  out : List (Byte × Bool)
  deriving DecidableEq, Repr

/-- Eight samples, the first one bit 7 (R88 (e)). -/
def byteOfBits (bits : List Level) : Byte :=
  bits.foldl (fun acc b => (acc <<< 1) ||| (BitVec.ofBool b).setWidth 8) 0

/-- The receiver samples DOUT at each rising edge of CLK while RST is high, and DC at the eighth; a low RST
clears the bit count. -/
def Rx.observe (p : Config.Params) (x : Rx) : Event → Rx
  | .pin .clk _ v =>
    if v && !x.clk && x.rst then
      let bits := x.bits ++ [x.dout]
      if bits.length = 8 then
        { x with clk := v, bits := [], out := x.out ++ [(byteOfBits bits, x.dc == p.dcData)] }
      else { x with clk := v, bits := bits }
    else { x with clk := v }
  | .pin .dout _ v => { x with dout := v }
  | .pin .rst _ v => if v then { x with rst := v } else { x with rst := v, bits := [] }
  | .pin .dc _ v => { x with dc := v }
  | .acquire _ _ => x
  | .release _ => x
  | .wait _ => x
  | .fbRead _ _ => x
  | .fbWrite _ _ _ => x
  | .resp _ _ => x

/-- What the receiver has after a list of events, oldest first. -/
def Rx.run (p : Config.Params) (x : Rx) (es : List Event) : Rx := es.foldl (Rx.observe p) x

/-- A receiver between two bytes on idle lines (R27), with nothing received yet. -/
def Rx.idle (p : Config.Params) (dout : Level) : Rx := ⟨true, dout, true, p.dcData, [], []⟩

/-! ## Results and frames -/

/-- The end of a control command (R165) that has come to `s`: the acts of the other agents due before its last
micro-step (R20, R47; none with an empty agenda), then STATUS, the response, BUSY <- 0. -/
def answered (op code : Byte) (s : State) : State :=
  let u := boundary .seq s
  { u with status := code, traceRev := .resp op code :: u.traceRev, busy := false }

/-- An event that only SEQ and its PHY record; a framebuffer read may be anyone's. -/
def isSeqEvent : Event → Bool
  | .fbWrite g _ _ => g == .seq
  | .fbRead _ _ => false
  | .acquire _ _ => true
  | .release _ => true
  | .pin _ _ _ => true
  | .wait _ => true
  | .resp _ _ => true

/-- `es` is `own`, in its order and whole, with framebuffer accesses of other agents anywhere in between (R47). -/
structure Interleaved (own es : List Event) : Prop where
  inOrder : own.Sublist es
  nothingElse : es.filter isSeqEvent = own.filter isSeqEvent

/-- What a run of transactions leaves unchanged: everything but the pads' drives, SR to IDX, TRACE, STATUS,
BUSY, LC, FB, the draws and the answer; pads no role names keep their drive, and no pad changes owner. -/
structure BusFrame (s t : State) : Prop where
  pinreg : t.pinreg = s.pinreg
  prs : t.prs = s.prs
  cfg : t.cfg = s.cfg
  slock : t.slock = s.slock
  owner : t.owner = s.owner
  mapped : t.mapped = s.mapped
  rbusy : t.rbusy = s.rbusy
  ras : t.ras = s.ras
  tdreq : t.tdreq = s.tdreq
  dead : t.dead = s.dead
  dlyCfg : t.dlyCfg = s.dlyCfg
  params : t.params = s.params
  inp : t.inp = s.inp
  extByte : t.extByte = s.extByte
  otherPads : ∀ id : PinId, (∀ r, s.pinreg.get r ≠ id) → padOf t id = padOf s id
  padOwners : ∀ id : PinId, (padOf t id).map Pad.owner = (padOf s id).map Pad.owner

/-- The lines after the last byte of a run of transactions (R87). -/
structure SentLast (s t : State) (last : Byte) : Prop where
  dc : line t .dc = .driven s.params.dcData
  clk : line t .clk = .driven true
  dout : line t .dout = .driven (last.getLsbD 0)
  rst : line t .rst = line s .rst

/-- What a raster operation leaves unchanged (R100): everything but FB, TRACE, the rasteriser's registers, RBUSY
and the draws; its events are framebuffer accesses. -/
structure RasterFrame (s t : State) : Prop where
  pinreg : t.pinreg = s.pinreg
  prs : t.prs = s.prs
  cfg : t.cfg = s.cfg
  lc : t.lc = s.lc
  slock : t.slock = s.slock
  owner : t.owner = s.owner
  mapped : t.mapped = s.mapped
  busy : t.busy = s.busy
  status : t.status = s.status
  seqr : t.seqr = s.seqr
  pads : t.pads = s.pads
  tdreq : t.tdreq = s.tdreq
  dead : t.dead = s.dead
  dlyCfg : t.dlyCfg = s.dlyCfg
  params : t.params = s.params
  inp : t.inp = s.inp
  answer : t.answer = s.answer
  extByte : t.extByte = s.extByte
  completed : t.rbusy = false ∧ t.ras.ops = []
  events : ∃ es, t.trace = s.trace ++ es ∧
    ∀ e ∈ es, (∃ a v, e = .fbRead a v) ∨ ∃ a v, e = .fbWrite .ras a v

/-- The rasteriser runs alone: a live block, no other agent acts, no raster operation is in flight. -/
structure RasterAlone (s : State) : Prop where
  alive : s.dead = false
  agenda : s.inp.agenda = []
  idle : s.ras.ops = []

/-- The pixels of a set are as `f` says, every other pixel whose byte had been written is unchanged, and every
byte that holds no pixel of the set is unchanged (R101, R104). -/
structure Drawn (m n : Memory) (area : Nat → Nat → Prop) (f : Nat → Nat → Bool) : Prop where
  inside : ∀ x y, onScreen x y → area x y → pixelOf n x y = some (f x y)
  outside : ∀ x y b, ¬ area x y → pixelOf m x y = some b → pixelOf n x y = some b
  bytes : ∀ a, (∀ x y, area x y → (pixelAddr x y).map Fin.val ≠ some a) →
    Memory.read n a = Memory.read m a

/-- The pixel (x, y) lies in the picture of `rows` by `cols` with its top-left pixel at (x0, y0) (R104). -/
def inPicture (x0 y0 rows cols x y : Nat) : Prop := x0 ≤ x ∧ x < x0 + cols ∧ y0 ≤ y ∧ y < y0 + rows

/-- The bit of a picture for its column c and row r (R104): byte `c * ceil(rows / 8) + r / 8`, bit
`7 - (r % 8)`. -/
def pictureBit (rows : Nat) (src : Nat → Byte) (c r : Nat) : Bool :=
  (src (c * ((rows + 7) / 8) + r / 8)).getLsbD (7 - r % 8)

/-- What SESSION_CLOSE and TEARDOWN do to a block (R182, R134), with the response of opcode `op`: the power-down
bytes if the four pads are held, the releases in role order, the flags. -/
structure ClosedDown (s t : State) (op : Byte) : Prop where
  trace : t.trace = s.trace ++
    (if s.prs = prsAll ∧ s.params.closePowersDown = true then
      bytesEvents s.params s.pinreg s.dlyCfg.toNat s.params.offSeq.toList false else []) ++
    (([.clk, .dout, .rst, .dc] : List Role).filter (prsBit s.prs)).map (fun r => .release (s.pinreg.get r)) ++
    [.resp op 0x00]
  status : t.status = 0x00
  busy : t.busy = false
  prs : t.prs = 0b0000
  pinreg : t.pinreg = ⟨0xFF, 0xFF, 0xFF, 0xFF⟩
  cfg : t.cfg = false
  lc : t.lc = .released
  mapped : t.mapped = false
  slock : t.slock = false
  lines : ∀ r, line t r = .z
  freed : ∀ r, prsBit s.prs r = true → padOf t (s.pinreg.get r) = some ⟨.free, .z⟩
  otherPads : ∀ id : PinId, (∀ r, prsBit s.prs r = true → s.pinreg.get r ≠ id) → padOf t id = padOf s id
  pg : t.seqr.pg = s.seqr.pg
  col : t.seqr.col = s.seqr.col
  owner : t.owner = s.owner
  dlyCfg : t.dlyCfg = s.dlyCfg
  params : t.params = s.params
  inp : t.inp = s.inp
  extByte : t.extByte = s.extByte

/-- The roles PRS marks as acquired name pads, and four acquired pads are four (R11, R12). -/
structure HeldPins (s : State) : Prop where
  named : ∀ r, prsBit s.prs r = true → s.pinreg.get r ≠ pinNone
  distinct : s.prs = prsAll → ∀ r q, s.pinreg.get r = s.pinreg.get q → r = q

/-! ## Properties of TRACE -/

/-- The byte of the newest FbWrite to `a` in a list of events, newest first. -/
def lastWrite : List Event → Nat → Option Byte
  | [], _ => none
  | .fbWrite _ k v :: es, a => if k = a then some v else lastWrite es a
  | .acquire _ _ :: es, a => lastWrite es a
  | .release _ :: es, a => lastWrite es a
  | .pin _ _ _ :: es, a => lastWrite es a
  | .wait _ :: es, a => lastWrite es a
  | .fbRead _ _ :: es, a => lastWrite es a
  | .resp _ _ :: es, a => lastWrite es a

/-- Every FbRead in a list of events, newest first, returned the byte of the latest FbWrite before it (R47). -/
def readsLatest : List Event → Prop
  | [] => True
  | .fbRead a v :: es => (∀ w, lastWrite es a = some w → v = w) ∧ readsLatest es
  | .fbWrite _ _ _ :: es => readsLatest es
  | .acquire _ _ :: es => readsLatest es
  | .release _ :: es => readsLatest es
  | .pin _ _ _ :: es => readsLatest es
  | .wait _ :: es => readsLatest es
  | .resp _ _ :: es => readsLatest es

/-- FB holds exactly what TRACE has written to it, and every read in TRACE was of the latest write (R47). -/
structure SingleCopy (s : State) : Prop where
  contents : ∀ a, Memory.read s.fb a = lastWrite s.traceRev a
  reads : readsLatest s.traceRev

/-- Whether the newest Acquire or Release of a pad in a list of events, newest first, is a granted Acquire. -/
def heldInTrace : List Event → PinId → Bool
  | [], _ => false
  | .acquire id ok :: es, j => if id = j ∧ ok = true then true else heldInTrace es j
  | .release id :: es, j => if id = j then false else heldInTrace es j
  | .fbWrite _ _ _ :: es, j => heldInTrace es j
  | .pin _ _ _ :: es, j => heldInTrace es j
  | .wait _ :: es, j => heldInTrace es j
  | .fbRead _ _ :: es, j => heldInTrace es j
  | .resp _ _ :: es, j => heldInTrace es j

/-- Every Pin event in a list of events, newest first, is to a pad held at that moment (R23, R241). -/
def pinsHeld : List Event → Prop
  | [] => True
  | .pin _ id _ :: es => heldInTrace es id = true ∧ pinsHeld es
  | .acquire _ _ :: es => pinsHeld es
  | .release _ :: es => pinsHeld es
  | .fbWrite _ _ _ :: es => pinsHeld es
  | .wait _ :: es => pinsHeld es
  | .fbRead _ _ :: es => pinsHeld es
  | .resp _ _ :: es => pinsHeld es

/-- The block owns exactly the pads TRACE says it holds, and has driven only pads it held (R23, R241). -/
structure DrivesOnlyHeld (s : State) : Prop where
  owned : ∀ id : PinId, (padOf s id).map Pad.owner = some .self ↔ heldInTrace s.traceRev id = true
  pins : pinsHeld s.traceRev

/-! ## Time -/

/-- A Wait event (R24, R81). -/
def isWait : Event → Bool
  | .wait _ => true
  | .acquire _ _ => false
  | .release _ => false
  | .pin _ _ _ => false
  | .fbRead _ _ => false
  | .fbWrite _ _ _ => false
  | .resp _ _ => false

/-- The state without its delay and the Wait events of TRACE: all that may depend on time (R256). -/
def timeless (s : State) : State :=
  { s with dlyCfg := 0, traceRev := s.traceRev.filter fun e => !isWait e }

/-! ## Result codes and lifecycle moves -/

/-- Whether a command needs a session (R205). -/
def needsSession : Instr → Bool
  | .configure _ _ _ _ => true
  | .displayOn => true
  | .displayOff => true
  | .refresh => true
  | .clear => true
  | .mapFb _ => true
  | .bulkWrite _ _ _ => true
  | .sessionOpen => false
  | .sessionClose => false
  | .queryInfo => false
  | .teardown => false
  | .fbClear => false
  | .fbFillWhite => false
  | .drawPoint _ _ _ => false
  | .drawChar _ _ _ _ _ _ => false
  | .drawString _ _ _ _ _ => false
  | .drawBitmap _ _ _ _ _ => false
  | .fillRegion _ _ _ _ _ => false
  | .phyCmd _ => false
  | .phyData _ => false

/-- Whether a command tests the guard (R138). -/
def isGuarded : Instr → Bool
  | .displayOn => true
  | .displayOff => true
  | .refresh => true
  | .clear => true
  | .configure _ _ _ _ => false
  | .mapFb _ => false
  | .bulkWrite _ _ _ => false
  | .sessionOpen => false
  | .sessionClose => false
  | .queryInfo => false
  | .teardown => false
  | .fbClear => false
  | .fbFillWhite => false
  | .drawPoint _ _ _ => false
  | .drawChar _ _ _ _ _ _ => false
  | .drawString _ _ _ _ _ => false
  | .drawBitmap _ _ _ _ _ => false
  | .fillRegion _ _ _ _ _ => false
  | .phyCmd _ => false
  | .phyData _ => false

/-- The opcode of a control command (R63), as its Resp event carries it. -/
def controlOpcode : Instr → Byte
  | .sessionOpen => 0x01
  | .sessionClose => 0x02
  | .configure _ _ _ _ => 0x03
  | .displayOn => 0x04
  | .displayOff => 0x05
  | .refresh => 0x06
  | .clear => 0x07
  | .mapFb _ => 0x08
  | .bulkWrite _ _ _ => 0x09
  | .queryInfo => 0x0A
  | .teardown => 0x0B
  | .fbClear => 0
  | .fbFillWhite => 0
  | .drawPoint _ _ _ => 0
  | .drawChar _ _ _ _ _ _ => 0
  | .drawString _ _ _ _ _ => 0
  | .drawBitmap _ _ _ _ _ => 0
  | .fillRegion _ _ _ _ _ => 0
  | .phyCmd _ => 0
  | .phyData _ => 0

/-- The rows of R202: the codes a control command can answer. -/
def answerable : Instr → List Code
  | .sessionOpen => [.ok, .busy]
  | .sessionClose => [.ok, .io]
  | .configure _ _ _ _ => [.ok, .config, .pinUnavailable, .io, .noSession]
  | .displayOn => [.ok, .notReady, .io, .noSession]
  | .displayOff => [.ok, .notReady, .io, .noSession]
  | .refresh => [.ok, .notReady, .io, .noSession]
  | .clear => [.ok, .notReady, .io, .noSession]
  | .mapFb _ => [.ok, .sizeMismatch, .alreadyMapped, .noSession]
  | .bulkWrite _ _ _ => [.ok, .boundary, .noSession]
  | .queryInfo => [.ok]
  | .teardown => [.ok, .io]
  | .fbClear => []
  | .fbFillWhite => []
  | .drawPoint _ _ _ => []
  | .drawChar _ _ _ _ _ _ => []
  | .drawString _ _ _ _ _ => []
  | .drawBitmap _ _ _ _ _ => []
  | .fillRegion _ _ _ _ _ => []
  | .phyCmd _ => []
  | .phyData _ => []

/-- The moves of LC from one quiescent state to another that the rows of R139 allow, LC unchanged included. -/
def lifecycleMove (a b : Lifecycle) : Bool :=
  a == b || b == .released ||
    ((a == .unbound || a == .released) && b == .initialized) ||
    ((a == .initialized || a == .opened || a == .closed) && (b == .opened || b == .closed))

/-! ## The invariant of a block between commands -/

/-- The pads a role's register names are owned exactly while PRS says so (R12, R23). -/
def ownedExactly (s : State) : Prop :=
  ∀ id : PinId, (padOf s id).map Pad.owner = some .self ↔
    ∃ r : Role, prsBit s.prs r = true ∧ s.pinreg.get r = id

/-- R15's table together with R11: what CFG, PRS, LC and PINREG say of each other. -/
def registersAgree (s : State) : Prop :=
  if s.cfg then
    s.prs = prsAll ∧ (s.lc = .initialized ∨ s.lc = .opened ∨ s.lc = .closed) ∧
      validatePins s.pinreg.clk s.pinreg.dout s.pinreg.rst s.pinreg.dc s = true
  else
    s.prs = 0 ∧ (s.lc = .unbound ∨ s.lc = .released) ∧ s.pinreg = ⟨pinNone, pinNone, pinNone, pinNone⟩

/-- R27: the idle levels of the lines. -/
def linesIdle (s : State) : Prop :=
  line s .clk = .driven true ∧ line s .rst = .driven true ∧ line s .dc = .driven s.params.dcData ∧
    (line s .dout = .driven false ∨ line s .dout = .driven true)

/-- The state of a block between commands (BUSY = 0), PIN_FAULT = never. -/
structure Inv (s : State) : Prop where
  /-- the framebuffer keeps its canonical form. -/
  memory : Memory.wf s.fb
  /-- no command is in flight (R19). -/
  notBusy : s.busy = false
  /-- RBUSY is 1 exactly while a raster operation has steps left (R19). -/
  rasterFlag : s.rbusy = !s.ras.ops.isEmpty
  /-- PIN_FAULT = never (00_scope.md section 4). -/
  oracle : s.inp.pinFault = []
  /-- R15, R11. -/
  registers : registersAgree s
  /-- R11, R12, R23. -/
  owners : ownedExactly s
  /-- a pad the block does not own is not driven (R23, R132). -/
  undriven : ∀ id : PinId, ∀ p : Pad, padOf s id = some p → p.owner ≠ .self → p.drv = .z
  /-- R27. -/
  idle : s.prs = prsAll → linesIdle s
  /-- a configured or mapped block has an open session (R160, R183, R182). -/
  session : s.cfg = true ∨ s.mapped = true → s.slock = true

end Sys2Proof.Machine
end

