-- ==== Sys2Proof/Certificates/Slice0/Obligations.lean ====
section
/-! DEFINITION. The statements for the provers. "Alone" is the premise of 95_test_vectors.md that no agent but
the one named takes a step; where it is missing the statement holds for every interleaving the agenda lists, and
`answered` says the end of a command: the acts due before its STATUS write, then the response (R165, R20). -/

open Sys2Proof Sys2Proof.Machine
open Sys2Proof.Config (width height npages fbSize)

/-! ## Encoding -/

/-- 30_encoding.md R61, R62, R66, R68: no bit of an encoding is dropped. -/
def Obligations.DecodeOfEncodeIsTheInstruction : Prop :=
  ∀ i : Instr, i.wellFormed = true → decode (encode i) = .ok i

/-- R61 to R64, R66: only the encoder's words decode. -/
def Obligations.DecodableWordsAreEncodings : Prop :=
  ∀ (ws : Words) (i : Instr), decode ws = .ok i → encode i = ws ∧ i.wellFormed = true

/-- R63, R64: with a payload of the right length, a command word decodes exactly when a row of the opcode table
selects it, and no word is selected by two rows. -/
def Obligations.CommandDecodesIffOpcodeRowSelects : Prop :=
  (∀ (w : CmdWord) (payload : List Byte), payload.length = payloadCount w →
    ((∃ i, decodeCommand w payload = .ok i) ↔ ∃ r ∈ opcodeRows, r.selects w = true)) ∧
  ∀ (w : CmdWord) (r q : Row), r ∈ opcodeRows → q ∈ opcodeRows →
    r.selects w = true → q.selects w = true → r = q

/-- R51: moved as bytes, the most significant byte of the word goes first, and payload bytes go in ascending
index order. -/
def Obligations.ByteStreamDecodesMostSignificantFirst : Prop :=
  ∀ (w : CmdWord) (payload rest : List Byte) (i : Instr), decodeCommand w payload = .ok i →
    decodeBytes ([w.extractLsb' 56 8, w.extractLsb' 48 8, w.extractLsb' 40 8, w.extractLsb' 32 8,
      w.extractLsb' 24 8, w.extractLsb' 16 8, w.extractLsb' 8 8, w.extractLsb' 0 8] ++ payload ++ rest) =
      .ok (i, rest)

/-- Words written out in 95_test_vectors.md decode to the commands they stand for. -/
def Obligations.PrintedWordsDecodeAsPrinted : Prop :=
  decode (.command 0x03111B0418000000 []) = .ok (.configure 17 27 4 24) ∧
  decode (.command 0x0800000000001000 []) = .ok (.mapFb 4096) ∧
  decode (.command 0x12050A0000000001 []) = .ok (.drawPoint 5 10 true) ∧
  decode (.command 0x1400001000000200 [0x28, 0x29]) = .ok (.drawString 0 0 16 2 [0x28, 0x29]) ∧
  decode (.command 0x167E3C8246000001 []) = .ok (.fillRegion 126 60 130 70 true) ∧
  decode (.command 0x0600000000000001 []) = .error (.mustBeZero 0x06) ∧
  decode (.request 0x1A5) = .ok (.phyData 0xA5)

/-! ## A step -/

/-- A step of a live block runs the decoded control command at the head of the control port, its client id
beside it and its payload taken off, after the acts due before it (R65, R68, R165). -/
def Obligations.StepRunsTheControlCommand : Prop :=
  ∀ (s b : State) (o : CtlOffer) (os : List CtlOffer) (ts : List Port) (i : Instr),
    s.dead = false → b = boundary .env s → b.tdreq = false → b.busy = false →
    (b.inp.turns = .control :: ts ∨ (b.inp.turns = [] ∧ ts = [])) →
    b.inp.ctlPort = o :: os → payloadCount o.word ≤ b.inp.ctlPayload.length →
    decodeCommand o.word (b.inp.ctlPayload.take (payloadCount o.word)) = .ok i → i.port = .control →
    step s = exec i { b with inp := { b.inp with
      cid := o.cid
      ctlPort := os
      ctlPayload := b.inp.ctlPayload.drop (payloadCount o.word)
      turns := ts } }

/-- A step of a live block whose turn is the raster port's runs the decoded raster operation at its head, an
operation in flight completing first (R65, R68, R100). -/
def Obligations.StepRunsTheRasterOperation : Prop :=
  ∀ (s b r : State) (w : CmdWord) (ws : List CmdWord) (ts : List Port) (i : Instr),
    s.dead = false → b = boundary .env s → (b.tdreq = false ∨ b.busy = true) →
    (b.inp.turns = .raster :: ts ∨
      (b.inp.turns = [] ∧ ts = [] ∧ b.inp.ctlPort = [] ∧ b.inp.phyPort = [])) →
    r = rasFinish { b with inp := { b.inp with turns := ts } } →
    r.inp.rasPort = w :: ws → payloadCount w ≤ r.inp.rasPayload.length →
    decodeCommand w (r.inp.rasPayload.take (payloadCount w)) = .ok i → i.port = .raster →
    step s = exec i { r with inp := { r.inp with
      rasPort := ws
      rasPayload := r.inp.rasPayload.drop (payloadCount w) } }

/-- A step of a live block whose turn is the PHY input's runs the request at its head (R66). -/
def Obligations.StepRunsThePhyRequest : Prop :=
  ∀ (s b : State) (q : BitVec 9) (qs : List (BitVec 9)) (ts : List Port),
    s.dead = false → b = boundary .env s → (b.tdreq = false ∨ b.busy = true) →
    (b.inp.turns = .phy :: ts ∨ (b.inp.turns = [] ∧ ts = [] ∧ b.inp.ctlPort = [])) →
    b.inp.phyPort = q :: qs →
    step s = exec (if q.getLsbD 8 = true then .phyData (q.extractLsb' 0 8) else .phyCmd (q.extractLsb' 0 8))
      { b with inp := { b.inp with phyPort := qs, turns := ts } }

/-- R64, R65: a word the control port does not accept answers ERR_ILLEGAL at once, takes no payload and changes
nothing else. (The cleared answer: log 17.) -/
def Obligations.ReservedControlWordAnswersIllegal : Prop :=
  ∀ (s b : State) (o : CtlOffer) (os : List CtlOffer) (ts : List Port),
    s.dead = false → b = boundary .env s → b.dead = false → b.tdreq = false → b.busy = false →
    (b.inp.turns = .control :: ts ∨ (b.inp.turns = [] ∧ ts = [])) →
    b.inp.ctlPort = o :: os →
    (∀ payload i, decodeCommand o.word payload = .ok i → i.port ≠ .control) →
    step s = .next (answered (o.word.extractLsb' 56 8) 0x0A { b with
      busy := true
      answer := none
      inp := { b.inp with cid := o.cid, ctlPort := os, turns := ts } })

/-- R64, R65: a word the raster port does not accept is dropped with no effect at all. -/
def Obligations.ReservedRasterWordIsDropped : Prop :=
  ∀ (s b : State) (w : CmdWord) (ws : List CmdWord) (ts : List Port),
    s.dead = false → b = boundary .env s → (b.tdreq = false ∨ b.busy = true) →
    b.inp.turns = .raster :: ts → b.ras.ops = [] → b.inp.rasPort = w :: ws →
    (∀ payload i, decodeCommand w payload = .ok i → i.port ≠ .raster) →
    step s = .next { b with inp := { b.inp with rasPort := ws, turns := ts } }

/-- R19, R68: a control word offered while BUSY = 1, or whose payload is not all there, is held: it stays at
the port and nothing happens. -/
def Obligations.ControlWordIsHeldNotDropped : Prop :=
  ∀ (s b : State) (o : CtlOffer) (os : List CtlOffer) (ts : List Port),
    s.dead = false → b = boundary .env s → b.inp.turns = .control :: ts → b.inp.ctlPort = o :: os →
    (b.busy = true ∨
      (b.tdreq = false ∧ portOfWord o.word = .control ∧ b.inp.ctlPayload.length < payloadCount o.word)) →
    step s = .next { b with inp := { b.inp with turns := ts } }

/-- R210: a pending teardown request is taken when BUSY = 0, ahead of everything waiting at the ports. -/
def Obligations.TeardownRequestIsTakenFirst : Prop :=
  ∀ s b : State, s.dead = false → b = boundary .env s → b.tdreq = true → b.busy = false →
    step s = exec .teardown b

/-- R25: a dead block accepts nothing on any port. -/
def Obligations.DeadBlockAcceptsNothing : Prop :=
  ∀ s : State, s.dead = true → step s = .fault .dead ∧ ∀ i : Instr, exec i s = .fault .dead

/-! ## The PHY -/

/-- R83, R87: the 26 pin writes of a transaction in their order with their delays, the lines at completion, SR
and BITCNT, and that nothing else changes. -/
def Obligations.PhyTransactionWritesTheFrame : Prop :=
  ∀ (s : State) (b : Byte) (isData : Bool), s.dead = false → Alone s → OwnsPins s →
    ∃ t, exec (if isData then .phyData b else .phyCmd b) s = .next t ∧
      t.trace = s.trace ++ byteEvents s.params s.pinreg s.dlyCfg.toNat b isData ∧
      SentLast s t b ∧ BusFrame s t ∧
      t.seqr = { s.seqr with sr := 0x00, bitcnt := 0 } ∧
      t.status = s.status ∧ t.busy = s.busy ∧ t.lc = s.lc ∧ t.fb = s.fb ∧ t.answer = s.answer ∧
      t.draws = s.draws

/-- R80, R241: no PinWrite goes on unless all four pads are owned: the model's PinWrite faults (R80; the faults'
names: log 18), and the guarded commands answer ERR_NOT_READY instead of reaching one. -/
def Obligations.PinWriteWithoutAllPadsIsAFault : Prop :=
  (∀ (r : Role) (v : Level) (s : State), prsBit (boundary .seq s).prs r = false →
    pinWrite r v s = .fault (.pinNotOwned r)) ∧
  (∀ (r : Role) (v : Level) (s : State), (boundary .seq s).prs ≠ 0b1111 → ∃ f, pinWrite r v s = .fault f) ∧
  (∀ (s : State) (b : Byte), s.dead = false → s.inp.agenda = [] → prsBit s.prs .dc = false →
    exec (.phyCmd b) s = .fault (.pinNotOwned .dc) ∧ exec (.phyData b) s = .fault (.pinNotOwned .dc)) ∧
  ∀ (s t : State) (i : Instr), OwnerMayIssue s → isGuarded i = true → s.prs ≠ 0b1111 → exec i s = .next t →
    t.status = 0x04 ∧ (∀ id, (padOf t id).map Pad.drv = (padOf s id).map Pad.drv) ∧
    ∃ es, t.trace = s.trace ++ es ∧ ∀ e ∈ es, ∀ r id v, e ≠ .pin r id v

/-- R83, R86: what a PHY request adds to TRACE is exactly 26 PinWrites; with DLY > 0 a Wait(DLY) follows every one
of them, with DLY = 0 there is no Wait. -/
def Obligations.TransactionIs26WritesEachDelayed : Prop :=
  ∀ (s : State) (b : Byte) (i : Instr), i = .phyCmd b ∨ i = .phyData b →
    s.dead = false → Alone s → OwnsPins s →
    ∃ t es, exec i s = .next t ∧ t.trace = s.trace ++ es ∧
      (es.filter fun e => match e with | .pin _ _ _ => true | _ => false).length = 26 ∧
      (s.dlyCfg = 0 → es.length = 26) ∧
      (s.dlyCfg ≠ 0 → es.length = 52 ∧
        ∀ k, k < 26 → (∃ r id v, es[2 * k]? = some (.pin r id v)) ∧
          es[2 * k + 1]? = some (.wait s.dlyCfg.toNat))

/-- R88 (e), R91: from what SendSeq adds to TRACE, a receiver on idle lines that samples DOUT at each rising edge of
CLK and DC at the eighth recovers every byte and selector of the sequence, and is between bytes on idle lines again.
The receiver is the test aid of 40_serial_phy.md section 7 (general knowledge, not the source's). -/
def Obligations.ReceiverRecoversTheSequence : Prop :=
  ∀ (s : State) (bytes : List Byte) (isData : Bool) (v : Level),
    Alone s → OwnsPins s → linesIdle s → line s .dout = .driven v →
    ∃ t es w, sendSeq bytes isData s = .ok t ∧ t.trace = s.trace ++ es ∧
      linesIdle t ∧ line t .dout = .driven w ∧
      Rx.run s.params (Rx.idle s.params v) es =
        { Rx.idle s.params w with out := bytes.map fun b => (b, isData) }

/-! ## The rasteriser -/

/-- R100: a raster operation needs no session and no configuration, always completes, and touches the
framebuffer and the rasteriser's registers and nothing else. -/
def Obligations.RasterOperationsTouchOnlyTheFramebuffer : Prop :=
  ∀ (i : Instr) (s : State), i.port = .raster → s.dead = false → s.inp.agenda = [] →
    ∃ t, exec i s = .next t ∧ RasterFrame s t

/-- R101: the read and the write back of the pixel's byte, or no access at all. -/
def Obligations.DrawPointReadsAndWritesOneByte : Prop :=
  (∀ (x y : Byte) (set : Bool),
    decode (.command (0x12#8 ++ x ++ y ++ 0#39 ++ BitVec.ofBool set) []) = .ok (.drawPoint x y set)) ∧
  ∀ (s : State) (x y : Byte) (set : Bool), RasterAlone s →
    (x.toNat < width ∧ y.toNat < height →
      ∃ t v, exec (.drawPoint x y set) s = .next t ∧ RasterFrame s t ∧
        (∀ w, Memory.read s.fb (y.toNat / 8 * width + x.toNat) = some w → v = w) ∧
        (let m : Byte := 1 <<< (7 - y.toNat % 8)
         let u : Byte := if set then v ||| m else v &&& ~~~m
         Memory.read t.fb (y.toNat / 8 * width + x.toNat) = some u ∧
         (∀ a, a ≠ y.toNat / 8 * width + x.toNat → Memory.read t.fb a = Memory.read s.fb a) ∧
         t.trace = s.trace ++ [.fbRead (y.toNat / 8 * width + x.toNat) v,
           .fbWrite .ras (y.toNat / 8 * width + x.toNat) u])) ∧
    (width ≤ x.toNat ∨ height ≤ y.toNat →
      exec (.drawPoint x y set) s = .next { s with rbusy := false })

/-- R113 (a), (b): reading back the pixel yields the value written, and no other pixel changes; off-screen
nothing changes. -/
def Obligations.DrawPointReadsBack : Prop :=
  ∀ (s : State) (x y : Byte) (set : Bool), RasterAlone s →
    ∃ t, exec (.drawPoint x y set) s = .next t ∧
      Drawn s.fb t.fb (fun px py => px = x.toNat ∧ py = y.toNat) (fun _ _ => set) ∧
      (¬ onScreen x.toNat y.toNat → t.fb = s.fb)

/-- R102, R103: every byte to 0x00 or 0xFF, in ascending order, with no read and nothing sent. -/
def Obligations.FillsWriteEveryByteAscending : Prop :=
  decode (.command 0x1000000000000000 []) = .ok .fbClear ∧
  decode (.command 0x1100000000000000 []) = .ok .fbFillWhite ∧
  ∀ (s : State) (i : Instr) (v : Byte), RasterAlone s →
    (i = .fbClear ∧ v = 0x00 ∨ i = .fbFillWhite ∧ v = 0xFF) →
    ∃ t, exec i s = .next t ∧ RasterFrame s t ∧ (∀ a, a < fbSize → Memory.read t.fb a = some v) ∧
      (∀ a, fbSize ≤ a → Memory.read t.fb a = Memory.read s.fb a) ∧
      t.trace = s.trace ++ fillEvents .ras v

/-- R104, R105: every pixel of the cell is written, a 1 bit as `set` and a 0 bit as the opposite, clipped pixel
by pixel; a font size outside 12, 16, 24 draws nothing. -/
def Obligations.DrawCharWritesTheWholeCell : Prop :=
  ∀ (s : State) (x y fs : Byte) (g : BitVec 16) (wide set : Bool), RasterAlone s →
    (fs.toNat ∈ [12, 16, 24] →
      ∃ t, exec (.drawChar x y fs g wide set) s = .next t ∧
        Drawn s.fb t.fb
          (inPicture x.toNat y.toNat fs.toNat (if wide then fs.toNat else fs.toNat / 2))
          (fun px py => pictureBit fs.toNat (Config.font fs.toNat wide g.toNat) (px - x.toNat) (py - y.toNat)
            == set)) ∧
    (fs.toNat ∉ [12, 16, 24] →
      exec (.drawChar x y fs g wide set) s = .next { s with rbusy := false })

/-- R104, R107: a frame of w columns and h rows, a 1 bit lights its pixel and a 0 bit clears it. -/
def Obligations.DrawBitmapWritesTheFrame : Prop :=
  ∀ (s : State) (x y w h : Byte) (f : BitVec 16), RasterAlone s →
    ∃ t, exec (.drawBitmap x y w h f) s = .next t ∧
      Drawn s.fb t.fb (inPicture x.toNat y.toNat h.toNat w.toNat)
        (fun px py => pictureBit h.toNat (Config.bitmap f.toNat) (px - x.toNat) (py - y.toNat))

/-- R108: both bounds inclusive; reversed corners draw nothing. -/
def Obligations.FillRegionFillsInclusively : Prop :=
  ∀ (s : State) (x1 y1 x2 y2 : Byte) (set : Bool), RasterAlone s →
    ∃ t, exec (.fillRegion x1 y1 x2 y2 set) s = .next t ∧
      Drawn s.fb t.fb
        (fun px py => x1.toNat ≤ px ∧ px ≤ x2.toNat ∧ y1.toNat ≤ py ∧ py ≤ y2.toNat) (fun _ _ => set)

/-- R106: a string is its line test, its page test with the clear of the whole buffer, its first glyph at the pen,
and the rest of the string from the advanced pen. -/
def Obligations.DrawStringIsGlyphAfterGlyph : Prop :=
  ∀ (s : State) (x y fs : Byte) (n n' : BitVec 16) (g : Byte) (gs : List Byte), RasterAlone s →
    fs.toNat ∈ [12, 16, 24] →
    let lineWrap : Prop := x.toNat > width - fs.toNat / 2
    let x1 := if lineWrap then 0 else x.toNat
    let y1 := if lineWrap then y.toNat + fs.toNat else y.toNat
    let pageWrap : Prop := y1 > height - fs.toNat
    let x2 := if pageWrap then 0 else x1
    let y2 := if pageWrap then 0 else y1
    ∃ a b t u,
      (if pageWrap then exec .fbClear s = .next a else a = s) ∧
      exec (.drawChar (BitVec.ofNat 8 x2) (BitVec.ofNat 8 y2) fs (g.setWidth 16) false true) a = .next b ∧
      exec (.drawString (BitVec.ofNat 8 (x2 + fs.toNat / 2)) (BitVec.ofNat 8 y2) fs n' gs) b = .next t ∧
      exec (.drawString x y fs n (g :: gs)) s = .next u ∧
      u.fb = t.fb ∧ u.trace = t.trace ∧ u.draws = t.draws ∧ u.ras.rx = t.ras.rx ∧ u.ras.ry = t.ras.ry

/-- R106: no element, or an unknown font size, draws nothing and clears nothing. -/
def Obligations.DrawStringOfNothingDrawsNothing : Prop :=
  ∀ (s : State) (x y fs : Byte) (n : BitVec 16) (gs : List Byte), RasterAlone s →
    (gs = [] ∨ fs.toNat ∉ [12, 16, 24]) →
    ∃ t, exec (.drawString x y fs n gs) s = .next t ∧ t.fb = s.fb ∧ t.trace = s.trace ∧ RasterFrame s t

/-- R53, R247: an EXT write to the same byte between DRAW_POINT's read and its write is lost. -/
def Obligations.ExtWriteBetweenReadAndWriteIsLost : Prop :=
  ∀ (s : State) (x y : Byte) (set : Bool) (a : Nat) (v w : Byte),
    s.dead = false → s.ras.ops = [] → s.mapped = true →
    a = y.toNat / 8 * width + x.toNat → x.toNat < width → y.toNat < height →
    Memory.read s.fb a = some v → s.inp.agenda = [[], [.extWrite a w]] →
    ∃ t, exec (.drawPoint x y set) s = .next t ∧
      (let m : Byte := 1 <<< (7 - y.toNat % 8)
       let u : Byte := if set then v ||| m else v &&& ~~~m
       Memory.read t.fb a = some u ∧
       t.trace = s.trace ++ [.fbRead a v, .fbWrite .ext a w, .fbWrite .ras a u])

/-! ## The other agents -/

/-- R49, R50: EXT writes FB only while MAPPED = 1 and below FBSIZE; otherwise nothing of the block changes. -/
def Obligations.ExtWritesOnlyWhileMapped : Prop :=
  ∀ (s : State) (g : Agent) (k : Nat) (v : Byte) (rest : List (List Act)),
    s.inp.agenda = [.extWrite k v] :: rest →
    (s.mapped = true ∧ k < fbSize → boundary g s = { s with
      fb := Memory.write s.fb k v
      traceRev := .fbWrite .ext k v :: s.traceRev
      inp := { s.inp with agenda := rest } }) ∧
    (s.mapped = false ∨ fbSize ≤ k → boundary g s = { s with inp := { s.inp with agenda := rest } })

/-- R49, R50: while MAPPED = 1, EXT's read below FBSIZE is recorded and returns the byte held, or any byte where
nothing has been written; on the padding it returns any byte and FB and TRACE stay (log 16); otherwise EXT has no
step. `extByte` is where the model puts what EXT read (log 16), `draws` counts free bytes (log 4). -/
def Obligations.ExtReadsOnlyWhileMapped : Prop :=
  ∀ (s : State) (g : Agent) (k : Nat) (rest : List (List Act)), s.inp.agenda = [.extRead k] :: rest →
    (∀ v, s.mapped = true → k < fbSize → Memory.read s.fb k = some v → boundary g s = { s with
      extByte := v
      traceRev := .fbRead k v :: s.traceRev
      inp := { s.inp with agenda := rest } }) ∧
    (s.mapped = true → k < fbSize → Memory.read s.fb k = none → ∃ v n, boundary g s = { s with
      extByte := v
      draws := n
      traceRev := .fbRead k v :: s.traceRev
      inp := { s.inp with agenda := rest } }) ∧
    (s.mapped = true → fbSize ≤ k → k < s.params.mapSize → ∃ v n, boundary g s = { s with
      extByte := v
      draws := n
      inp := { s.inp with agenda := rest } }) ∧
    (s.mapped = false ∨ fbSize ≤ k ∧ s.params.mapSize ≤ k →
      boundary g s = { s with inp := { s.inp with agenda := rest } })

/-- R23: whatever the other agents do at a boundary, a pad the block owns keeps its owner and its drive. -/
def Obligations.OtherAgentsNeverTouchOwnedPads : Prop :=
  ∀ (s : State) (g : Agent) (id : PinId) (d : Drive),
    padOf s id = some ⟨.self, d⟩ → padOf (boundary g s) id = some ⟨.self, d⟩

/-! ## Sessions and rejections -/

/-- R180: SESSION_OPEN takes a free lock for its issuer, and answers ERR_BUSY while the lock is held, by
anyone; nothing else changes. -/
def Obligations.SessionOpenTakesTheLockOrFails : Prop :=
  decode (.command 0x0100000000000000 []) = .ok .sessionOpen ∧
  ∀ s : State, s.dead = false →
    (s.slock = false → ∃ r, exec .sessionOpen s = .next (answered 0x01 0x00 { s with
      slock := true, owner := s.inp.cid, busy := true, answer := r })) ∧
    (s.slock = true → ∃ r, exec .sessionOpen s = .next (answered 0x01 0x03 { s with
      busy := true, answer := r }))

/-- R205: a command that needs a session answers ERR_NO_SESSION with nothing changed unless SLOCK = 1 and
cid = OWNER; with the session, and for the commands that need none, that code is never answered; a raster
operation runs in any case. -/
def Obligations.SessionCheckDecidesNoSession : Prop :=
  (∀ (s : State) (i : Instr), s.dead = false → needsSession i = true →
    (s.slock = false ∨ s.inp.cid ≠ s.owner) →
    ∃ r, exec i s = .next (answered (controlOpcode i) 0x09 { s with busy := true, answer := r })) ∧
  (∀ (s t : State) (i : Instr), i.port = .control →
    (needsSession i = false ∨ s.slock = true ∧ s.inp.cid = s.owner) → exec i s = .next t →
    t.status ≠ 0x09) ∧
  ∀ (s : State) (i : Instr), s.dead = false → i.port = .raster → ∃ t, exec i s = .next t

/-- R138: without all four pads the guarded commands answer ERR_NOT_READY having changed nothing.
(The cleared answer: log 17.) -/
def Obligations.GuardRejectsBeforeTouchingHardware : Prop :=
  ∀ (s : State) (i : Instr), OwnerMayIssue s → isGuarded i = true → s.prs ≠ 0b1111 →
    exec i s = .next (answered (controlOpcode i) 0x04 { s with busy := true, answer := none })

/-- R182: SESSION_CLOSE from a client that holds no session is a no-op that answers OK.
(The cleared answer: log 17.) -/
def Obligations.SessionCloseByOthersIsANoOp : Prop :=
  ∀ s : State, s.dead = false → (s.slock = false ∨ s.inp.cid ≠ s.owner) →
    exec .sessionClose s = .next (answered 0x02 0x00 { s with busy := true, answer := none })

/-- R182, R134: SESSION_CLOSE by the owner powers down, releases, unmaps and unlocks, and keeps the
framebuffer. -/
def Obligations.SessionCloseReleasesEverything : Prop :=
  ∀ s : State, OwnerMayIssue s → Alone s → HeldPins s →
    ∃ t, exec .sessionClose s = .next t ∧ ClosedDown s t 0x02 ∧
      t.fb = s.fb ∧ t.ras = s.ras ∧ t.rbusy = s.rbusy ∧ t.tdreq = s.tdreq ∧ t.dead = s.dead ∧
      t.draws = s.draws

/-- R187: TEARDOWN does the same whoever holds the session, clears the request and ends the block; the
framebuffer is gone and a raster operation in flight is cut off (log 14). -/
def Obligations.TeardownReleasesEverythingAndDies : Prop :=
  ∀ s : State, s.dead = false → Alone s → HeldPins s →
    ∃ t, exec .teardown s = .next t ∧ ClosedDown s t 0x0B ∧ t.dead = true ∧ t.tdreq = false ∧
      t.fb = [] ∧ t.ras.ops = [] ∧ t.rbusy = false

/-- R183: only MAP_SIZE, FBSIZE rounded up to the granule, is accepted; the session is tested first, then the
size, then "already mapped". -/
def Obligations.MapFbChecksSizeThenMapping : Prop :=
  (∀ size : BitVec 32, decode (.command (0x08000000#32 ++ size) []) = .ok (.mapFb size)) ∧
  (∀ p : Config.Params, 0 < p.mapGranule →
    p.mapSize % p.mapGranule = 0 ∧ fbSize ≤ p.mapSize ∧ p.mapSize < fbSize + p.mapGranule) ∧
  (∀ (s : State) (size : BitVec 32), s.dead = false → sessionOk s = false →
    ∃ r, exec (.mapFb size) s = .next (answered 0x08 0x09 { s with
      busy := true, answer := r })) ∧
  ∀ (s : State) (size : BitVec 32), OwnerMayIssue s →
    (size.toNat ≠ s.params.mapSize → ∃ r, exec (.mapFb size) s = .next (answered 0x08 0x07 { s with
      busy := true, answer := r })) ∧
    (size.toNat = s.params.mapSize → s.mapped = true → ∃ r, exec (.mapFb size) s = .next (answered 0x08 0x08 { s with
      busy := true, answer := r })) ∧
    (size.toNat = s.params.mapSize → s.mapped = false → ∃ r, exec (.mapFb size) s = .next (answered 0x08 0x00 { s with
      mapped := true, busy := true, answer := r }))

/-- R184: within FBSIZE the payload lands at off, off+1, ... in ascending order; beyond it the command is rejected
before the first write, the sum not wrapping; without the session it is rejected; nothing else changes. -/
def Obligations.BulkWriteCopiesOrRejects : Prop :=
  (∀ (off len : BitVec 16) (payload : List Byte), payload.length = len.toNat →
    decode (.command (0x09000000#32 ++ off ++ len) payload) = .ok (.bulkWrite off len payload)) ∧
  (∀ (s : State) (off len : BitVec 16) (payload : List Byte), s.dead = false → sessionOk s = false →
    ∃ r, exec (.bulkWrite off len payload) s = .next (answered 0x09 0x09 { s with
      busy := true, answer := r })) ∧
  (∀ (s : State) (off len : BitVec 16) (payload : List Byte), OwnerMayIssue s → s.inp.agenda = [] →
    payload.length = len.toNat → off.toNat + len.toNat ≤ fbSize →
    ∃ m r, exec (.bulkWrite off len payload) s = .next { s with
        fb := m
        traceRev := .resp 0x09 0x00 ::
          ((payload.zipIdx off.toNat).map fun d => Event.fbWrite .seq d.2 d.1).reverse ++ s.traceRev
        status := 0x00, busy := false, answer := r } ∧
      (∀ k, k < len.toNat → Memory.read m (off.toNat + k) = payload[k]?) ∧
      ∀ a, a < off.toNat ∨ off.toNat + len.toNat ≤ a → Memory.read m a = Memory.read s.fb a) ∧
  ∀ (s : State) (off len : BitVec 16) (payload : List Byte), OwnerMayIssue s →
    off.toNat + len.toNat > fbSize →
    ∃ r, exec (.bulkWrite off len payload) s = .next (answered 0x09 0x05 { s with
      busy := true, answer := r })

/-- R185: QUERY_INFO answers (128, 64, 1024), in every lifecycle state and without a session. -/
def Obligations.QueryInfoAnswersTheSizes : Prop :=
  decode (.command 0x0A00000000000000 []) = .ok .queryInfo ∧
  ∀ s : State, s.dead = false → exec .queryInfo s = .next (answered 0x0A 0x00 { s with
    answer := some ⟨128, 64, 1024⟩, busy := true })

/-- R160 (a): CONFIGURE on a configured block is a no-op answering OK; its operands are not looked at.
(The cleared answer: log 17.) -/
def Obligations.ConfigureWhenConfiguredIsANoOp : Prop :=
  ∀ (s : State) (clk dout rst dc : PinId), OwnerMayIssue s → s.cfg = true →
    exec (.configure clk dout rst dc) s = .next (answered 0x03 0x00 { s with busy := true, answer := none })

/-- R140, R160: a missing, invalid or duplicate identifier is rejected before any register or pad is touched.
(The cleared answer: log 17.) -/
def Obligations.ConfigureRejectsInvalidPins : Prop :=
  ∀ (s : State) (clk dout rst dc : PinId), OwnerMayIssue s → s.cfg = false →
    ((∃ id ∈ [clk, dout, rst, dc], id = 0xFF ∨ id ∉ s.params.validPads) ∨ ¬ [clk, dout, rst, dc].Nodup) →
    exec (.configure clk dout rst dc) s = .next (answered 0x03 0x01 { s with busy := true, answer := none })

/-! ## Bring-up and the bus-facing commands -/

/-- R131, R133, R136: an unavailable pad: what was acquired is released in reverse order, nothing is driven, and
the block is as before but for STATUS and TRACE. (The cleared answer: log 17.) -/
def Obligations.ConfigureRollsBackWhenAPadIsTaken : Prop :=
  ∀ (s : State) (clk dout rst dc : PinId), OwnerMayIssue s → Alone s → s.cfg = false → s.prs = 0b0000 →
    s.pinreg = ⟨0xFF, 0xFF, 0xFF, 0xFF⟩ →
    [clk, dout, rst, dc].Nodup → (∀ id ∈ [clk, dout, rst, dc], id ≠ 0xFF ∧ id ∈ s.params.validPads) →
    (∀ id p, padOf s id = some p → p.owner = .free → p.drv = .z) →
    (∃ id ∈ [clk, dout, rst, dc], ∀ p, padOf s id = some p → p.owner ≠ .free) →
    ∃ got lost, exec (.configure clk dout rst dc) s = .next { s with
        status := 0x02
        traceRev := (got.map (fun id => Event.acquire id true) ++ [Event.acquire lost false] ++
          got.reverse.map (fun id => Event.release id) ++ [Event.resp 0x03 0x02]).reverse ++ s.traceRev
        busy := false, answer := none } ∧
      (got ++ [lost]) <+: [clk, dout, rst, dc] ∧
      (∀ id ∈ got, (padOf s id).map Pad.owner = some .free) ∧ (padOf s lost).map Pad.owner ≠ some .free

/-- R160: a successful CONFIGURE, event by event, and the state it leaves. -/
def Obligations.ConfigureBringsTheDisplayUp : Prop :=
  ∀ (s : State) (clk dout rst dc : PinId), OwnerMayIssue s → Alone s → s.cfg = false → s.prs = 0b0000 →
    [clk, dout, rst, dc].Nodup → (∀ id ∈ [clk, dout, rst, dc], id ≠ 0xFF ∧ id ∈ s.params.validPads) →
    (∀ id ∈ [clk, dout, rst, dc], (padOf s id).map Pad.owner = some .free) →
    ∃ t, exec (.configure clk dout rst dc) s = .next t ∧
      (let g : PinGroup := ⟨clk, dout, rst, dc⟩
       t.trace = s.trace ++
        [.acquire clk true, .acquire dout true, .acquire rst true, .acquire dc true,
         .pin .clk clk true, .pin .dout dout true, .pin .rst rst true, .pin .dc dc s.params.dcData,
         .pin .rst rst false] ++ delayEvents s.params.tResetLow ++
        [.pin .rst rst true] ++ delayEvents s.params.tResetHigh ++
        bytesEvents s.params g s.dlyCfg.toNat s.params.initSeq false ++
        fillEvents .seq 0x00 ++ refreshEvents s.params g s.dlyCfg.toNat (fun _ => 0x00) ++
        [.resp 0x03 0x00] ∧
       t.pinreg = g) ∧
      t.prs = 0b1111 ∧ t.cfg = true ∧ t.lc = .initialized ∧ t.status = 0x00 ∧ t.busy = false ∧
      (∀ a, a < fbSize → Memory.read t.fb a = some 0x00) ∧
      (∀ a, fbSize ≤ a → Memory.read t.fb a = Memory.read s.fb a) ∧
      (∀ id ∈ [clk, dout, rst, dc], (padOf t id).map Pad.owner = some .self) ∧
      (∀ id : PinId, id ∉ [clk, dout, rst, dc] → padOf t id = padOf s id) ∧
      line t .clk = .driven true ∧ line t .rst = .driven true ∧ line t .dc = .driven s.params.dcData ∧
      line t .dout = .driven false ∧
      t.slock = s.slock ∧ t.owner = s.owner ∧ t.mapped = s.mapped ∧ t.ras = s.ras ∧ t.rbusy = s.rbusy ∧
      t.tdreq = s.tdreq ∧ t.dead = s.dead ∧ t.dlyCfg = s.dlyCfg ∧ t.params = s.params ∧ t.inp = s.inp ∧
      t.extByte = s.extByte

/-- R133, R136: whatever the other agents do and whichever pin write fails, CONFIGURE on an unconfigured block
ends with all four pads acquired and configured, or with none, unconfigured, LC as it was. -/
def Obligations.ConfigureIsAllOrNothing : Prop :=
  ∀ (s t : State) (clk dout rst dc : PinId),
    s.cfg = false → s.prs = 0b0000 → s.pinreg = ⟨0xFF, 0xFF, 0xFF, 0xFF⟩ →
    (∀ id, (padOf s id).map Pad.owner ≠ some .self) →
    exec (.configure clk dout rst dc) s = .next t →
    (t.status = 0x00 ∧ t.prs = 0b1111 ∧ t.cfg = true ∧ t.pinreg = ⟨clk, dout, rst, dc⟩ ∧
      t.lc = .initialized ∧ (∀ id, (padOf t id).map Pad.owner = some .self ↔ id ∈ [clk, dout, rst, dc])) ∨
    (t.status ≠ 0x00 ∧ t.prs = 0b0000 ∧ t.cfg = false ∧ t.pinreg = ⟨0xFF, 0xFF, 0xFF, 0xFF⟩ ∧
      t.lc = s.lc ∧ ∀ id, (padOf t id).map Pad.owner ≠ some .self)

/-- R161, R162: the three bytes as commands, LC, and nothing else; and whatever the other agents do meanwhile, all
three bytes go out in order (R204, R210). -/
def Obligations.DisplayOnAndOffSendTheirSequences : Prop :=
  (∀ s : State, OwnerMayIssue s → Alone s → OwnsPins s →
    (∃ t, exec .displayOn s = .next t ∧
      t.trace = s.trace ++ bytesEvents s.params s.pinreg s.dlyCfg.toNat s.params.onSeq.toList false ++
        [.resp 0x04 0x00] ∧
      t.lc = .opened ∧ t.status = 0x00 ∧ t.busy = false ∧ t.fb = s.fb ∧ t.draws = s.draws ∧
      t.seqr.pg = s.seqr.pg ∧ t.seqr.col = s.seqr.col ∧
      SentLast s t s.params.onSeq[2] ∧ BusFrame s t) ∧
    (∃ t, exec .displayOff s = .next t ∧
      t.trace = s.trace ++ bytesEvents s.params s.pinreg s.dlyCfg.toNat s.params.offSeq.toList false ++
        [.resp 0x05 0x00] ∧
      t.lc = .closed ∧ t.status = 0x00 ∧ t.busy = false ∧ t.fb = s.fb ∧ t.draws = s.draws ∧
      t.seqr.pg = s.seqr.pg ∧ t.seqr.col = s.seqr.col ∧
      SentLast s t s.params.offSeq[2] ∧ BusFrame s t)) ∧
  ∀ s : State, OwnerMayIssue s → OwnsPins s → s.inp.pinFault = [] →
    (∃ t es, exec .displayOn s = .next t ∧ t.trace = s.trace ++ es ++ [.resp 0x04 0x00] ∧
      Interleaved (bytesEvents s.params s.pinreg s.dlyCfg.toNat s.params.onSeq.toList false) es ∧
      t.lc = .opened ∧ t.dead = false) ∧
    (∃ t es, exec .displayOff s = .next t ∧ t.trace = s.trace ++ es ++ [.resp 0x05 0x00] ∧
      Interleaved (bytesEvents s.params s.pinreg s.dlyCfg.toNat s.params.offSeq.toList false) es ∧
      t.lc = .closed ∧ t.dead = false)

/-- R163: the REFRESH stream event by event: each byte is read immediately before its transmission; LC, CFG, PRS
and FB are unchanged. And R48, R204, R210: whatever EXT, RAS and ENV do meanwhile, a teardown request among it, all
the transactions go out in order, each data byte being what its own read returned, which in a single-copy history
is the byte FB held at that moment. -/
def Obligations.RefreshStreamsThePages : Prop :=
  (∀ s : State, OwnerMayIssue s → Alone s → OwnsPins s →
    ∃ t v, exec .refresh s = .next t ∧
      (∀ a w, a < fbSize → Memory.read s.fb a = some w → v a = w) ∧
      t.trace = s.trace ++ refreshEvents s.params s.pinreg s.dlyCfg.toNat v ++ [.resp 0x06 0x00] ∧
      t.status = 0x00 ∧ t.busy = false ∧ t.lc = s.lc ∧ t.fb = s.fb ∧
      SentLast s t (v (fbSize - 1)) ∧ BusFrame s t) ∧
  ∀ s : State, OwnerMayIssue s → OwnsPins s → s.inp.pinFault = [] →
    ∃ t v es, exec .refresh s = .next t ∧ t.trace = s.trace ++ es ++ [.resp 0x06 0x00] ∧
      Interleaved (refreshEvents s.params s.pinreg s.dlyCfg.toNat v) es ∧
      t.lc = s.lc ∧ t.cfg = s.cfg ∧ t.prs = s.prs ∧ t.dead = false ∧ (SingleCopy s → SingleCopy t)

/-- R164: CLEAR zeroes the framebuffer in ascending order, then sends it; and whatever the other agents do meanwhile,
all its writes and transactions happen, in order (R204, R210). -/
def Obligations.ClearZeroesThenRefreshes : Prop :=
  (∀ s : State, OwnerMayIssue s → Alone s → OwnsPins s →
    ∃ t, exec .clear s = .next t ∧
      t.trace = s.trace ++ fillEvents .seq 0x00 ++
        refreshEvents s.params s.pinreg s.dlyCfg.toNat (fun _ => 0x00) ++ [.resp 0x07 0x00] ∧
      (∀ a, a < fbSize → Memory.read t.fb a = some 0x00) ∧
      (∀ a, fbSize ≤ a → Memory.read t.fb a = Memory.read s.fb a) ∧
      t.status = 0x00 ∧ t.busy = false ∧ t.lc = s.lc ∧ t.draws = s.draws ∧
      SentLast s t 0x00 ∧ BusFrame s t) ∧
  ∀ s : State, OwnerMayIssue s → OwnsPins s → s.inp.pinFault = [] →
    ∃ t v es, exec .clear s = .next t ∧ t.trace = s.trace ++ es ++ [.resp 0x07 0x00] ∧
      Interleaved (fillEvents .seq 0x00 ++ refreshEvents s.params s.pinreg s.dlyCfg.toNat v) es ∧
      t.lc = s.lc ∧ t.dead = false ∧ (SingleCopy s → SingleCopy t)

/-- R163, R166, R88 (e), end to end: a receiver on the four lines recovers from a REFRESH exactly the stream of
(byte, selector) pairs of R166, v being what the command's 1024 reads returned in ascending address order; 24 of
the transactions are commands; with FB written everywhere the data bytes are FB in ascending order. The
receiver is the test aid of 40_serial_phy.md section 7 (general knowledge, not the source's). -/
def Obligations.ReceiverRecoversTheFramebuffer : Prop :=
  ∀ s : State, OwnerMayIssue s → Alone s → OwnsPins s → linesIdle s →
    ∃ t d v, exec .refresh s = .next t ∧ line s .dout = .driven d ∧
      ((t.trace.drop s.trace.length).filter fun e => match e with | .fbRead _ _ => true | _ => false) =
        (List.range fbSize).map (fun a => .fbRead a (v a)) ∧
      (∀ a w, a < fbSize → Memory.read s.fb a = some w → v a = w) ∧
      (let stream := (Rx.run s.params (Rx.idle s.params d) (t.trace.drop s.trace.length)).out
       stream = refreshStream s.params v ∧
       (stream.filter (·.2)).map (·.1) = (List.range fbSize).map v ∧
       (stream.filter (!·.2)).length = 3 * npages)

/-- R90: a failing pin write changes no pad and records nothing, and the command answers ERR_IO at once.
(The cleared answer: log 17.) -/
def Obligations.FailingPinWriteEndsTheCommand : Prop :=
  ∀ (s : State) (rest : List Bool), OwnerMayIssue s → OwnsPins s → s.inp.agenda = [] →
    s.inp.pinFault = true :: rest →
    exec .displayOn s = .next { s with
      status := 0x06, traceRev := .resp 0x04 0x06 :: s.traceRev, busy := false, answer := none
      seqr := { s.seqr with idx := 0 }, inp := { s.inp with pinFault := rest } } ∧
    exec .displayOff s = .next { s with
      status := 0x06, traceRev := .resp 0x05 0x06 :: s.traceRev, busy := false, answer := none
      seqr := { s.seqr with idx := 0 }, inp := { s.inp with pinFault := rest } }

/-! ## Whole-machine rules -/

/-- R30's values (FB holds no value); the reset state meets the invariants below; the parameters the block is
created with meet the constraints of 00_scope.md section 4 and R3. -/
def Obligations.ResetStateIsTheSpecs : Prop :=
  State.reset.params.legal = true ∧
  Inv State.reset ∧ SingleCopy State.reset ∧ DrivesOnlyHeld State.reset ∧
    State.reset.pinreg = ⟨0xFF, 0xFF, 0xFF, 0xFF⟩ ∧ State.reset.prs = 0b0000 ∧ State.reset.cfg = false ∧
    State.reset.lc = .unbound ∧ State.reset.slock = false ∧ State.reset.mapped = false ∧
    State.reset.busy = false ∧ State.reset.rbusy = false ∧ State.reset.tdreq = false ∧
    State.reset.dead = false ∧ State.reset.status = 0x00 ∧ State.reset.trace = [] ∧
    (∀ a, Memory.read State.reset.fb a = none) ∧
    ∀ r, line State.reset r = .z

/-- R11, R15, R19, R23, R27: every step from a state that meets the invariant, with whatever acts of the other
agents, ends in one that meets it. -/
def Obligations.EveryStepKeepsTheInvariant : Prop :=
  ∀ s t : State, Inv s → step s = .next t → Inv t

/-- R47: the framebuffer is a single-copy memory: in every run every read returns the latest write, whoever made
either. -/
def Obligations.EveryReadReturnsTheLatestWrite : Prop :=
  ∀ s t : State, SingleCopy s → step s = .next t → t.dead = false → SingleCopy t

/-- R23, R241: no pad is driven that the block does not hold at that moment. -/
def Obligations.OnlyHeldPadsAreDriven : Prop :=
  ∀ s t : State, Inv s → DrivesOnlyHeld s → step s = .next t → DrivesOnlyHeld t

/-- R28, R29: no step changes a parameter or CR9. -/
def Obligations.ParametersNeverChange : Prop :=
  ∀ s t : State, step s = .next t → t.params = s.params ∧ t.dlyCfg = s.dlyCfg

/-- R24: events are never removed from TRACE. -/
def Obligations.TraceOnlyGrows : Prop :=
  ∀ s t : State, step s = .next t → s.trace <+: t.trace

/-- R139: LC moves only as its table says, from one quiescent state to the next. -/
def Obligations.LifecycleMovesByItsTable : Prop :=
  ∀ s t : State, Inv s → step s = .next t → lifecycleMove s.lc t.lc = true

/-- R202: a control command answers only codes of its own row. -/
def Obligations.CommandsAnswerOnlyTheirCodes : Prop :=
  ∀ (i : Instr) (s t : State), i.port = .control → exec i s = .next t →
    ∃ c ∈ answerable i, t.status = c.byte

/-- R24, R69, R203: every control command ends in exactly one response, its last event, carrying STATUS. -/
def Obligations.EveryControlCommandResponds : Prop :=
  ∀ (i : Instr) (s t : State), i.port = .control → exec i s = .next t →
    t.busy = false ∧ ∃ es, t.trace = s.trace ++ es ++ [.resp (controlOpcode i) t.status] ∧
      ∀ e ∈ es, ∀ op code, e ≠ .resp op code

/-- R203, R207, R141: a control command that answers an error leaves the state as it was before it, but for
STATUS and TRACE; no pin is driven and no framebuffer byte written on the way. (PIN_FAULT = never by Inv, so the
error is not ERR_IO; the last answer's numbers are cleared, log 17.) -/
def Obligations.RejectedCommandsChangeNothing : Prop :=
  ∀ (i : Instr) (s t : State), i.port = .control → Inv s → s.inp.agenda = [] → exec i s = .next t →
    t.status ≠ 0x00 →
    ∃ es, t = { s with status := t.status, traceRev := es ++ s.traceRev, answer := none } ∧
      ∀ e ∈ es, (∃ id ok, e = .acquire id ok) ∨ (∃ id, e = .release id) ∨ ∃ op code, e = .resp op code

/-- R256: no result depends on timing: with another DLY every instruction ends in the same state but for DLY
itself and the Wait events of TRACE. -/
def Obligations.NoResultDependsOnTheDelay : Prop :=
  ∀ (i : Instr) (s t : State) (d : BitVec 32), s.inp.agenda = [] → exec i s = .next t →
    ∃ u, exec i { s with dlyCfg := d } = .next u ∧ timeless u = timeless t
end

