-- ==== Sys2Proof/Laws/Memory.lean ====
section
/-! SUPPORT. The laws of the framebuffer: read after write, the canonical form, and that equal contents are
equal data. -/

namespace Sys2Proof.Machine

theorem Memory.read_write_same (m : Memory) (a : Nat) (v : Byte) : read (write m a v) a = some v := by
  induction m with
  | nil => simp [write, read]
  | cons c m ih =>
    obtain ⟨k, w⟩ := c
    simp only [write]
    split
    · simp [read]
    · split
      · simp [read]
      · rename_i h1 h2
        simp only [read]
        rw [if_neg (fun h => h2 h.symm), ih]

theorem Memory.read_write_other (m : Memory) {a b : Nat} (v : Byte) (h : b ≠ a) :
    read (write m a v) b = read m b := by
  induction m with
  | nil => simp [write, read, h.symm]
  | cons c m ih =>
    obtain ⟨k, w⟩ := c
    simp only [write]
    split
    · simp [read, h.symm]
    · split
      · rename_i h1 h2
        subst h2
        simp [read, h.symm]
      · simp only [read, ih]

/-- Reading one byte after one write. -/
theorem Memory.read_write (m : Memory) (a b : Nat) (v : Byte) :
    read (write m a v) b = if b = a then some v else read m b := by
  split
  · rename_i h; subst h; exact read_write_same m b v
  · rename_i h; exact read_write_other m v h

/-- Every listed address after a write was listed before or is the written one. -/
theorem Memory.mem_write {m : Memory} {a : Nat} {v : Byte} {c : Host.Cell} (h : c ∈ write m a v) :
    c = (a, v) ∨ c ∈ m := by
  induction m with
  | nil => simpa [write] using h
  | cons d m ih =>
    obtain ⟨k, w⟩ := d
    simp only [write] at h
    split at h
    · simpa using h
    · split at h
      · simp only [List.mem_cons] at h ⊢
        tauto
      · simp only [List.mem_cons] at h ⊢
        rcases h with h | h
        · exact Or.inr (Or.inl h)
        · rcases ih h with h | h <;> tauto

theorem Memory.wf_nil : wf [] := ⟨List.Pairwise.nil, by simp⟩

/-- A write inside the framebuffer keeps the canonical form. -/
theorem Memory.wf_write {m : Memory} {a : Nat} (v : Byte) (hm : wf m) (ha : a < Config.fbSize) :
    wf (write m a v) := by
  refine ⟨?_, fun c hc => ?_⟩
  · induction m with
    | nil => simp [write]
    | cons d m ih =>
      obtain ⟨k, w⟩ := d
      have hp := hm.1
      rw [List.pairwise_cons] at hp
      simp only [write]
      split
      · rename_i hlt
        rw [List.pairwise_cons]
        refine ⟨fun c hc => ?_, hm.1⟩
        rcases List.mem_cons.1 hc with rfl | hc
        · exact hlt
        · exact lt_trans hlt (hp.1 c hc)
      · split
        · rename_i _ heq
          rw [List.pairwise_cons]
          exact ⟨fun c hc => heq ▸ hp.1 c hc, hp.2⟩
        · rename_i h1 h2
          rw [List.pairwise_cons]
          refine ⟨fun c hc => ?_, ih ⟨hp.2, fun c hc => hm.2 c (List.mem_cons_of_mem _ hc)⟩⟩
          rcases mem_write hc with rfl | hc
          · show k < a
            omega
          · exact hp.1 c hc
  · rcases mem_write hc with rfl | hc
    · exact ha
    · exact hm.2 c hc

/-- An address below every listed one holds no value. -/
theorem Memory.read_below {m : Memory} {a : Nat} (h : ∀ c ∈ m, a < c.1) : read m a = none := by
  induction m with
  | nil => rfl
  | cons d m ih =>
    obtain ⟨k, w⟩ := d
    have hk : k ≠ a := by have := h (k, w) (by simp); simp only at this; omega
    simp only [read, if_neg hk]
    exact ih fun c hc => h c (List.mem_cons_of_mem _ hc)

/-- Equal contents in canonical form are equal data. -/
theorem Memory.ext_of_wf {m n : Memory} (hm : wf m) (hn : wf n) (h : ∀ a, read m a = read n a) : m = n := by
  induction m generalizing n with
  | nil =>
    cases n with
    | nil => rfl
    | cons d n => obtain ⟨k, w⟩ := d; have := h k; simp [read] at this
  | cons c m ih =>
    obtain ⟨k, v⟩ := c
    have hmp := List.pairwise_cons.1 hm.1
    cases n with
    | nil => have := h k; simp [read] at this
    | cons d n =>
      obtain ⟨l, w⟩ := d
      have hnp := List.pairwise_cons.1 hn.1
      have hkl : k = l := by
        rcases Nat.lt_trichotomy k l with hlt | heq | hlt
        · have hr := h k
          have hz : read ((l, w) :: n) k = none := read_below fun c hc => by
            rcases List.mem_cons.1 hc with rfl | hc
            · exact hlt
            · exact lt_trans hlt (hnp.1 c hc)
          rw [hz] at hr
          simp [read] at hr
        · exact heq
        · have hr := h l
          have hz : read ((k, v) :: m) l = none := read_below fun c hc => by
            rcases List.mem_cons.1 hc with rfl | hc
            · exact hlt
            · exact lt_trans hlt (hmp.1 c hc)
          rw [hz] at hr
          simp [read] at hr
      subst hkl
      have hv : v = w := by have := h k; simpa [read] using this
      subst hv
      congr 1
      refine ih ⟨hmp.2, fun c hc => hm.2 c (List.mem_cons_of_mem _ hc)⟩
        ⟨hnp.2, fun c hc => hn.2 c (List.mem_cons_of_mem _ hc)⟩ fun a => ?_
      by_cases ha : k = a
      · subst ha
        rw [read_below fun c hc => hmp.1 c hc, read_below fun c hc => hnp.1 c hc]
      · have := h a
        simpa [read, ha] using this

end Sys2Proof.Machine
end

