-- ==== Sys2Proof/Laws/State.lean ====
section
/-! SUPPORT. What each named update of the state does to each field: one lemma per field per update, true by
rfl, so that no later proof unfolds a record update. -/

namespace Sys2Proof.Machine

/-! ## emit -/

@[simp] theorem emit_pinreg (e : Event) (s : State) : (emit e s).pinreg = s.pinreg := rfl
@[simp] theorem emit_prs (e : Event) (s : State) : (emit e s).prs = s.prs := rfl
@[simp] theorem emit_cfg (e : Event) (s : State) : (emit e s).cfg = s.cfg := rfl
@[simp] theorem emit_lc (e : Event) (s : State) : (emit e s).lc = s.lc := rfl
@[simp] theorem emit_fb (e : Event) (s : State) : (emit e s).fb = s.fb := rfl
@[simp] theorem emit_slock (e : Event) (s : State) : (emit e s).slock = s.slock := rfl
@[simp] theorem emit_owner (e : Event) (s : State) : (emit e s).owner = s.owner := rfl
@[simp] theorem emit_mapped (e : Event) (s : State) : (emit e s).mapped = s.mapped := rfl
@[simp] theorem emit_busy (e : Event) (s : State) : (emit e s).busy = s.busy := rfl
@[simp] theorem emit_rbusy (e : Event) (s : State) : (emit e s).rbusy = s.rbusy := rfl
@[simp] theorem emit_status (e : Event) (s : State) : (emit e s).status = s.status := rfl
@[simp] theorem emit_seqr (e : Event) (s : State) : (emit e s).seqr = s.seqr := rfl
@[simp] theorem emit_ras (e : Event) (s : State) : (emit e s).ras = s.ras := rfl
@[simp] theorem emit_pads (e : Event) (s : State) : (emit e s).pads = s.pads := rfl
@[simp] theorem emit_traceRev (e : Event) (s : State) : (emit e s).traceRev = e :: s.traceRev := rfl
@[simp] theorem emit_tdreq (e : Event) (s : State) : (emit e s).tdreq = s.tdreq := rfl
@[simp] theorem emit_dead (e : Event) (s : State) : (emit e s).dead = s.dead := rfl
@[simp] theorem emit_dlyCfg (e : Event) (s : State) : (emit e s).dlyCfg = s.dlyCfg := rfl
@[simp] theorem emit_params (e : Event) (s : State) : (emit e s).params = s.params := rfl
@[simp] theorem emit_inp (e : Event) (s : State) : (emit e s).inp = s.inp := rfl
@[simp] theorem emit_answer (e : Event) (s : State) : (emit e s).answer = s.answer := rfl
@[simp] theorem emit_extByte (e : Event) (s : State) : (emit e s).extByte = s.extByte := rfl
@[simp] theorem emit_draws (e : Event) (s : State) : (emit e s).draws = s.draws := rfl

/-! ## setPad -/

@[simp] theorem setPad_pinreg (id : PinId) (p : Pad) (s : State) : (setPad id p s).pinreg = s.pinreg := rfl
@[simp] theorem setPad_prs (id : PinId) (p : Pad) (s : State) : (setPad id p s).prs = s.prs := rfl
@[simp] theorem setPad_cfg (id : PinId) (p : Pad) (s : State) : (setPad id p s).cfg = s.cfg := rfl
@[simp] theorem setPad_lc (id : PinId) (p : Pad) (s : State) : (setPad id p s).lc = s.lc := rfl
@[simp] theorem setPad_fb (id : PinId) (p : Pad) (s : State) : (setPad id p s).fb = s.fb := rfl
@[simp] theorem setPad_slock (id : PinId) (p : Pad) (s : State) : (setPad id p s).slock = s.slock := rfl
@[simp] theorem setPad_owner (id : PinId) (p : Pad) (s : State) : (setPad id p s).owner = s.owner := rfl
@[simp] theorem setPad_mapped (id : PinId) (p : Pad) (s : State) : (setPad id p s).mapped = s.mapped := rfl
@[simp] theorem setPad_busy (id : PinId) (p : Pad) (s : State) : (setPad id p s).busy = s.busy := rfl
@[simp] theorem setPad_rbusy (id : PinId) (p : Pad) (s : State) : (setPad id p s).rbusy = s.rbusy := rfl
@[simp] theorem setPad_status (id : PinId) (p : Pad) (s : State) : (setPad id p s).status = s.status := rfl
@[simp] theorem setPad_seqr (id : PinId) (p : Pad) (s : State) : (setPad id p s).seqr = s.seqr := rfl
@[simp] theorem setPad_ras (id : PinId) (p : Pad) (s : State) : (setPad id p s).ras = s.ras := rfl
@[simp] theorem setPad_pads (id : PinId) (p : Pad) (s : State) : (setPad id p s).pads = s.pads.setIfInBounds id.toNat p := rfl
@[simp] theorem setPad_traceRev (id : PinId) (p : Pad) (s : State) : (setPad id p s).traceRev = s.traceRev := rfl
@[simp] theorem setPad_tdreq (id : PinId) (p : Pad) (s : State) : (setPad id p s).tdreq = s.tdreq := rfl
@[simp] theorem setPad_dead (id : PinId) (p : Pad) (s : State) : (setPad id p s).dead = s.dead := rfl
@[simp] theorem setPad_dlyCfg (id : PinId) (p : Pad) (s : State) : (setPad id p s).dlyCfg = s.dlyCfg := rfl
@[simp] theorem setPad_params (id : PinId) (p : Pad) (s : State) : (setPad id p s).params = s.params := rfl
@[simp] theorem setPad_inp (id : PinId) (p : Pad) (s : State) : (setPad id p s).inp = s.inp := rfl
@[simp] theorem setPad_answer (id : PinId) (p : Pad) (s : State) : (setPad id p s).answer = s.answer := rfl
@[simp] theorem setPad_extByte (id : PinId) (p : Pad) (s : State) : (setPad id p s).extByte = s.extByte := rfl
@[simp] theorem setPad_draws (id : PinId) (p : Pad) (s : State) : (setPad id p s).draws = s.draws := rfl

/-! ## memWrite -/

@[simp] theorem memWrite_pinreg (g : Agent) (a : Nat) (v : Byte) (s : State) : (memWrite g a v s).pinreg = s.pinreg := rfl
@[simp] theorem memWrite_prs (g : Agent) (a : Nat) (v : Byte) (s : State) : (memWrite g a v s).prs = s.prs := rfl
@[simp] theorem memWrite_cfg (g : Agent) (a : Nat) (v : Byte) (s : State) : (memWrite g a v s).cfg = s.cfg := rfl
@[simp] theorem memWrite_lc (g : Agent) (a : Nat) (v : Byte) (s : State) : (memWrite g a v s).lc = s.lc := rfl
@[simp] theorem memWrite_fb (g : Agent) (a : Nat) (v : Byte) (s : State) : (memWrite g a v s).fb = Memory.write s.fb a v := rfl
@[simp] theorem memWrite_slock (g : Agent) (a : Nat) (v : Byte) (s : State) : (memWrite g a v s).slock = s.slock := rfl
@[simp] theorem memWrite_owner (g : Agent) (a : Nat) (v : Byte) (s : State) : (memWrite g a v s).owner = s.owner := rfl
@[simp] theorem memWrite_mapped (g : Agent) (a : Nat) (v : Byte) (s : State) : (memWrite g a v s).mapped = s.mapped := rfl
@[simp] theorem memWrite_busy (g : Agent) (a : Nat) (v : Byte) (s : State) : (memWrite g a v s).busy = s.busy := rfl
@[simp] theorem memWrite_rbusy (g : Agent) (a : Nat) (v : Byte) (s : State) : (memWrite g a v s).rbusy = s.rbusy := rfl
@[simp] theorem memWrite_status (g : Agent) (a : Nat) (v : Byte) (s : State) : (memWrite g a v s).status = s.status := rfl
@[simp] theorem memWrite_seqr (g : Agent) (a : Nat) (v : Byte) (s : State) : (memWrite g a v s).seqr = s.seqr := rfl
@[simp] theorem memWrite_ras (g : Agent) (a : Nat) (v : Byte) (s : State) : (memWrite g a v s).ras = s.ras := rfl
@[simp] theorem memWrite_pads (g : Agent) (a : Nat) (v : Byte) (s : State) : (memWrite g a v s).pads = s.pads := rfl
@[simp] theorem memWrite_traceRev (g : Agent) (a : Nat) (v : Byte) (s : State) : (memWrite g a v s).traceRev = .fbWrite g a v :: s.traceRev := rfl
@[simp] theorem memWrite_tdreq (g : Agent) (a : Nat) (v : Byte) (s : State) : (memWrite g a v s).tdreq = s.tdreq := rfl
@[simp] theorem memWrite_dead (g : Agent) (a : Nat) (v : Byte) (s : State) : (memWrite g a v s).dead = s.dead := rfl
@[simp] theorem memWrite_dlyCfg (g : Agent) (a : Nat) (v : Byte) (s : State) : (memWrite g a v s).dlyCfg = s.dlyCfg := rfl
@[simp] theorem memWrite_params (g : Agent) (a : Nat) (v : Byte) (s : State) : (memWrite g a v s).params = s.params := rfl
@[simp] theorem memWrite_inp (g : Agent) (a : Nat) (v : Byte) (s : State) : (memWrite g a v s).inp = s.inp := rfl
@[simp] theorem memWrite_answer (g : Agent) (a : Nat) (v : Byte) (s : State) : (memWrite g a v s).answer = s.answer := rfl
@[simp] theorem memWrite_extByte (g : Agent) (a : Nat) (v : Byte) (s : State) : (memWrite g a v s).extByte = s.extByte := rfl
@[simp] theorem memWrite_draws (g : Agent) (a : Nat) (v : Byte) (s : State) : (memWrite g a v s).draws = s.draws := rfl

/-! ## loadSr -/

@[simp] theorem loadSr_pinreg (b : Byte) (s : State) : (loadSr b s).pinreg = s.pinreg := rfl
@[simp] theorem loadSr_prs (b : Byte) (s : State) : (loadSr b s).prs = s.prs := rfl
@[simp] theorem loadSr_cfg (b : Byte) (s : State) : (loadSr b s).cfg = s.cfg := rfl
@[simp] theorem loadSr_lc (b : Byte) (s : State) : (loadSr b s).lc = s.lc := rfl
@[simp] theorem loadSr_fb (b : Byte) (s : State) : (loadSr b s).fb = s.fb := rfl
@[simp] theorem loadSr_slock (b : Byte) (s : State) : (loadSr b s).slock = s.slock := rfl
@[simp] theorem loadSr_owner (b : Byte) (s : State) : (loadSr b s).owner = s.owner := rfl
@[simp] theorem loadSr_mapped (b : Byte) (s : State) : (loadSr b s).mapped = s.mapped := rfl
@[simp] theorem loadSr_busy (b : Byte) (s : State) : (loadSr b s).busy = s.busy := rfl
@[simp] theorem loadSr_rbusy (b : Byte) (s : State) : (loadSr b s).rbusy = s.rbusy := rfl
@[simp] theorem loadSr_status (b : Byte) (s : State) : (loadSr b s).status = s.status := rfl
@[simp] theorem loadSr_seqr (b : Byte) (s : State) : (loadSr b s).seqr = { s.seqr with sr := b } := rfl
@[simp] theorem loadSr_ras (b : Byte) (s : State) : (loadSr b s).ras = s.ras := rfl
@[simp] theorem loadSr_pads (b : Byte) (s : State) : (loadSr b s).pads = s.pads := rfl
@[simp] theorem loadSr_traceRev (b : Byte) (s : State) : (loadSr b s).traceRev = s.traceRev := rfl
@[simp] theorem loadSr_tdreq (b : Byte) (s : State) : (loadSr b s).tdreq = s.tdreq := rfl
@[simp] theorem loadSr_dead (b : Byte) (s : State) : (loadSr b s).dead = s.dead := rfl
@[simp] theorem loadSr_dlyCfg (b : Byte) (s : State) : (loadSr b s).dlyCfg = s.dlyCfg := rfl
@[simp] theorem loadSr_params (b : Byte) (s : State) : (loadSr b s).params = s.params := rfl
@[simp] theorem loadSr_inp (b : Byte) (s : State) : (loadSr b s).inp = s.inp := rfl
@[simp] theorem loadSr_answer (b : Byte) (s : State) : (loadSr b s).answer = s.answer := rfl
@[simp] theorem loadSr_extByte (b : Byte) (s : State) : (loadSr b s).extByte = s.extByte := rfl
@[simp] theorem loadSr_draws (b : Byte) (s : State) : (loadSr b s).draws = s.draws := rfl

/-! ## setBitcnt -/

@[simp] theorem setBitcnt_pinreg (i : Nat) (s : State) : (setBitcnt i s).pinreg = s.pinreg := rfl
@[simp] theorem setBitcnt_prs (i : Nat) (s : State) : (setBitcnt i s).prs = s.prs := rfl
@[simp] theorem setBitcnt_cfg (i : Nat) (s : State) : (setBitcnt i s).cfg = s.cfg := rfl
@[simp] theorem setBitcnt_lc (i : Nat) (s : State) : (setBitcnt i s).lc = s.lc := rfl
@[simp] theorem setBitcnt_fb (i : Nat) (s : State) : (setBitcnt i s).fb = s.fb := rfl
@[simp] theorem setBitcnt_slock (i : Nat) (s : State) : (setBitcnt i s).slock = s.slock := rfl
@[simp] theorem setBitcnt_owner (i : Nat) (s : State) : (setBitcnt i s).owner = s.owner := rfl
@[simp] theorem setBitcnt_mapped (i : Nat) (s : State) : (setBitcnt i s).mapped = s.mapped := rfl
@[simp] theorem setBitcnt_busy (i : Nat) (s : State) : (setBitcnt i s).busy = s.busy := rfl
@[simp] theorem setBitcnt_rbusy (i : Nat) (s : State) : (setBitcnt i s).rbusy = s.rbusy := rfl
@[simp] theorem setBitcnt_status (i : Nat) (s : State) : (setBitcnt i s).status = s.status := rfl
@[simp] theorem setBitcnt_seqr (i : Nat) (s : State) : (setBitcnt i s).seqr = { s.seqr with bitcnt := BitVec.ofNat 3 i } := rfl
@[simp] theorem setBitcnt_ras (i : Nat) (s : State) : (setBitcnt i s).ras = s.ras := rfl
@[simp] theorem setBitcnt_pads (i : Nat) (s : State) : (setBitcnt i s).pads = s.pads := rfl
@[simp] theorem setBitcnt_traceRev (i : Nat) (s : State) : (setBitcnt i s).traceRev = s.traceRev := rfl
@[simp] theorem setBitcnt_tdreq (i : Nat) (s : State) : (setBitcnt i s).tdreq = s.tdreq := rfl
@[simp] theorem setBitcnt_dead (i : Nat) (s : State) : (setBitcnt i s).dead = s.dead := rfl
@[simp] theorem setBitcnt_dlyCfg (i : Nat) (s : State) : (setBitcnt i s).dlyCfg = s.dlyCfg := rfl
@[simp] theorem setBitcnt_params (i : Nat) (s : State) : (setBitcnt i s).params = s.params := rfl
@[simp] theorem setBitcnt_inp (i : Nat) (s : State) : (setBitcnt i s).inp = s.inp := rfl
@[simp] theorem setBitcnt_answer (i : Nat) (s : State) : (setBitcnt i s).answer = s.answer := rfl
@[simp] theorem setBitcnt_extByte (i : Nat) (s : State) : (setBitcnt i s).extByte = s.extByte := rfl
@[simp] theorem setBitcnt_draws (i : Nat) (s : State) : (setBitcnt i s).draws = s.draws := rfl

/-! ## shiftSr -/

@[simp] theorem shiftSr_pinreg (s : State) : (shiftSr s).pinreg = s.pinreg := rfl
@[simp] theorem shiftSr_prs (s : State) : (shiftSr s).prs = s.prs := rfl
@[simp] theorem shiftSr_cfg (s : State) : (shiftSr s).cfg = s.cfg := rfl
@[simp] theorem shiftSr_lc (s : State) : (shiftSr s).lc = s.lc := rfl
@[simp] theorem shiftSr_fb (s : State) : (shiftSr s).fb = s.fb := rfl
@[simp] theorem shiftSr_slock (s : State) : (shiftSr s).slock = s.slock := rfl
@[simp] theorem shiftSr_owner (s : State) : (shiftSr s).owner = s.owner := rfl
@[simp] theorem shiftSr_mapped (s : State) : (shiftSr s).mapped = s.mapped := rfl
@[simp] theorem shiftSr_busy (s : State) : (shiftSr s).busy = s.busy := rfl
@[simp] theorem shiftSr_rbusy (s : State) : (shiftSr s).rbusy = s.rbusy := rfl
@[simp] theorem shiftSr_status (s : State) : (shiftSr s).status = s.status := rfl
@[simp] theorem shiftSr_seqr (s : State) : (shiftSr s).seqr = { s.seqr with sr := s.seqr.sr <<< 1 } := rfl
@[simp] theorem shiftSr_ras (s : State) : (shiftSr s).ras = s.ras := rfl
@[simp] theorem shiftSr_pads (s : State) : (shiftSr s).pads = s.pads := rfl
@[simp] theorem shiftSr_traceRev (s : State) : (shiftSr s).traceRev = s.traceRev := rfl
@[simp] theorem shiftSr_tdreq (s : State) : (shiftSr s).tdreq = s.tdreq := rfl
@[simp] theorem shiftSr_dead (s : State) : (shiftSr s).dead = s.dead := rfl
@[simp] theorem shiftSr_dlyCfg (s : State) : (shiftSr s).dlyCfg = s.dlyCfg := rfl
@[simp] theorem shiftSr_params (s : State) : (shiftSr s).params = s.params := rfl
@[simp] theorem shiftSr_inp (s : State) : (shiftSr s).inp = s.inp := rfl
@[simp] theorem shiftSr_answer (s : State) : (shiftSr s).answer = s.answer := rfl
@[simp] theorem shiftSr_extByte (s : State) : (shiftSr s).extByte = s.extByte := rfl
@[simp] theorem shiftSr_draws (s : State) : (shiftSr s).draws = s.draws := rfl

/-! ## setIdx -/

@[simp] theorem setIdx_pinreg (k : Nat) (s : State) : (setIdx k s).pinreg = s.pinreg := rfl
@[simp] theorem setIdx_prs (k : Nat) (s : State) : (setIdx k s).prs = s.prs := rfl
@[simp] theorem setIdx_cfg (k : Nat) (s : State) : (setIdx k s).cfg = s.cfg := rfl
@[simp] theorem setIdx_lc (k : Nat) (s : State) : (setIdx k s).lc = s.lc := rfl
@[simp] theorem setIdx_fb (k : Nat) (s : State) : (setIdx k s).fb = s.fb := rfl
@[simp] theorem setIdx_slock (k : Nat) (s : State) : (setIdx k s).slock = s.slock := rfl
@[simp] theorem setIdx_owner (k : Nat) (s : State) : (setIdx k s).owner = s.owner := rfl
@[simp] theorem setIdx_mapped (k : Nat) (s : State) : (setIdx k s).mapped = s.mapped := rfl
@[simp] theorem setIdx_busy (k : Nat) (s : State) : (setIdx k s).busy = s.busy := rfl
@[simp] theorem setIdx_rbusy (k : Nat) (s : State) : (setIdx k s).rbusy = s.rbusy := rfl
@[simp] theorem setIdx_status (k : Nat) (s : State) : (setIdx k s).status = s.status := rfl
@[simp] theorem setIdx_seqr (k : Nat) (s : State) : (setIdx k s).seqr = { s.seqr with idx := BitVec.ofNat 8 k } := rfl
@[simp] theorem setIdx_ras (k : Nat) (s : State) : (setIdx k s).ras = s.ras := rfl
@[simp] theorem setIdx_pads (k : Nat) (s : State) : (setIdx k s).pads = s.pads := rfl
@[simp] theorem setIdx_traceRev (k : Nat) (s : State) : (setIdx k s).traceRev = s.traceRev := rfl
@[simp] theorem setIdx_tdreq (k : Nat) (s : State) : (setIdx k s).tdreq = s.tdreq := rfl
@[simp] theorem setIdx_dead (k : Nat) (s : State) : (setIdx k s).dead = s.dead := rfl
@[simp] theorem setIdx_dlyCfg (k : Nat) (s : State) : (setIdx k s).dlyCfg = s.dlyCfg := rfl
@[simp] theorem setIdx_params (k : Nat) (s : State) : (setIdx k s).params = s.params := rfl
@[simp] theorem setIdx_inp (k : Nat) (s : State) : (setIdx k s).inp = s.inp := rfl
@[simp] theorem setIdx_answer (k : Nat) (s : State) : (setIdx k s).answer = s.answer := rfl
@[simp] theorem setIdx_extByte (k : Nat) (s : State) : (setIdx k s).extByte = s.extByte := rfl
@[simp] theorem setIdx_draws (k : Nat) (s : State) : (setIdx k s).draws = s.draws := rfl

/-! ## setPg -/

@[simp] theorem setPg_pinreg (k : Nat) (s : State) : (setPg k s).pinreg = s.pinreg := rfl
@[simp] theorem setPg_prs (k : Nat) (s : State) : (setPg k s).prs = s.prs := rfl
@[simp] theorem setPg_cfg (k : Nat) (s : State) : (setPg k s).cfg = s.cfg := rfl
@[simp] theorem setPg_lc (k : Nat) (s : State) : (setPg k s).lc = s.lc := rfl
@[simp] theorem setPg_fb (k : Nat) (s : State) : (setPg k s).fb = s.fb := rfl
@[simp] theorem setPg_slock (k : Nat) (s : State) : (setPg k s).slock = s.slock := rfl
@[simp] theorem setPg_owner (k : Nat) (s : State) : (setPg k s).owner = s.owner := rfl
@[simp] theorem setPg_mapped (k : Nat) (s : State) : (setPg k s).mapped = s.mapped := rfl
@[simp] theorem setPg_busy (k : Nat) (s : State) : (setPg k s).busy = s.busy := rfl
@[simp] theorem setPg_rbusy (k : Nat) (s : State) : (setPg k s).rbusy = s.rbusy := rfl
@[simp] theorem setPg_status (k : Nat) (s : State) : (setPg k s).status = s.status := rfl
@[simp] theorem setPg_seqr (k : Nat) (s : State) : (setPg k s).seqr = { s.seqr with pg := BitVec.ofNat 3 k } := rfl
@[simp] theorem setPg_ras (k : Nat) (s : State) : (setPg k s).ras = s.ras := rfl
@[simp] theorem setPg_pads (k : Nat) (s : State) : (setPg k s).pads = s.pads := rfl
@[simp] theorem setPg_traceRev (k : Nat) (s : State) : (setPg k s).traceRev = s.traceRev := rfl
@[simp] theorem setPg_tdreq (k : Nat) (s : State) : (setPg k s).tdreq = s.tdreq := rfl
@[simp] theorem setPg_dead (k : Nat) (s : State) : (setPg k s).dead = s.dead := rfl
@[simp] theorem setPg_dlyCfg (k : Nat) (s : State) : (setPg k s).dlyCfg = s.dlyCfg := rfl
@[simp] theorem setPg_params (k : Nat) (s : State) : (setPg k s).params = s.params := rfl
@[simp] theorem setPg_inp (k : Nat) (s : State) : (setPg k s).inp = s.inp := rfl
@[simp] theorem setPg_answer (k : Nat) (s : State) : (setPg k s).answer = s.answer := rfl
@[simp] theorem setPg_extByte (k : Nat) (s : State) : (setPg k s).extByte = s.extByte := rfl
@[simp] theorem setPg_draws (k : Nat) (s : State) : (setPg k s).draws = s.draws := rfl

/-! ## setCol -/

@[simp] theorem setCol_pinreg (k : Nat) (s : State) : (setCol k s).pinreg = s.pinreg := rfl
@[simp] theorem setCol_prs (k : Nat) (s : State) : (setCol k s).prs = s.prs := rfl
@[simp] theorem setCol_cfg (k : Nat) (s : State) : (setCol k s).cfg = s.cfg := rfl
@[simp] theorem setCol_lc (k : Nat) (s : State) : (setCol k s).lc = s.lc := rfl
@[simp] theorem setCol_fb (k : Nat) (s : State) : (setCol k s).fb = s.fb := rfl
@[simp] theorem setCol_slock (k : Nat) (s : State) : (setCol k s).slock = s.slock := rfl
@[simp] theorem setCol_owner (k : Nat) (s : State) : (setCol k s).owner = s.owner := rfl
@[simp] theorem setCol_mapped (k : Nat) (s : State) : (setCol k s).mapped = s.mapped := rfl
@[simp] theorem setCol_busy (k : Nat) (s : State) : (setCol k s).busy = s.busy := rfl
@[simp] theorem setCol_rbusy (k : Nat) (s : State) : (setCol k s).rbusy = s.rbusy := rfl
@[simp] theorem setCol_status (k : Nat) (s : State) : (setCol k s).status = s.status := rfl
@[simp] theorem setCol_seqr (k : Nat) (s : State) : (setCol k s).seqr = { s.seqr with col := BitVec.ofNat 7 k } := rfl
@[simp] theorem setCol_ras (k : Nat) (s : State) : (setCol k s).ras = s.ras := rfl
@[simp] theorem setCol_pads (k : Nat) (s : State) : (setCol k s).pads = s.pads := rfl
@[simp] theorem setCol_traceRev (k : Nat) (s : State) : (setCol k s).traceRev = s.traceRev := rfl
@[simp] theorem setCol_tdreq (k : Nat) (s : State) : (setCol k s).tdreq = s.tdreq := rfl
@[simp] theorem setCol_dead (k : Nat) (s : State) : (setCol k s).dead = s.dead := rfl
@[simp] theorem setCol_dlyCfg (k : Nat) (s : State) : (setCol k s).dlyCfg = s.dlyCfg := rfl
@[simp] theorem setCol_params (k : Nat) (s : State) : (setCol k s).params = s.params := rfl
@[simp] theorem setCol_inp (k : Nat) (s : State) : (setCol k s).inp = s.inp := rfl
@[simp] theorem setCol_answer (k : Nat) (s : State) : (setCol k s).answer = s.answer := rfl
@[simp] theorem setCol_extByte (k : Nat) (s : State) : (setCol k s).extByte = s.extByte := rfl
@[simp] theorem setCol_draws (k : Nat) (s : State) : (setCol k s).draws = s.draws := rfl

/-! ## setPrs -/

@[simp] theorem setPrs_pinreg (r : Role) (s : State) : (setPrs r s).pinreg = s.pinreg := rfl
@[simp] theorem setPrs_prs (r : Role) (s : State) : (setPrs r s).prs = prsSet s.prs r := rfl
@[simp] theorem setPrs_cfg (r : Role) (s : State) : (setPrs r s).cfg = s.cfg := rfl
@[simp] theorem setPrs_lc (r : Role) (s : State) : (setPrs r s).lc = s.lc := rfl
@[simp] theorem setPrs_fb (r : Role) (s : State) : (setPrs r s).fb = s.fb := rfl
@[simp] theorem setPrs_slock (r : Role) (s : State) : (setPrs r s).slock = s.slock := rfl
@[simp] theorem setPrs_owner (r : Role) (s : State) : (setPrs r s).owner = s.owner := rfl
@[simp] theorem setPrs_mapped (r : Role) (s : State) : (setPrs r s).mapped = s.mapped := rfl
@[simp] theorem setPrs_busy (r : Role) (s : State) : (setPrs r s).busy = s.busy := rfl
@[simp] theorem setPrs_rbusy (r : Role) (s : State) : (setPrs r s).rbusy = s.rbusy := rfl
@[simp] theorem setPrs_status (r : Role) (s : State) : (setPrs r s).status = s.status := rfl
@[simp] theorem setPrs_seqr (r : Role) (s : State) : (setPrs r s).seqr = s.seqr := rfl
@[simp] theorem setPrs_ras (r : Role) (s : State) : (setPrs r s).ras = s.ras := rfl
@[simp] theorem setPrs_pads (r : Role) (s : State) : (setPrs r s).pads = s.pads := rfl
@[simp] theorem setPrs_traceRev (r : Role) (s : State) : (setPrs r s).traceRev = s.traceRev := rfl
@[simp] theorem setPrs_tdreq (r : Role) (s : State) : (setPrs r s).tdreq = s.tdreq := rfl
@[simp] theorem setPrs_dead (r : Role) (s : State) : (setPrs r s).dead = s.dead := rfl
@[simp] theorem setPrs_dlyCfg (r : Role) (s : State) : (setPrs r s).dlyCfg = s.dlyCfg := rfl
@[simp] theorem setPrs_params (r : Role) (s : State) : (setPrs r s).params = s.params := rfl
@[simp] theorem setPrs_inp (r : Role) (s : State) : (setPrs r s).inp = s.inp := rfl
@[simp] theorem setPrs_answer (r : Role) (s : State) : (setPrs r s).answer = s.answer := rfl
@[simp] theorem setPrs_extByte (r : Role) (s : State) : (setPrs r s).extByte = s.extByte := rfl
@[simp] theorem setPrs_draws (r : Role) (s : State) : (setPrs r s).draws = s.draws := rfl

/-! ## clearPrs -/

@[simp] theorem clearPrs_pinreg (r : Role) (s : State) : (clearPrs r s).pinreg = s.pinreg := rfl
@[simp] theorem clearPrs_prs (r : Role) (s : State) : (clearPrs r s).prs = prsClear s.prs r := rfl
@[simp] theorem clearPrs_cfg (r : Role) (s : State) : (clearPrs r s).cfg = s.cfg := rfl
@[simp] theorem clearPrs_lc (r : Role) (s : State) : (clearPrs r s).lc = s.lc := rfl
@[simp] theorem clearPrs_fb (r : Role) (s : State) : (clearPrs r s).fb = s.fb := rfl
@[simp] theorem clearPrs_slock (r : Role) (s : State) : (clearPrs r s).slock = s.slock := rfl
@[simp] theorem clearPrs_owner (r : Role) (s : State) : (clearPrs r s).owner = s.owner := rfl
@[simp] theorem clearPrs_mapped (r : Role) (s : State) : (clearPrs r s).mapped = s.mapped := rfl
@[simp] theorem clearPrs_busy (r : Role) (s : State) : (clearPrs r s).busy = s.busy := rfl
@[simp] theorem clearPrs_rbusy (r : Role) (s : State) : (clearPrs r s).rbusy = s.rbusy := rfl
@[simp] theorem clearPrs_status (r : Role) (s : State) : (clearPrs r s).status = s.status := rfl
@[simp] theorem clearPrs_seqr (r : Role) (s : State) : (clearPrs r s).seqr = s.seqr := rfl
@[simp] theorem clearPrs_ras (r : Role) (s : State) : (clearPrs r s).ras = s.ras := rfl
@[simp] theorem clearPrs_pads (r : Role) (s : State) : (clearPrs r s).pads = s.pads := rfl
@[simp] theorem clearPrs_traceRev (r : Role) (s : State) : (clearPrs r s).traceRev = s.traceRev := rfl
@[simp] theorem clearPrs_tdreq (r : Role) (s : State) : (clearPrs r s).tdreq = s.tdreq := rfl
@[simp] theorem clearPrs_dead (r : Role) (s : State) : (clearPrs r s).dead = s.dead := rfl
@[simp] theorem clearPrs_dlyCfg (r : Role) (s : State) : (clearPrs r s).dlyCfg = s.dlyCfg := rfl
@[simp] theorem clearPrs_params (r : Role) (s : State) : (clearPrs r s).params = s.params := rfl
@[simp] theorem clearPrs_inp (r : Role) (s : State) : (clearPrs r s).inp = s.inp := rfl
@[simp] theorem clearPrs_answer (r : Role) (s : State) : (clearPrs r s).answer = s.answer := rfl
@[simp] theorem clearPrs_extByte (r : Role) (s : State) : (clearPrs r s).extByte = s.extByte := rfl
@[simp] theorem clearPrs_draws (r : Role) (s : State) : (clearPrs r s).draws = s.draws := rfl

/-! ## clearPin -/

@[simp] theorem clearPin_pinreg (r : Role) (s : State) : (clearPin r s).pinreg = s.pinreg.put r pinNone := rfl
@[simp] theorem clearPin_prs (r : Role) (s : State) : (clearPin r s).prs = s.prs := rfl
@[simp] theorem clearPin_cfg (r : Role) (s : State) : (clearPin r s).cfg = s.cfg := rfl
@[simp] theorem clearPin_lc (r : Role) (s : State) : (clearPin r s).lc = s.lc := rfl
@[simp] theorem clearPin_fb (r : Role) (s : State) : (clearPin r s).fb = s.fb := rfl
@[simp] theorem clearPin_slock (r : Role) (s : State) : (clearPin r s).slock = s.slock := rfl
@[simp] theorem clearPin_owner (r : Role) (s : State) : (clearPin r s).owner = s.owner := rfl
@[simp] theorem clearPin_mapped (r : Role) (s : State) : (clearPin r s).mapped = s.mapped := rfl
@[simp] theorem clearPin_busy (r : Role) (s : State) : (clearPin r s).busy = s.busy := rfl
@[simp] theorem clearPin_rbusy (r : Role) (s : State) : (clearPin r s).rbusy = s.rbusy := rfl
@[simp] theorem clearPin_status (r : Role) (s : State) : (clearPin r s).status = s.status := rfl
@[simp] theorem clearPin_seqr (r : Role) (s : State) : (clearPin r s).seqr = s.seqr := rfl
@[simp] theorem clearPin_ras (r : Role) (s : State) : (clearPin r s).ras = s.ras := rfl
@[simp] theorem clearPin_pads (r : Role) (s : State) : (clearPin r s).pads = s.pads := rfl
@[simp] theorem clearPin_traceRev (r : Role) (s : State) : (clearPin r s).traceRev = s.traceRev := rfl
@[simp] theorem clearPin_tdreq (r : Role) (s : State) : (clearPin r s).tdreq = s.tdreq := rfl
@[simp] theorem clearPin_dead (r : Role) (s : State) : (clearPin r s).dead = s.dead := rfl
@[simp] theorem clearPin_dlyCfg (r : Role) (s : State) : (clearPin r s).dlyCfg = s.dlyCfg := rfl
@[simp] theorem clearPin_params (r : Role) (s : State) : (clearPin r s).params = s.params := rfl
@[simp] theorem clearPin_inp (r : Role) (s : State) : (clearPin r s).inp = s.inp := rfl
@[simp] theorem clearPin_answer (r : Role) (s : State) : (clearPin r s).answer = s.answer := rfl
@[simp] theorem clearPin_extByte (r : Role) (s : State) : (clearPin r s).extByte = s.extByte := rfl
@[simp] theorem clearPin_draws (r : Role) (s : State) : (clearPin r s).draws = s.draws := rfl

/-! ## setLc -/

@[simp] theorem setLc_pinreg (l : Lifecycle) (s : State) : (setLc l s).pinreg = s.pinreg := rfl
@[simp] theorem setLc_prs (l : Lifecycle) (s : State) : (setLc l s).prs = s.prs := rfl
@[simp] theorem setLc_cfg (l : Lifecycle) (s : State) : (setLc l s).cfg = s.cfg := rfl
@[simp] theorem setLc_lc (l : Lifecycle) (s : State) : (setLc l s).lc = l := rfl
@[simp] theorem setLc_fb (l : Lifecycle) (s : State) : (setLc l s).fb = s.fb := rfl
@[simp] theorem setLc_slock (l : Lifecycle) (s : State) : (setLc l s).slock = s.slock := rfl
@[simp] theorem setLc_owner (l : Lifecycle) (s : State) : (setLc l s).owner = s.owner := rfl
@[simp] theorem setLc_mapped (l : Lifecycle) (s : State) : (setLc l s).mapped = s.mapped := rfl
@[simp] theorem setLc_busy (l : Lifecycle) (s : State) : (setLc l s).busy = s.busy := rfl
@[simp] theorem setLc_rbusy (l : Lifecycle) (s : State) : (setLc l s).rbusy = s.rbusy := rfl
@[simp] theorem setLc_status (l : Lifecycle) (s : State) : (setLc l s).status = s.status := rfl
@[simp] theorem setLc_seqr (l : Lifecycle) (s : State) : (setLc l s).seqr = s.seqr := rfl
@[simp] theorem setLc_ras (l : Lifecycle) (s : State) : (setLc l s).ras = s.ras := rfl
@[simp] theorem setLc_pads (l : Lifecycle) (s : State) : (setLc l s).pads = s.pads := rfl
@[simp] theorem setLc_traceRev (l : Lifecycle) (s : State) : (setLc l s).traceRev = s.traceRev := rfl
@[simp] theorem setLc_tdreq (l : Lifecycle) (s : State) : (setLc l s).tdreq = s.tdreq := rfl
@[simp] theorem setLc_dead (l : Lifecycle) (s : State) : (setLc l s).dead = s.dead := rfl
@[simp] theorem setLc_dlyCfg (l : Lifecycle) (s : State) : (setLc l s).dlyCfg = s.dlyCfg := rfl
@[simp] theorem setLc_params (l : Lifecycle) (s : State) : (setLc l s).params = s.params := rfl
@[simp] theorem setLc_inp (l : Lifecycle) (s : State) : (setLc l s).inp = s.inp := rfl
@[simp] theorem setLc_answer (l : Lifecycle) (s : State) : (setLc l s).answer = s.answer := rfl
@[simp] theorem setLc_extByte (l : Lifecycle) (s : State) : (setLc l s).extByte = s.extByte := rfl
@[simp] theorem setLc_draws (l : Lifecycle) (s : State) : (setLc l s).draws = s.draws := rfl

/-! ## respond -/

@[simp] theorem respond_pinreg (op : Byte) (c : Code) (s : State) : (respond op c s).pinreg = s.pinreg := rfl
@[simp] theorem respond_prs (op : Byte) (c : Code) (s : State) : (respond op c s).prs = s.prs := rfl
@[simp] theorem respond_cfg (op : Byte) (c : Code) (s : State) : (respond op c s).cfg = s.cfg := rfl
@[simp] theorem respond_lc (op : Byte) (c : Code) (s : State) : (respond op c s).lc = s.lc := rfl
@[simp] theorem respond_fb (op : Byte) (c : Code) (s : State) : (respond op c s).fb = s.fb := rfl
@[simp] theorem respond_slock (op : Byte) (c : Code) (s : State) : (respond op c s).slock = s.slock := rfl
@[simp] theorem respond_owner (op : Byte) (c : Code) (s : State) : (respond op c s).owner = s.owner := rfl
@[simp] theorem respond_mapped (op : Byte) (c : Code) (s : State) : (respond op c s).mapped = s.mapped := rfl
@[simp] theorem respond_busy (op : Byte) (c : Code) (s : State) : (respond op c s).busy = false := rfl
@[simp] theorem respond_rbusy (op : Byte) (c : Code) (s : State) : (respond op c s).rbusy = s.rbusy := rfl
@[simp] theorem respond_status (op : Byte) (c : Code) (s : State) : (respond op c s).status = c.byte := rfl
@[simp] theorem respond_seqr (op : Byte) (c : Code) (s : State) : (respond op c s).seqr = s.seqr := rfl
@[simp] theorem respond_ras (op : Byte) (c : Code) (s : State) : (respond op c s).ras = s.ras := rfl
@[simp] theorem respond_pads (op : Byte) (c : Code) (s : State) : (respond op c s).pads = s.pads := rfl
@[simp] theorem respond_traceRev (op : Byte) (c : Code) (s : State) : (respond op c s).traceRev = .resp op c.byte :: s.traceRev := rfl
@[simp] theorem respond_tdreq (op : Byte) (c : Code) (s : State) : (respond op c s).tdreq = s.tdreq := rfl
@[simp] theorem respond_dead (op : Byte) (c : Code) (s : State) : (respond op c s).dead = s.dead := rfl
@[simp] theorem respond_dlyCfg (op : Byte) (c : Code) (s : State) : (respond op c s).dlyCfg = s.dlyCfg := rfl
@[simp] theorem respond_params (op : Byte) (c : Code) (s : State) : (respond op c s).params = s.params := rfl
@[simp] theorem respond_inp (op : Byte) (c : Code) (s : State) : (respond op c s).inp = s.inp := rfl
@[simp] theorem respond_answer (op : Byte) (c : Code) (s : State) : (respond op c s).answer = s.answer := rfl
@[simp] theorem respond_extByte (op : Byte) (c : Code) (s : State) : (respond op c s).extByte = s.extByte := rfl
@[simp] theorem respond_draws (op : Byte) (c : Code) (s : State) : (respond op c s).draws = s.draws := rfl

/-! ## begin -/

@[simp] theorem begin_pinreg (s : State) : (begin s).pinreg = s.pinreg := rfl
@[simp] theorem begin_prs (s : State) : (begin s).prs = s.prs := rfl
@[simp] theorem begin_cfg (s : State) : (begin s).cfg = s.cfg := rfl
@[simp] theorem begin_lc (s : State) : (begin s).lc = s.lc := rfl
@[simp] theorem begin_fb (s : State) : (begin s).fb = s.fb := rfl
@[simp] theorem begin_slock (s : State) : (begin s).slock = s.slock := rfl
@[simp] theorem begin_owner (s : State) : (begin s).owner = s.owner := rfl
@[simp] theorem begin_mapped (s : State) : (begin s).mapped = s.mapped := rfl
@[simp] theorem begin_busy (s : State) : (begin s).busy = true := rfl
@[simp] theorem begin_rbusy (s : State) : (begin s).rbusy = s.rbusy := rfl
@[simp] theorem begin_status (s : State) : (begin s).status = s.status := rfl
@[simp] theorem begin_seqr (s : State) : (begin s).seqr = s.seqr := rfl
@[simp] theorem begin_ras (s : State) : (begin s).ras = s.ras := rfl
@[simp] theorem begin_pads (s : State) : (begin s).pads = s.pads := rfl
@[simp] theorem begin_traceRev (s : State) : (begin s).traceRev = s.traceRev := rfl
@[simp] theorem begin_tdreq (s : State) : (begin s).tdreq = s.tdreq := rfl
@[simp] theorem begin_dead (s : State) : (begin s).dead = s.dead := rfl
@[simp] theorem begin_dlyCfg (s : State) : (begin s).dlyCfg = s.dlyCfg := rfl
@[simp] theorem begin_params (s : State) : (begin s).params = s.params := rfl
@[simp] theorem begin_inp (s : State) : (begin s).inp = s.inp := rfl
@[simp] theorem begin_answer (s : State) : (begin s).answer = none := rfl
@[simp] theorem begin_extByte (s : State) : (begin s).extByte = s.extByte := rfl
@[simp] theorem begin_draws (s : State) : (begin s).draws = s.draws := rfl

/-! ## rasStart -/

@[simp] theorem rasStart_pinreg (ops : List RasOp) (s : State) : (rasStart ops s).pinreg = s.pinreg := rfl
@[simp] theorem rasStart_prs (ops : List RasOp) (s : State) : (rasStart ops s).prs = s.prs := rfl
@[simp] theorem rasStart_cfg (ops : List RasOp) (s : State) : (rasStart ops s).cfg = s.cfg := rfl
@[simp] theorem rasStart_lc (ops : List RasOp) (s : State) : (rasStart ops s).lc = s.lc := rfl
@[simp] theorem rasStart_fb (ops : List RasOp) (s : State) : (rasStart ops s).fb = s.fb := rfl
@[simp] theorem rasStart_slock (ops : List RasOp) (s : State) : (rasStart ops s).slock = s.slock := rfl
@[simp] theorem rasStart_owner (ops : List RasOp) (s : State) : (rasStart ops s).owner = s.owner := rfl
@[simp] theorem rasStart_mapped (ops : List RasOp) (s : State) : (rasStart ops s).mapped = s.mapped := rfl
@[simp] theorem rasStart_busy (ops : List RasOp) (s : State) : (rasStart ops s).busy = s.busy := rfl
@[simp] theorem rasStart_rbusy (ops : List RasOp) (s : State) : (rasStart ops s).rbusy = !ops.isEmpty := rfl
@[simp] theorem rasStart_status (ops : List RasOp) (s : State) : (rasStart ops s).status = s.status := rfl
@[simp] theorem rasStart_seqr (ops : List RasOp) (s : State) : (rasStart ops s).seqr = s.seqr := rfl
@[simp] theorem rasStart_ras (ops : List RasOp) (s : State) : (rasStart ops s).ras = { s.ras with ops := ops } := rfl
@[simp] theorem rasStart_pads (ops : List RasOp) (s : State) : (rasStart ops s).pads = s.pads := rfl
@[simp] theorem rasStart_traceRev (ops : List RasOp) (s : State) : (rasStart ops s).traceRev = s.traceRev := rfl
@[simp] theorem rasStart_tdreq (ops : List RasOp) (s : State) : (rasStart ops s).tdreq = s.tdreq := rfl
@[simp] theorem rasStart_dead (ops : List RasOp) (s : State) : (rasStart ops s).dead = s.dead := rfl
@[simp] theorem rasStart_dlyCfg (ops : List RasOp) (s : State) : (rasStart ops s).dlyCfg = s.dlyCfg := rfl
@[simp] theorem rasStart_params (ops : List RasOp) (s : State) : (rasStart ops s).params = s.params := rfl
@[simp] theorem rasStart_inp (ops : List RasOp) (s : State) : (rasStart ops s).inp = s.inp := rfl
@[simp] theorem rasStart_answer (ops : List RasOp) (s : State) : (rasStart ops s).answer = s.answer := rfl
@[simp] theorem rasStart_extByte (ops : List RasOp) (s : State) : (rasStart ops s).extByte = s.extByte := rfl
@[simp] theorem rasStart_draws (ops : List RasOp) (s : State) : (rasStart ops s).draws = s.draws := rfl

/-! ## die -/

@[simp] theorem die_pinreg (s : State) : (die s).pinreg = s.pinreg := rfl
@[simp] theorem die_prs (s : State) : (die s).prs = s.prs := rfl
@[simp] theorem die_cfg (s : State) : (die s).cfg = s.cfg := rfl
@[simp] theorem die_lc (s : State) : (die s).lc = s.lc := rfl
@[simp] theorem die_fb (s : State) : (die s).fb = [] := rfl
@[simp] theorem die_slock (s : State) : (die s).slock = s.slock := rfl
@[simp] theorem die_owner (s : State) : (die s).owner = s.owner := rfl
@[simp] theorem die_mapped (s : State) : (die s).mapped = s.mapped := rfl
@[simp] theorem die_busy (s : State) : (die s).busy = s.busy := rfl
@[simp] theorem die_rbusy (s : State) : (die s).rbusy = false := rfl
@[simp] theorem die_status (s : State) : (die s).status = s.status := rfl
@[simp] theorem die_seqr (s : State) : (die s).seqr = s.seqr := rfl
@[simp] theorem die_ras (s : State) : (die s).ras = { s.ras with ops := [] } := rfl
@[simp] theorem die_pads (s : State) : (die s).pads = s.pads := rfl
@[simp] theorem die_traceRev (s : State) : (die s).traceRev = s.traceRev := rfl
@[simp] theorem die_tdreq (s : State) : (die s).tdreq = s.tdreq := rfl
@[simp] theorem die_dead (s : State) : (die s).dead = true := rfl
@[simp] theorem die_dlyCfg (s : State) : (die s).dlyCfg = s.dlyCfg := rfl
@[simp] theorem die_params (s : State) : (die s).params = s.params := rfl
@[simp] theorem die_inp (s : State) : (die s).inp = s.inp := rfl
@[simp] theorem die_answer (s : State) : (die s).answer = s.answer := rfl
@[simp] theorem die_extByte (s : State) : (die s).extByte = s.extByte := rfl
@[simp] theorem die_draws (s : State) : (die s).draws = s.draws := rfl

/-! ## memRead: the state after a read -/

@[simp] theorem memRead_pinreg (a : Nat) (s : State) : (memRead a s).2.pinreg = s.pinreg := by
  unfold memRead; split <;> rfl
@[simp] theorem memRead_prs (a : Nat) (s : State) : (memRead a s).2.prs = s.prs := by
  unfold memRead; split <;> rfl
@[simp] theorem memRead_cfg (a : Nat) (s : State) : (memRead a s).2.cfg = s.cfg := by
  unfold memRead; split <;> rfl
@[simp] theorem memRead_lc (a : Nat) (s : State) : (memRead a s).2.lc = s.lc := by
  unfold memRead; split <;> rfl
@[simp] theorem memRead_fb (a : Nat) (s : State) : (memRead a s).2.fb = s.fb := by
  unfold memRead; split <;> rfl
@[simp] theorem memRead_slock (a : Nat) (s : State) : (memRead a s).2.slock = s.slock := by
  unfold memRead; split <;> rfl
@[simp] theorem memRead_owner (a : Nat) (s : State) : (memRead a s).2.owner = s.owner := by
  unfold memRead; split <;> rfl
@[simp] theorem memRead_mapped (a : Nat) (s : State) : (memRead a s).2.mapped = s.mapped := by
  unfold memRead; split <;> rfl
@[simp] theorem memRead_busy (a : Nat) (s : State) : (memRead a s).2.busy = s.busy := by
  unfold memRead; split <;> rfl
@[simp] theorem memRead_rbusy (a : Nat) (s : State) : (memRead a s).2.rbusy = s.rbusy := by
  unfold memRead; split <;> rfl
@[simp] theorem memRead_status (a : Nat) (s : State) : (memRead a s).2.status = s.status := by
  unfold memRead; split <;> rfl
@[simp] theorem memRead_seqr (a : Nat) (s : State) : (memRead a s).2.seqr = s.seqr := by
  unfold memRead; split <;> rfl
@[simp] theorem memRead_ras (a : Nat) (s : State) : (memRead a s).2.ras = s.ras := by
  unfold memRead; split <;> rfl
@[simp] theorem memRead_pads (a : Nat) (s : State) : (memRead a s).2.pads = s.pads := by
  unfold memRead; split <;> rfl
@[simp] theorem memRead_tdreq (a : Nat) (s : State) : (memRead a s).2.tdreq = s.tdreq := by
  unfold memRead; split <;> rfl
@[simp] theorem memRead_dead (a : Nat) (s : State) : (memRead a s).2.dead = s.dead := by
  unfold memRead; split <;> rfl
@[simp] theorem memRead_dlyCfg (a : Nat) (s : State) : (memRead a s).2.dlyCfg = s.dlyCfg := by
  unfold memRead; split <;> rfl
@[simp] theorem memRead_params (a : Nat) (s : State) : (memRead a s).2.params = s.params := by
  unfold memRead; split <;> rfl
@[simp] theorem memRead_inp (a : Nat) (s : State) : (memRead a s).2.inp = s.inp := by
  unfold memRead; split <;> rfl
@[simp] theorem memRead_answer (a : Nat) (s : State) : (memRead a s).2.answer = s.answer := by
  unfold memRead; split <;> rfl
@[simp] theorem memRead_extByte (a : Nat) (s : State) : (memRead a s).2.extByte = s.extByte := by
  unfold memRead; split <;> rfl

theorem memRead_traceRev (a : Nat) (s : State) :
    (memRead a s).2.traceRev = .fbRead a (memRead a s).1 :: s.traceRev := by
  unfold memRead; split <;> rfl

end Sys2Proof.Machine
end

