-- ==== Sys2Proof/Laws/Ops.lean ====
section
/-! SUPPORT. One lemma per shared operation that says what it can do, and the lemmas about sequences of parts:
provers cite these instead of unfolding Machine/Ops.lean. -/

namespace Sys2Proof.Machine

/-! ## PRS and roles -/

@[simp] theorem prsBit_prsAll (r : Role) : prsBit (15#4) r = true := by cases r <;> decide

theorem prsBit_prsSet (p : BitVec 4) (r q : Role) :
    prsBit (prsSet p r) q = (decide (q = r) || prsBit p q) := by
  revert p; cases r <;> cases q <;> decide

theorem prsBit_prsClear (p : BitVec 4) (r q : Role) :
    prsBit (prsClear p r) q = (!decide (q = r) && prsBit p q) := by
  revert p; cases r <;> cases q <;> decide

/-- PRS is determined by its four bits. -/
theorem prs_ext {p q : BitVec 4} (h : ∀ r, prsBit p r = prsBit q r) : p = q := by
  have h0 := h .clk; have h1 := h .dout; have h2 := h .rst; have h3 := h .dc
  clear h
  revert p q; decide

@[simp] theorem PinGroup.get_put_same (g : PinGroup) (r : Role) (id : PinId) :
    (g.put r id).get r = id := by cases r <;> rfl

theorem PinGroup.get_put_other (g : PinGroup) {r q : Role} (id : PinId) (h : q ≠ r) :
    (g.put r id).get q = g.get q := by cases r <;> cases q <;> first | rfl | exact absurd rfl h

/-! ## Pads -/

@[simp] theorem padOf_setPad (id j : PinId) (p : Pad) (s : State) :
    padOf (setPad id p s) j =
      if j = id then (padOf s id).map (fun _ => p) else padOf s j := by
  unfold padOf setPad
  simp only [Vector.getElem?_setIfInBounds]
  by_cases h : j = id
  · subst h
    by_cases hb : j.toNat < Config.padCount
    · simp [hb]
    · simp [hb]
  · have : id.toNat ≠ j.toNat := fun he => h (BitVec.eq_of_toNat_eq he.symm)
    simp [h, this]

/-- Every identifier but 0xFF names a pad (R23). -/
theorem padOf_isSome {s : State} {id : PinId} (h : id ≠ pinNone) : ∃ p, padOf s id = some p := by
  have hlt : id.toNat < Config.padCount := by
    have h1 := id.isLt
    have h2 : id.toNat ≠ 255 := fun he => h (BitVec.eq_of_toNat_eq he)
    simp only [Config.padCount]; omega
  exact ⟨s.pads[id.toNat], by simp [padOf, hlt]⟩

theorem padOf_none (s : State) : padOf s pinNone = none := by
  simp [padOf, pinNone, Config.padCount]

/-- The pads are determined by `padOf`. -/
theorem pads_ext {s t : State} (h : ∀ id : PinId, padOf s id = padOf t id) : s.pads = t.pads := by
  apply Vector.ext
  intro i hi
  have hi' : i < 255 := hi
  have := h (BitVec.ofNat 8 i)
  have hm : i % 256 = i := Nat.mod_eq_of_lt (by omega)
  simpa [padOf, hm, hi] using this

/-! ## Framebuffer accesses -/

/-- A read of a written byte returns it and only adds its event (R44). -/
theorem memRead_written {s : State} {a : Nat} {v : Byte} (h : Memory.read s.fb a = some v) :
    memRead a s = (v, emit (.fbRead a v) s) := by
  simp [memRead, h]

/-- A read of a byte nothing has written is a draw (R47). -/
theorem memRead_unwritten {s : State} {a : Nat} (h : Memory.read s.fb a = none) :
    memRead a s = (Config.freeByte s.draws,
      emit (.fbRead a (Config.freeByte s.draws)) { s with draws := s.draws + 1 }) := by
  simp [memRead, h, drawByte]

/-- What a read returns is the byte the address holds, if it holds one. -/
theorem memRead_value {s : State} {a : Nat} {v : Byte} (h : Memory.read s.fb a = some v) :
    (memRead a s).1 = v := by rw [memRead_written h]

/-! ## Sequences of parts -/

@[simp] theorem Res.andThen_ok (s : State) (k : State → Res) : (Res.ok s).andThen k = k s := rfl
@[simp] theorem Res.andThen_raise (c : Code) (s : State) (k : State → Res) :
    (Res.raise c s).andThen k = .raise c s := rfl
@[simp] theorem Res.andThen_fault (f : Fault) (k : State → Res) :
    (Res.fault f).andThen k = .fault f := rfl

theorem Res.andThen_assoc (r : Res) (f g : State → Res) :
    (r.andThen f).andThen g = r.andThen fun s => (f s).andThen g := by cases r <;> rfl

@[simp] theorem runAll_nil (s : State) : runAll [] s = .ok s := rfl
@[simp] theorem runAll_cons (p : State → Res) (ps : List (State → Res)) (s : State) :
    runAll (p :: ps) s = (p s).andThen (runAll ps) := rfl

/-- The first part goes on to `t`. -/
theorem runAll_step {p : State → Res} {ps : List (State → Res)} {s t : State} (h : p s = .ok t) :
    runAll (p :: ps) s = runAll ps t := by
  rw [runAll_cons, h, Res.andThen_ok]

theorem runAll_append (ps qs : List (State → Res)) (s : State) :
    runAll (ps ++ qs) s = (runAll ps s).andThen (runAll qs) := by
  induction ps generalizing s with
  | nil => rfl
  | cons p ps ih =>
    simp only [List.cons_append, runAll_cons, Res.andThen_assoc]
    congr 1
    funext t
    exact ih t

@[simp] theorem updateStep_apply (f : State → State) (s : State) : updateStep f s = .ok (f (boundary .seq s)) := rfl

@[simp] theorem update_apply (f : State → State) (s : State) : update f s = .ok (f s) := rfl

/-- Every state a part can end in, by going on or by raising an error, has the property. -/
def Res.All (P : State → Prop) : Res → Prop
  | .ok s => P s
  | .raise _ s => P s
  | .fault _ => True

theorem Res.All.mono {P Q : State → Prop} {r : Res} (h : ∀ s, P s → Q s) (hr : r.All P) : r.All Q := by
  cases r <;> first | exact h _ hr | exact hr

theorem Res.All.andThen {P : State → Prop} {r : Res} {k : State → Res} (hr : r.All P)
    (hk : ∀ s, P s → (k s).All P) : (r.andThen k).All P := by
  cases r <;> first | exact hk _ hr | exact hr

/-- A property every part keeps is kept by the parts in order. -/
theorem runAll_all {P : State → Prop} {ps : List (State → Res)}
    (hp : ∀ p ∈ ps, ∀ s, P s → (p s).All P) {s : State} (hs : P s) : (runAll ps s).All P := by
  induction ps generalizing s with
  | nil => exact hs
  | cons p ps ih =>
    exact (hp p (by simp) s hs).andThen fun t ht => ih (fun q hq => hp q (by simp [hq])) ht

/-! ## Boundaries -/

@[simp] theorem boundary_of_nil {s : State} (g : Agent) (h : s.inp.agenda = []) : boundary g s = s := by
  simp [boundary, h]

/-- A property every act and every use of an agenda entry keeps is kept by a boundary. -/
theorem boundary_keeps {P : State → Prop} (g : Agent)
    (hAgenda : ∀ s rest, P s → P { s with inp := { s.inp with agenda := rest } })
    (hAct : ∀ a s, P s → P (doAct g a s)) {s : State} (hs : P s) : P (boundary g s) := by
  unfold boundary
  split
  · exact hs
  · rename_i acts rest hag
    clear hag
    have : ∀ t, P t → P (acts.foldl (fun t a => doAct g a t) t) := by
      induction acts with
      | nil => exact fun t ht => ht
      | cons a acts ih => exact fun t ht => ih _ (hAct a t ht)
    exact this _ (hAgenda s rest hs)

/-! ## The sequencer alone -/

/-- The pads after one of them is driven. -/
def drivePad (pads : Vector Pad Config.padCount) (id : PinId) (v : Level) : Vector Pad Config.padCount :=
  match pads[id.toNat]? with
  | some p => pads.setIfInBounds id.toNat { p with drv := .driven v }
  | none => pads

/-- The state after a pin write that succeeds (R80). -/
def pinned (r : Role) (v : Level) (s : State) : State :=
  { s with
    pads := drivePad s.pads (s.pinreg.get r) v
    traceRev := .pin r (s.pinreg.get r) v :: s.traceRev }

theorem getElem?_drivePad (pads : Vector Pad Config.padCount) (id j : PinId) (v : Level) :
    (drivePad pads id v)[j.toNat]? =
      if j = id then (pads[j.toNat]?).map (fun p => { p with drv := .driven v }) else pads[j.toNat]? := by
  unfold drivePad
  cases hp : pads[id.toNat]? with
  | none =>
    by_cases h : j = id
    · subst h; simp [hp]
    · simp [h]
  | some p =>
    simp only [Vector.getElem?_setIfInBounds]
    by_cases h : j = id
    · subst h
      have hb : j.toNat < Config.padCount := by
        by_contra hb
        simp [hb] at hp
      rw [hp]
      simp [hb]
    · have : id.toNat ≠ j.toNat := fun he => h (BitVec.eq_of_toNat_eq he.symm)
      simp [h, this]

/-- With no answers left the oracle never fails and nothing changes. -/
theorem askOracle_never {s : State} (h : s.inp.pinFault = []) : askOracle s = (false, s) := by
  simp [askOracle, h]

/-- The oracle changes nothing but its own answers. -/
theorem askOracle_state (s : State) :
    ∃ rest, (askOracle s).2 = { s with inp := { s.inp with pinFault := rest } } := by
  unfold askOracle
  split
  · exact ⟨s.inp.pinFault, rfl⟩
  · exact ⟨_, rfl⟩

/-- A PinWrite with the pads owned, no other agent and no failing pad (R80). -/
theorem pinWrite_alone {s : State} (r : Role) (v : Level) (h : Alone s) (hp : s.prs = prsAll)
    (hn : s.pinreg.get r ≠ pinNone) : pinWrite r v s = .ok (pinned r v s) := by
  obtain ⟨p, hpad⟩ := padOf_isSome (s := s) hn
  have hpad' : s.pads[(s.pinreg.get r).toNat]? = some p := hpad
  simp [pinWrite, h.agenda, pinDrive, hp, hpad, askOracle_never h.oracle, pinned, drivePad, hpad', emit,
    setPad]

/-- A PinWrite to a role whose pad is not acquired is a fault (R80). -/
theorem pinDrive_unowned {s : State} {r : Role} (v : Level) (h : prsBit s.prs r = false) :
    pinDrive r v s = .fault (.pinNotOwned r) := by
  simp [pinDrive, h]

/-- A PinWrite either drives the pad and records it, or fails by the oracle with nothing changed but the
oracle's answer used, or is a fault (R80, R90). -/
theorem pinDrive_cases (r : Role) (v : Level) (s : State) :
    (∃ p, padOf s (s.pinreg.get r) = some p ∧ s.prs = prsAll ∧
      pinDrive r v s = .ok (emit (.pin r (s.pinreg.get r) v)
        (setPad (s.pinreg.get r) { p with drv := .driven v } (askOracle s).2))) ∨
    ((askOracle s).1 = true ∧ pinDrive r v s = .raise .io (askOracle s).2) ∨
    (∃ f, pinDrive r v s = .fault f) := by
  unfold pinDrive
  split
  · exact .inr (.inr ⟨_, rfl⟩)
  · split
    · exact .inr (.inr ⟨_, rfl⟩)
    · rename_i hprs
      split
      · exact .inr (.inr ⟨_, rfl⟩)
      · rename_i p hp
        split
        · rename_i hf
          exact .inr (.inl ⟨hf, rfl⟩)
        · exact .inl ⟨p, hp, by simpa using hprs, rfl⟩

/-- Wait alone (R81). -/
theorem wait_alone {s : State} (t : Nat) (h : s.inp.agenda = []) :
    wait t s = .ok { s with traceRev := delayEvents t ++ s.traceRev } := by
  unfold wait delayEvents
  split
  · rfl
  · simp [h, emit]

/-- A framebuffer write of SEQ alone. -/
theorem seqWrite_alone {s : State} {a : Nat} (v : Byte) (h : s.inp.agenda = []) (ha : a < Config.fbSize) :
    seqWrite a v s = .ok (memWrite .seq a v s) := by
  simp [seqWrite, ha, h]

/-- A framebuffer read of SEQ alone. -/
theorem seqRead_alone {s : State} {a : Nat} (k : Byte → State → Res) (h : s.inp.agenda = [])
    (ha : a < Config.fbSize) : seqRead a k s = k (memRead a s).1 (memRead a s).2 := by
  simp [seqRead, ha, h]

/-- A response with no other agent acting before it. -/
theorem finish_alone {s : State} (op : Byte) (c : Code) (h : s.inp.agenda = []) :
    finish op c s = respond op c s := by
  simp [finish, h]

/-- The response is what a statement calls `answered` (R165). -/
theorem finish_eq_answered (op : Byte) (c : Code) (s : State) : finish op c s = answered op c.byte s := rfl

/-- A response with no other agent acting before it, as a statement says it. -/
theorem answered_alone {s : State} (op code : Byte) (h : s.inp.agenda = []) :
    answered op code s =
      { s with status := code, traceRev := .resp op code :: s.traceRev, busy := false } := by
  simp [answered, h]

/-- Whatever happens, a command's frame ends in a response unless the model stops (R165). -/
theorem conclude_next {op : Byte} {r : Res} {t : State} (h : conclude op r = .next t) :
    ∃ c u, (r = .ok u ∧ c = .ok ∨ r = .raise c u) ∧ t = finish op c u := by
  cases r with
  | ok u => exact ⟨.ok, u, .inl ⟨rfl, rfl⟩, by simpa [conclude] using h.symm⟩
  | raise c u => exact ⟨c, u, .inr rfl, by simpa [conclude] using h.symm⟩
  | fault f => simp [conclude] at h

/-- The frame of a control command, case by case (R165, R205). -/
theorem controlFrame_next {op : Byte} {n : Bool} {body : State → Res} {s t : State}
    (h : controlFrame op n body s = .next t) :
    s.dead = false ∧
      ((n = true ∧ sessionOk s = false ∧ t = finish op .noSession (begin s)) ∨
       ((n = true → sessionOk s = true) ∧ conclude op (body (begin s)) = .next t)) := by
  unfold controlFrame at h
  split at h
  · simp at h
  · rename_i hd
    refine ⟨by simpa using hd, ?_⟩
    split at h
    · rename_i hn
      simp only [Bool.and_eq_true, Bool.not_eq_true'] at hn
      exact .inl ⟨hn.1, hn.2, by simpa using h.symm⟩
    · rename_i hn
      refine .inr ⟨fun hn' => ?_, h⟩
      simpa [hn'] using hn

/-- The frame with its tests passed. -/
theorem controlFrame_runs {op : Byte} {n : Bool} {body : State → Res} {s : State}
    (hd : s.dead = false) (hs : n = true → sessionOk s = true) :
    controlFrame op n body s = conclude op (body (begin s)) := by
  unfold controlFrame
  cases n <;> simp_all

end Sys2Proof.Machine
end

