-- ==== Sys2Proof/Laws/Agents.lean ====
section
/-! SUPPORT. What the other agents can do between two micro-steps (R23, R46, R47), said once: provers cite
`boundary_elsewhere` instead of unfolding an act. -/

namespace Sys2Proof.Machine

/-- A step of another agent leaves the sequencer's registers, the flags and the pads the block owns alone; it
keeps the framebuffer's canonical form, RBUSY's meaning and the single-copy property; it adds only framebuffer
events, none of them a write of SEQ. -/
structure Elsewhere (s t : State) : Prop where
  pinreg : t.pinreg = s.pinreg
  prs : t.prs = s.prs
  cfg : t.cfg = s.cfg
  lc : t.lc = s.lc
  slock : t.slock = s.slock
  owner : t.owner = s.owner
  mapped : t.mapped = s.mapped
  busy : t.busy = s.busy
  status : t.status = s.status
  seqr : t.seqr = s.seqr
  dead : t.dead = s.dead
  dlyCfg : t.dlyCfg = s.dlyCfg
  params : t.params = s.params
  answer : t.answer = s.answer
  cid : t.inp.cid = s.inp.cid
  phyPort : t.inp.phyPort = s.inp.phyPort
  turns : t.inp.turns = s.inp.turns
  pinFault : t.inp.pinFault = s.inp.pinFault
  pads : ∀ id : PinId, (padOf t id).map (fun p => (p.drv, decide (p.owner = .self))) =
    (padOf s id).map (fun p => (p.drv, decide (p.owner = .self)))
  memory : Memory.wf s.fb → Memory.wf t.fb
  rasterFlag : s.rbusy = !s.ras.ops.isEmpty → t.rbusy = !t.ras.ops.isEmpty
  trace : ∃ es, t.traceRev = es ++ s.traceRev ∧
    ∀ e ∈ es, (∃ a v, e = .fbRead a v) ∨ ∃ g a v, g ≠ .seq ∧ e = .fbWrite g a v
  single : SingleCopy s → SingleCopy t

theorem Elsewhere.refl (s : State) : Elsewhere s s :=
  ⟨rfl, rfl, rfl, rfl, rfl, rfl, rfl, rfl, rfl, rfl, rfl, rfl, rfl, rfl, rfl, rfl, rfl, rfl,
    fun _ => rfl, id, id, ⟨[], rfl, by simp⟩, id⟩

theorem Elsewhere.trans {s t u : State} (h : Elsewhere s t) (k : Elsewhere t u) : Elsewhere s u := by
  obtain ⟨es, he, hes⟩ := h.trace
  obtain ⟨fs, hf, hfs⟩ := k.trace
  refine ⟨k.pinreg.trans h.pinreg, k.prs.trans h.prs, k.cfg.trans h.cfg, k.lc.trans h.lc,
    k.slock.trans h.slock, k.owner.trans h.owner, k.mapped.trans h.mapped, k.busy.trans h.busy,
    k.status.trans h.status, k.seqr.trans h.seqr, k.dead.trans h.dead, k.dlyCfg.trans h.dlyCfg,
    k.params.trans h.params, k.answer.trans h.answer, k.cid.trans h.cid, k.phyPort.trans h.phyPort,
    k.turns.trans h.turns, k.pinFault.trans h.pinFault, fun id => (k.pads id).trans (h.pads id),
    k.memory ∘ h.memory, k.rasterFlag ∘ h.rasterFlag, ⟨fs ++ es, ?_, ?_⟩, k.single ∘ h.single⟩
  · rw [hf, he, List.append_assoc]
  · intro e hm
    rcases List.mem_append.1 hm with hm | hm
    · exact hfs e hm
    · exact hes e hm

/-! ## The single-copy property under one access -/

/-- A write is the latest write to its address and to no other (R47). -/
theorem SingleCopy.memWrite {s : State} (h : SingleCopy s) (g : Agent) (a : Nat) (v : Byte) :
    SingleCopy (memWrite g a v s) := by
  refine ⟨fun b => ?_, h.reads⟩
  show Memory.read (Memory.write s.fb a v) b = _
  rw [Memory.read_write]
  show _ = if a = b then some v else lastWrite s.traceRev b
  rw [← h.contents b]
  by_cases hb : b = a
  · simp [hb]
  · simp [hb, Ne.symm hb]

/-- A read returns the latest write (R44, R47). -/
theorem SingleCopy.memRead {s : State} (h : SingleCopy s) (a : Nat) : SingleCopy (memRead a s).2 := by
  cases hr : Memory.read s.fb a with
  | some v =>
    rw [memRead_written hr]
    refine ⟨h.contents, ⟨fun w hw => ?_, h.reads⟩⟩
    have := h.contents a
    rw [hr, hw] at this
    exact Option.some.inj this
  | none =>
    rw [memRead_unwritten hr]
    refine ⟨h.contents, ⟨fun w hw => ?_, h.reads⟩⟩
    have := h.contents a
    rw [hr] at this
    change lastWrite s.traceRev a = some w at hw
    rw [hw] at this
    cases this

/-! ## One access -/

theorem memWrite_elsewhere {g : Agent} (hg : g ≠ .seq) {a : Nat} (ha : a < Config.fbSize) (v : Byte) (s : State) :
    Elsewhere s (memWrite g a v s) :=
  ⟨rfl, rfl, rfl, rfl, rfl, rfl, rfl, rfl, rfl, rfl, rfl, rfl, rfl, rfl, rfl, rfl, rfl, rfl,
    fun _ => rfl, fun hw => Memory.wf_write v hw ha, id,
    ⟨[.fbWrite g a v], rfl, by simpa using hg⟩, fun h => h.memWrite g a v⟩

theorem memRead_elsewhere (a : Nat) (s : State) : Elsewhere s (memRead a s).2 := by
  cases hr : Memory.read s.fb a with
  | some v =>
    have hs := fun h : SingleCopy s => h.memRead a
    rw [memRead_written hr] at hs ⊢
    exact ⟨rfl, rfl, rfl, rfl, rfl, rfl, rfl, rfl, rfl, rfl, rfl, rfl, rfl, rfl, rfl, rfl, rfl, rfl,
      fun _ => rfl, id, id, ⟨[.fbRead a v], rfl, by simp⟩, hs⟩
  | none =>
    have hs := fun h : SingleCopy s => h.memRead a
    rw [memRead_unwritten hr] at hs ⊢
    exact ⟨rfl, rfl, rfl, rfl, rfl, rfl, rfl, rfl, rfl, rfl, rfl, rfl, rfl, rfl, rfl, rfl, rfl, rfl,
      fun _ => rfl, id, id, ⟨[.fbRead a (Config.freeByte s.draws)], rfl, by simp⟩, hs⟩

/-- A change of the fields that no rule of `Elsewhere` mentions. -/
theorem Elsewhere.of_same {s t u : State} (h : Elsewhere s t)
    (e : u = { t with
      tdreq := u.tdreq, extByte := u.extByte, draws := u.draws
      ras := { u.ras with ops := t.ras.ops }
      inp := { t.inp with
        ctlPort := u.inp.ctlPort, ctlPayload := u.inp.ctlPayload, rasPort := u.inp.rasPort
        rasPayload := u.inp.rasPayload, agenda := u.inp.agenda } }) : Elsewhere s u := by
  rw [e]
  exact ⟨h.pinreg, h.prs, h.cfg, h.lc, h.slock, h.owner, h.mapped, h.busy, h.status, h.seqr, h.dead,
    h.dlyCfg, h.params, h.answer, h.cid, h.phyPort, h.turns, h.pinFault, h.pads, h.memory, h.rasterFlag,
    h.trace, fun k => ⟨(h.single k).contents, (h.single k).reads⟩⟩

/-! ## The acts -/

theorem rasDo_elsewhere (op : RasOp) (s : State) : Elsewhere s (rasDo op s) := by
  cases op with
  | ctr c v => cases c <;> exact (Elsewhere.refl s).of_same rfl
  | fill a v => exact memWrite_elsewhere (g := .ras) (by decide) a.isLt v s
  | fetch a => exact (memRead_elsewhere a.val s).of_same (by simp only [rasDo, memRead_ras])
  | store a m set => exact memWrite_elsewhere (g := .ras) (by decide) a.isLt _ s

/-- RAS accepting an operation. -/
theorem rasStart_elsewhere (ops : List RasOp) (s : State) : Elsewhere s (rasStart ops s) :=
  ⟨rfl, rfl, rfl, rfl, rfl, rfl, rfl, rfl, rfl, rfl, rfl, rfl, rfl, rfl, rfl, rfl, rfl, rfl,
    fun _ => rfl, id, fun _ => rfl, ⟨[], rfl, by simp⟩, fun h => ⟨h.contents, h.reads⟩⟩

theorem rasTick_elsewhere (s : State) : Elsewhere s (rasTick s) := by
  unfold rasTick
  split
  · rename_i h0
    exact ⟨rfl, rfl, rfl, rfl, rfl, rfl, rfl, rfl, rfl, rfl, rfl, rfl, rfl, rfl, rfl, rfl, rfl, rfl,
      fun _ => rfl, id, fun _ => by simp [h0], ⟨[], rfl, by simp⟩, fun h => ⟨h.contents, h.reads⟩⟩
  · rename_i op rest h1
    refine Elsewhere.trans (t := { s with ras := { s.ras with ops := rest }, rbusy := !rest.isEmpty }) ?_
      (rasDo_elsewhere op _)
    exact ⟨rfl, rfl, rfl, rfl, rfl, rfl, rfl, rfl, rfl, rfl, rfl, rfl, rfl, rfl, rfl, rfl, rfl, rfl,
      fun _ => rfl, id, fun _ => rfl, ⟨[], rfl, by simp⟩, fun h => ⟨h.contents, h.reads⟩⟩

/-- The state of a word taken off the raster port. -/
theorem offeredRaster_elsewhere (s : State) :
    (∀ op t, offeredRaster s = .reserved op t → Elsewhere s t) ∧
      ∀ i t, offeredRaster s = .command i t → Elsewhere s t := by
  unfold offeredRaster
  split
  · simp
  · simp only
    split
    · simp
    · constructor
      · intro op t h
        split at h
        · simp at h
        · injection h with h1 h2
          subst h2
          exact (Elsewhere.refl s).of_same rfl
      · intro i t h
        split at h
        · injection h with h1 h2
          subst h2
          exact (Elsewhere.refl s).of_same rfl
        · simp at h

theorem rasAgent_elsewhere (s : State) : Elsewhere s (rasAgent s) := by
  unfold rasAgent
  split
  · exact Elsewhere.refl s
  · split
    · exact rasTick_elsewhere s
    · have h := offeredRaster_elsewhere s
      split
      · exact Elsewhere.refl s
      · rename_i op t ht
        exact h.1 op t ht
      · rename_i i t ht
        exact (h.2 i t ht).trans (rasStart_elsewhere _ _)

theorem extRead_elsewhere (k : Nat) (s : State) : Elsewhere s (extRead k s) := by
  unfold extRead
  split
  · split
    · exact (memRead_elsewhere k s).of_same rfl
    · split
      · exact (Elsewhere.refl s).of_same rfl
      · exact Elsewhere.refl s
  · exact Elsewhere.refl s

theorem extWrite_elsewhere (k : Nat) (v : Byte) (s : State) : Elsewhere s (extWrite k v s) := by
  unfold extWrite
  split
  · rename_i h
    simp only [Bool.and_eq_true, decide_eq_true_eq] at h
    exact memWrite_elsewhere (g := .ext) (by decide) h.2 v s
  · exact Elsewhere.refl s

/-- ENV between two owners that are not the block (R23). -/
theorem envOwner_elsewhere (id : PinId) {old new : Owner} (ho : old ≠ .self) (hn : new ≠ .self) (s : State) :
    Elsewhere s (envOwner id old new s) := by
  unfold envOwner
  split
  · rename_i p hp
    split
    · rename_i hold
      refine ⟨rfl, rfl, rfl, rfl, rfl, rfl, rfl, rfl, rfl, rfl, rfl, rfl, rfl, rfl, rfl, rfl, rfl, rfl,
        fun j => ?_, fun h => h, fun h => h, ⟨[], rfl, by simp⟩, fun h => ⟨h.contents, h.reads⟩⟩
      rw [padOf_setPad]
      by_cases hj : j = id
      · subst hj
        have hself : p.owner ≠ .self := fun hc => ho (hold ▸ hc)
        simp [hp, hn, hself]
      · simp [hj]
    · exact Elsewhere.refl s
  · exact Elsewhere.refl s

theorem doAct_elsewhere (g : Agent) (a : Act) (s : State) : Elsewhere s (doAct g a s) := by
  cases a with
  | extRead k => exact extRead_elsewhere k s
  | extWrite k v => exact extWrite_elsewhere k v s
  | envTake id => exact envOwner_elsewhere id (by decide) (by decide) s
  | envFree id => exact envOwner_elsewhere id (by decide) (by decide) s
  | requestTeardown => exact (Elsewhere.refl s).of_same rfl
  | rasStep =>
    simp only [doAct]
    split
    · exact Elsewhere.refl s
    · exact rasAgent_elsewhere s
  | offerControl cid w payload => exact (Elsewhere.refl s).of_same rfl
  | offerRaster w payload => exact (Elsewhere.refl s).of_same rfl

/-- Whatever the agenda lists for a boundary. -/
theorem boundary_elsewhere (g : Agent) (s : State) : Elsewhere s (boundary g s) :=
  boundary_keeps (P := fun t => Elsewhere s t) g (fun _ _ h => h.of_same rfl)
    (fun a _ h => h.trans (doAct_elsewhere g a _)) (Elsewhere.refl s)

/-- A pad the block owns keeps its owner and its drive; a pad it does not own keeps its drive and does not
become the block's (R23). -/
theorem Elsewhere.pad {s t : State} (h : Elsewhere s t) {id : PinId} {p : Pad} (hp : padOf s id = some p) :
    ∃ q, padOf t id = some q ∧ q.drv = p.drv ∧ (q.owner = .self ↔ p.owner = .self) := by
  have := h.pads id
  rw [hp] at this
  cases hq : padOf t id with
  | none => rw [hq] at this; cases this
  | some q =>
    rw [hq] at this
    simp only [Option.map_some, Option.some.injEq, Prod.mk.injEq, decide_eq_decide] at this
    exact ⟨q, rfl, this.1, this.2⟩

/-- The lines of acquired roles are untouched. -/
theorem Elsewhere.line {s t : State} (h : Elsewhere s t) (r : Role) : line t r = line s r := by
  unfold Machine.line
  rw [h.prs, h.pinreg]
  split
  · have := h.pads (s.pinreg.get r)
    cases hp : padOf s (s.pinreg.get r) with
    | none =>
      rw [hp] at this
      cases hq : padOf t (s.pinreg.get r) with
      | none => rfl
      | some q => rw [hq] at this; cases this
    | some p =>
      obtain ⟨q, hq, hd, -⟩ := h.pad hp
      rw [hq]
      exact hd
  · rfl

/-- Every operation that writes the framebuffer keeps its canonical form: an agent's write, a read, a boundary with
whatever acts, a step of the rasteriser; and a block at reset or after TEARDOWN has it. -/
theorem memory_stays_wf (s : State) (h : Memory.wf s.fb) :
    (∀ (g : Agent) (a : Nat) (v : Byte), a < Config.fbSize → Memory.wf (memWrite g a v s).fb) ∧
    (∀ a, Memory.wf (memRead a s).2.fb) ∧ (∀ g, Memory.wf (boundary g s).fb) ∧ Memory.wf (rasTick s).fb ∧
    Memory.wf (die s).fb ∧ Memory.wf State.reset.fb :=
  ⟨fun _ _ v ha => Memory.wf_write v h ha, fun a => (memRead_elsewhere a s).memory h,
    fun g => (boundary_elsewhere g s).memory h, (rasTick_elsewhere s).memory h, Memory.wf_nil, Memory.wf_nil⟩

end Sys2Proof.Machine
end

