-- ==== Sys2Proof/Laws/Decode.lean ====
section
/-! SUPPORT. What a decoded command word says of its port and of its payload, and what stands at the head of a
port (R64, R65, R68). -/

namespace Sys2Proof.Machine

/-- A command word decodes only to an instruction of its opcode's port, which is not the PHY's input. -/
theorem port_of_decodeCommand {w : CmdWord} {payload : List Byte} {i : Instr}
    (h : decodeCommand w payload = .ok i) : portOfWord w = i.port ∧ i.port ≠ .phy := by
  unfold decodeCommand at h
  split at h
  · unfold decodeWord at h
    simp only at h
    split at h <;> rename_i ho <;> first
      | (simp only [accept?] at h
         split at h <;> first
          | (cases h; done)
          | (have := Except.ok.inj h; subst this; simp [portOfWord, Instr.port, ho]))
      | (cases h)
  · cases h

/-- The payload of a decoded command has the count of its word. -/
theorem length_of_decodeCommand {w : CmdWord} {payload : List Byte} {i : Instr}
    (h : decodeCommand w payload = .ok i) : payload.length = payloadCount w := by
  unfold decodeCommand at h
  split at h
  · assumption
  · cases h

/-- A word that takes a payload decodes with some payload. -/
theorem decodable_of_payloadCount {w : CmdWord} (h : 0 < payloadCount w) :
    ∃ payload i, decodeCommand w payload = .ok i := by
  refine ⟨List.replicate (payloadCount w) 0, ?_⟩
  unfold decodeCommand
  simp only [List.length_replicate, if_true]
  unfold payloadCount at h
  unfold decodeWord
  simp only
  split at h
  · rename_i ho
    rw [ho]
    simp only
    split at h
    · rename_i hz
      exact ⟨_, by rw [accept?, if_pos hz]⟩
    · omega
  · rename_i ho
    rw [ho]
    simp only
    split at h
    · rename_i hz
      exact ⟨_, by rw [accept?, if_pos hz]⟩
    · omega
  · omega

/-- The head of the control port is a command (R65, R68). -/
theorem offeredControl_command {s : State} {o : CtlOffer} {os : List CtlOffer} {i : Instr}
    (hp : s.inp.ctlPort = o :: os) (hl : payloadCount o.word ≤ s.inp.ctlPayload.length)
    (hd : decodeCommand o.word (s.inp.ctlPayload.take (payloadCount o.word)) = .ok i)
    (hport : i.port = .control) :
    offeredControl s = .command i { s with inp := { s.inp with
      cid := o.cid, ctlPort := os, ctlPayload := s.inp.ctlPayload.drop (payloadCount o.word) } } := by
  have hn : payloadOn .control o.word = payloadCount o.word := by
    simp [payloadOn, (port_of_decodeCommand hd).1, hport]
  unfold offeredControl
  rw [hp]
  simp only [hn, decodeOn, hd, hport, if_true]
  rw [if_neg (by omega)]

/-- The head of the raster port is a command (R65, R68). -/
theorem offeredRaster_command {s : State} {w : CmdWord} {ws : List CmdWord} {i : Instr}
    (hp : s.inp.rasPort = w :: ws) (hl : payloadCount w ≤ s.inp.rasPayload.length)
    (hd : decodeCommand w (s.inp.rasPayload.take (payloadCount w)) = .ok i) (hport : i.port = .raster) :
    offeredRaster s = .command i { s with inp := { s.inp with
      rasPort := ws, rasPayload := s.inp.rasPayload.drop (payloadCount w) } } := by
  have hn : payloadOn .raster w = payloadCount w := by
    simp [payloadOn, (port_of_decodeCommand hd).1, hport]
  unfold offeredRaster
  rw [hp]
  simp only [hn, decodeOn, hd, hport, if_true]
  rw [if_neg (by omega)]

/-- A word the port does not accept takes no payload and decodes to nothing there (R64, R65). -/
theorem decodeOn_none {p : Port} {w : CmdWord}
    (h : ∀ payload i, decodeCommand w payload = .ok i → i.port ≠ p) :
    payloadOn p w = 0 ∧ ∀ payload, decodeOn p w payload = none := by
  constructor
  · unfold payloadOn
    split
    · rename_i hpo
      by_contra hn
      obtain ⟨payload, i, hi⟩ := decodable_of_payloadCount (Nat.pos_of_ne_zero hn)
      exact h payload i hi (by rw [← (port_of_decodeCommand hi).1, hpo])
    · rfl
  · intro payload
    unfold decodeOn
    split
    · rename_i i hi
      rw [if_neg (h payload i hi)]
    · rfl

end Sys2Proof.Machine
end

