-- ==== Sys2Proof/Laws/Interleave.lean ====
section
/-! SUPPORT. The sequencer among the other agents: with the pads owned and no failing pad, each procedure goes on to
its end whatever the agenda lists, and its own events stay whole and in order between the others' (R47, R204).
Provers cite `sendByte_along`, `sendSeq_along`, `seqWrite_along`, `seqZero_along`,
`refreshBody_along` and compose with `Along.trans`. -/

namespace Sys2Proof.Machine

open Sys2Proof.Config (width height npages fbSize)

/-! ## Interleaved lists -/

theorem Interleaved.refl (own : List Event) : Interleaved own own := ⟨List.Sublist.refl _, rfl⟩

theorem Interleaved.append {a b es fs : List Event} (h : Interleaved a es) (k : Interleaved b fs) :
    Interleaved (a ++ b) (es ++ fs) :=
  ⟨h.inOrder.append k.inOrder, by rw [List.filter_append, List.filter_append, h.nothingElse, k.nothingElse]⟩

/-- The events of the other agents only. -/
theorem Interleaved.of_others {es : List Event} (h : ∀ e ∈ es, isSeqEvent e = false) : Interleaved [] es :=
  ⟨List.nil_sublist _, by simpa [List.filter_eq_nil_iff] using h⟩

/-! ## One run beside the other agents -/

/-- From `s` to `t` the sequencer recorded `own`, the other agents what they liked; nobody changed the pin group,
the configuration, the parameters or the oracle. -/
structure Along (own : List Event) (s t : State) : Prop where
  trace : ∃ es, t.trace = s.trace ++ es ∧ Interleaved own es
  pinreg : t.pinreg = s.pinreg
  prs : t.prs = s.prs
  cfg : t.cfg = s.cfg
  lc : t.lc = s.lc
  dead : t.dead = s.dead
  params : t.params = s.params
  dlyCfg : t.dlyCfg = s.dlyCfg
  oracle : t.inp.pinFault = s.inp.pinFault
  single : SingleCopy s → SingleCopy t

theorem Along.refl (s : State) : Along [] s s :=
  ⟨⟨[], by simp, Interleaved.refl []⟩, rfl, rfl, rfl, rfl, rfl, rfl, rfl, rfl, id⟩

theorem Along.trans {a b : List Event} {s t u : State} (h : Along a s t) (k : Along b t u) : Along (a ++ b) s u := by
  obtain ⟨es, he, hi⟩ := h.trace
  obtain ⟨fs, hf, hj⟩ := k.trace
  exact ⟨⟨es ++ fs, by rw [hf, he, List.append_assoc], hi.append hj⟩, k.pinreg.trans h.pinreg, k.prs.trans h.prs,
    k.cfg.trans h.cfg, k.lc.trans h.lc, k.dead.trans h.dead, k.params.trans h.params, k.dlyCfg.trans h.dlyCfg,
    k.oracle.trans h.oracle, k.single ∘ h.single⟩

/-- A boundary, whatever the agenda lists for it. -/
theorem boundary_along (s : State) : Along [] s (boundary .seq s) := by
  have h := boundary_elsewhere .seq s
  obtain ⟨es, he, ho⟩ := h.trace
  refine ⟨⟨es.reverse, by simp [State.trace, he], Interleaved.of_others fun e hm => ?_⟩, h.pinreg, h.prs, h.cfg,
    h.lc, h.dead, h.params, h.dlyCfg, h.pinFault, h.single⟩
  rcases ho e (by simpa using hm) with ⟨a, v, rfl⟩ | ⟨g, a, v, hg, rfl⟩
  · rfl
  · simpa [isSeqEvent] using hg

/-- What a transaction needs of a state among other agents: Ready without an empty agenda. -/
structure Steady (s : State) : Prop extends OwnsPins s where
  oracle : s.inp.pinFault = []

theorem Along.steady {own : List Event} {s t : State} (h : Along own s t) (k : Steady s) : Steady t :=
  ⟨⟨h.prs.trans k.prs, fun r => h.pinreg ▸ k.named r, fun r q => h.pinreg ▸ k.distinct r q⟩, h.oracle.trans k.oracle⟩

/-- A change of fields that `Along` does not mention. -/
theorem Along.of_same {own : List Event} {s t u : State} (h : Along own s t)
    (e : u = { t with seqr := u.seqr, pads := u.pads }) : Along own s u := by
  rw [e]
  exact ⟨h.trace, h.pinreg, h.prs, h.cfg, h.lc, h.dead, h.params, h.dlyCfg, h.oracle,
    fun k => ⟨(h.single k).contents, (h.single k).reads⟩⟩

/-! ## The micro-steps -/

/-- A PinWrite with the pads owned and no failing pad (R80). -/
theorem pinWrite_along {s : State} (h : Steady s) (r : Role) (v : Level) :
    ∃ t, pinWrite r v s = .ok t ∧ Along [.pin r (s.pinreg.get r) v] s t ∧ t.seqr = s.seqr := by
  have hb := boundary_along s
  have he := boundary_elsewhere .seq s
  have k := hb.steady h
  obtain ⟨p, hp⟩ := padOf_isSome (s := boundary .seq s) (k.named r)
  refine ⟨emit (.pin r ((boundary .seq s).pinreg.get r) v)
    (setPad ((boundary .seq s).pinreg.get r) { p with drv := .driven v } (boundary .seq s)), ?_, ?_, ?_⟩
  · simp [pinWrite, pinDrive, k.prs, hp, askOracle_never k.oracle]
  · refine (hb.trans (b := [.pin r (s.pinreg.get r) v]) (t := boundary .seq s) ?_)
    refine ⟨⟨[.pin r (s.pinreg.get r) v], ?_, Interleaved.refl _⟩, rfl, rfl, rfl, rfl, rfl, rfl, rfl, rfl,
      fun c => ⟨c.contents, c.reads⟩⟩
    rw [← he.pinreg]
    simp [State.trace, emit, setPad]
  · exact he.seqr

/-- `Wait(t)` (R81). -/
theorem wait_along (d : Nat) (s : State) :
    ∃ t, wait d s = .ok t ∧ Along (delayEvents d) s t ∧ t.seqr = s.seqr := by
  unfold wait delayEvents
  split
  · exact ⟨s, rfl, Along.refl s, rfl⟩
  · refine ⟨_, rfl, (boundary_along s).trans (b := [.wait d]) ?_, (boundary_elsewhere .seq s).seqr⟩
    exact ⟨⟨[.wait d], by simp [State.trace, emit], Interleaved.refl _⟩, rfl, rfl, rfl, rfl, rfl, rfl, rfl, rfl,
      fun c => ⟨c.contents, c.reads⟩⟩

/-- A framebuffer write of SEQ. -/
theorem seqWrite_along {a : Nat} (ha : a < Config.fbSize) (v : Byte) (s : State) :
    ∃ t, seqWrite a v s = .ok t ∧ Along [.fbWrite .seq a v] s t := by
  refine ⟨_, by rw [seqWrite, if_pos ha], (boundary_along s).trans (b := [.fbWrite .seq a v]) ?_⟩
  exact ⟨⟨[.fbWrite .seq a v], by simp [State.trace, memWrite, emit], Interleaved.refl _⟩, rfl, rfl, rfl, rfl, rfl,
    rfl, rfl, rfl, fun c => c.memWrite .seq a v⟩

/-- A framebuffer read of SEQ: it returns some byte v, which its event records. -/
theorem seqRead_along {a : Nat} (ha : a < Config.fbSize) (k : Byte → State → Res) (s : State) :
    ∃ t v, seqRead a k s = k v t ∧ Along [.fbRead a v] s t := by
  refine ⟨_, _, by rw [seqRead, if_pos ha], (boundary_along s).trans (b := [.fbRead a _]) ?_⟩
  have e : ∀ u, SingleCopy u → SingleCopy (memRead a u).2 := fun u c => c.memRead a
  unfold memRead
  unfold memRead at e
  have e := e (boundary .seq s)
  split at e
  all_goals
    exact ⟨⟨[.fbRead a _], by simp [State.trace, emit, drawByte], Interleaved.refl _⟩, rfl, rfl, rfl, rfl, rfl,
      rfl, rfl, rfl, e⟩

/-! ## The procedures of the PHY -/

/-- A pin write and its delay (R86). -/
theorem write_along {s : State} (h : Steady s) (r : Role) (v : Level) (rest : List (State → Res)) :
    ∃ t, runAll (pinWrite r v :: delay :: rest) s = runAll rest t ∧
      Along (writeEvents s.pinreg s.dlyCfg.toNat r v) s t ∧ t.seqr = s.seqr := by
  obtain ⟨t, ht, at', st⟩ := pinWrite_along h r v
  obtain ⟨u, hu, au, su⟩ := wait_along t.dlyCfg.toNat t
  refine ⟨u, by rw [runAll_step ht, runAll_step (show delay t = .ok u from hu)], ?_, su.trans st⟩
  have := at'.trans au
  rwa [at'.dlyCfg] at this

/-- One bit cell (R83). -/
theorem bitCell_along {s : State} (h : Steady s) (i : Nat) :
    ∃ t, bitCell i s = .ok t ∧ Along (cellEvents s.pinreg s.dlyCfg.toNat (s.seqr.sr.getLsbD 7)) s t ∧
      t.seqr.sr = s.seqr.sr <<< 1 := by
  have a0 : Along [] s (setBitcnt i s) := (Along.refl s).of_same rfl
  obtain ⟨t1, h1, a1, q1⟩ := write_along (a0.steady h) .clk false [dataWrite, delay, pinWrite .clk true, delay,
    update shiftSr]
  have a1 := a0.trans a1
  obtain ⟨t2, h2, a2, q2⟩ := write_along (a1.steady h) .dout (t1.seqr.sr.getLsbD 7)
    [pinWrite .clk true, delay, update shiftSr]
  have e2 : runAll (dataWrite :: delay :: [pinWrite .clk true, delay, update shiftSr]) t1 =
      runAll [pinWrite .clk true, delay, update shiftSr] t2 := h2
  have a2' := a1.trans a2
  obtain ⟨t3, h3, a3, q3⟩ := write_along (a2'.steady h) .clk true [update shiftSr]
  refine ⟨shiftSr t3, ?_, ?_, ?_⟩
  · unfold bitCell
    rw [runAll_step (update_apply _ _), h1, e2, h3]
    rfl
  · have hsr : t1.seqr.sr = s.seqr.sr := by rw [q1]; rfl
    have := (a2'.trans a3).of_same (u := shiftSr t3) rfl
    rw [hsr, a1.pinreg, a1.dlyCfg, a2'.pinreg, a2'.dlyCfg] at this
    simpa [cellEvents] using this
  · show t3.seqr.sr <<< 1 = _
    rw [q3, q2, q1]
    rfl

/-- Bit cells for the indices of a list (R83). -/
theorem bitCells_along {s : State} (h : Steady s) (is : List Nat) (rest : List (State → Res)) :
    ∃ t, runAll (is.map bitCell ++ rest) s = runAll rest t ∧
      Along ((List.range is.length).flatMap fun k =>
        cellEvents s.pinreg s.dlyCfg.toNat ((s.seqr.sr <<< k).getLsbD 7)) s t := by
  induction is generalizing s with
  | nil => exact ⟨s, rfl, Along.refl s⟩
  | cons i is ih =>
    obtain ⟨t, ht, a, q⟩ := bitCell_along h i
    obtain ⟨u, hu, b⟩ := ih (a.steady h)
    refine ⟨u, ?_, ?_⟩
    · rw [List.map_cons, List.cons_append, runAll_step ht, hu]
    · have := a.trans b
      rw [a.pinreg, a.dlyCfg, q] at this
      simpa [List.range_succ_eq_map, List.flatMap_map, ← BitVec.shiftLeft_add, Nat.add_comm] using this

/-- `SendByte` among the other agents (R83): it goes on to its end and its events are those of the transaction. -/
theorem sendByte_along {s : State} (h : Steady s) (b : Byte) (isData : Bool) :
    ∃ t, sendByte b isData s = .ok t ∧ Along (byteEvents s.params s.pinreg s.dlyCfg.toNat b isData) s t := by
  obtain ⟨t1, h1, a1, -⟩ := write_along h .dc (selectLevel s.params isData)
    (update (loadSr b) :: ([7, 6, 5, 4, 3, 2, 1, 0].map bitCell ++ [selectWrite true, delay]))
  have a1' := a1.of_same (u := loadSr b t1) rfl
  obtain ⟨t2, h2, a2⟩ := bitCells_along (a1'.steady h) [7, 6, 5, 4, 3, 2, 1, 0] [selectWrite true, delay]
  have a2' := a1'.trans a2
  obtain ⟨t3, h3, a3, -⟩ := write_along (a2'.steady h) .dc (selectLevel t2.params true) []
  refine ⟨t3, ?_, ?_⟩
  · have e1 : sendByte b isData s = runAll (pinWrite .dc (selectLevel s.params isData) :: delay ::
      (update (loadSr b) :: ([7, 6, 5, 4, 3, 2, 1, 0].map bitCell ++ [selectWrite true, delay]))) s := rfl
    have e3 : runAll [selectWrite true, delay] t2 = runAll [] t3 := h3
    rw [e1, h1, runAll_step (update_apply _ _), h2, e3, runAll_nil]
  · have := a2'.trans a3
    rw [a2'.pinreg, a2'.dlyCfg, a2'.params, a1'.pinreg, a1'.dlyCfg] at this
    have hsr : (loadSr b t1).seqr.sr = b := rfl
    rw [hsr] at this
    have hb : ∀ k, k < 8 → (b <<< k).getLsbD 7 = b.getLsbD (7 - k) := fun k hk => by
      rw [BitVec.getLsbD_shiftLeft]
      simp only [show ¬ 7 < k by omega, decide_false, Bool.not_false, Nat.reduceLT, decide_true, Bool.true_and]
    have h8 : ([7, 6, 5, 4, 3, 2, 1, 0] : List Nat).length = 8 := rfl
    rw [h8] at this
    simp only [List.range, List.range.loop, List.flatMap_cons, List.flatMap_nil, hb, Nat.reduceLT,
      selectLevel, if_true] at this
    simpa [byteEvents, Config.Params.dcCmd] using this

/-- `SendSeq` among the other agents (R91). -/
theorem sendSeqFrom_along {s : State} (h : Steady s) (isData : Bool) (k : Nat) (bytes : List Byte) :
    ∃ t, sendSeqFrom isData k bytes s = .ok t ∧
      Along (bytesEvents s.params s.pinreg s.dlyCfg.toNat bytes isData) s t := by
  induction bytes generalizing s k with
  | nil => exact ⟨s, rfl, Along.refl s⟩
  | cons b bs ih =>
    have a0 : Along [] s (setIdx k s) := (Along.refl s).of_same rfl
    obtain ⟨t, ht, a⟩ := sendByte_along (a0.steady h) b isData
    have a' := a0.trans a
    obtain ⟨u, hu, c⟩ := ih (a'.steady h) (k + 1)
    refine ⟨u, by simp only [sendSeqFrom, ht, Res.andThen_ok, hu], ?_⟩
    have := a'.trans c
    rw [a'.params, a'.pinreg, a'.dlyCfg] at this
    simpa [bytesEvents] using this

/-! ## REFRESH and the zeroing -/

/-- The columns of one page: each byte is read, then sent (R163). -/
theorem refreshColumns_along {s : State} (h : Steady s) (q : Nat) (cs : List Nat)
    (hq : ∀ c ∈ cs, q * width + c < fbSize) (hnd : cs.Nodup) (v0 : Nat → Byte) :
    ∃ (t : State) (v : Nat → Byte), runAll (cs.map fun col => refreshColumn q col) s = .ok t ∧
      (∀ a, (∀ c ∈ cs, a ≠ q * width + c) → v a = v0 a) ∧
      Along (cs.flatMap fun col => .fbRead (q * width + col) (v (q * width + col)) ::
        byteEvents s.params s.pinreg s.dlyCfg.toNat (v (q * width + col)) true) s t := by
  induction cs generalizing s v0 with
  | nil => exact ⟨s, v0, rfl, fun _ _ => rfl, Along.refl s⟩
  | cons c cs ih =>
    have a0 : Along [] s (setCol c s) := (Along.refl s).of_same rfl
    obtain ⟨t1, w, h1, a1⟩ := seqRead_along (hq c (by simp)) (fun v => sendByte v true) (setCol c s)
    have a1 := a0.trans a1
    obtain ⟨t2, h2, a2⟩ := sendByte_along (a1.steady h) w true
    have a2 := a1.trans a2
    obtain ⟨t3, v, h3, hv, a3⟩ := ih (a2.steady h) (fun c hc => hq c (by simp [hc])) (List.nodup_cons.1 hnd).2
      (fun a => if a = q * width + c then w else v0 a)
    have hvc : v (q * width + c) = w := by
      rw [hv]
      · simp
      · intro d hd he
        have : c = d := by omega
        exact (List.nodup_cons.1 hnd).1 (this ▸ hd)
    refine ⟨t3, v, ?_, ?_, ?_⟩
    · rw [List.map_cons, runAll_step (show refreshColumn q c s = .ok t2 by rw [refreshColumn, h1, h2]), h3]
    · intro a ha
      rw [hv a (fun d hd => ha d (by simp [hd]))]
      simp [ha c (by simp)]
    · have := a2.trans a3
      rw [a2.params, a2.pinreg, a2.dlyCfg, a1.params, a1.pinreg, a1.dlyCfg] at this
      simpa [hvc] using this

/-- No page is skipped at this size (R58): a page is its addressing triple and its columns. -/
theorem refreshPage_eq {pg : Nat} (hpg : pg < npages) (s : State) :
    refreshPage pg s = (sendSeq (addressing s.params pg) false (setPg pg s)).andThen
      (runAll ((List.range width).map fun col => refreshColumn (npages - 1 - pg) col)) := by
  have h : ¬ ((fbPageOf pg + 1) * width > fbSize) := by
    have e0 : fbPageOf pg = 7 - pg := rfl
    have e1 : npages = 8 := rfl
    have e2 : width = 128 := rfl
    have e3 : fbSize = 1024 := rfl
    rw [e0, e2, e3]
    omega
  exact if_neg h

/-- One hardware page (R163). -/
theorem refreshPage_along {s : State} (h : Steady s) {pg : Nat} (hpg : pg < npages) :
    ∃ (t : State) (v : Nat → Byte), refreshPage pg s = .ok t ∧
      Along (pageEvents s.params s.pinreg s.dlyCfg.toNat v pg) s t := by
  have hpg' : pg < 8 := hpg
  have a0 : Along [] s (setPg pg s) := (Along.refl s).of_same rfl
  obtain ⟨t1, h1, a1⟩ := sendSeqFrom_along (a0.steady h) false 0 (addressing (setPg pg s).params pg)
  have a1 := a0.trans a1
  have hq : ∀ c ∈ List.range width, (npages - 1 - pg) * width + c < fbSize := fun c hc => by
    have hc' := List.mem_range.1 hc
    have e1 : npages = 8 := rfl
    have e2 : width = 128 := rfl
    have e3 : fbSize = 1024 := rfl
    rw [e2] at hc'
    rw [e1, e2, e3]
    omega
  obtain ⟨t2, v, h2, -, a2⟩ := refreshColumns_along (a1.steady h) (npages - 1 - pg) (List.range width) hq
    List.nodup_range (fun _ => 0)
  refine ⟨t2, v, ?_, ?_⟩
  · rw [refreshPage_eq hpg, sendSeq]
    exact (congrArg (fun r => Res.andThen r _) h1).trans ((Res.andThen_ok _ _).trans h2)
  · have := a1.trans a2
    rw [a1.params, a1.pinreg, a1.dlyCfg] at this
    unfold pageEvents
    exact this

theorem flatMap_congr_mem {l : List Nat} {f k : Nat → List Event} (h : ∀ c ∈ l, f c = k c) :
    l.flatMap f = l.flatMap k := by
  induction l with
  | nil => rfl
  | cons x l ih =>
    simp only [List.flatMap_cons]
    rw [h x (by simp), ih fun c hc => h c (by simp [hc])]

/-- A page's events depend on its own 128 bytes only. -/
theorem pageEvents_congr (p : Config.Params) (g : PinGroup) (d : Nat) {v w : Nat → Byte} {pg : Nat}
    (h : ∀ a, (npages - 1 - pg) * width ≤ a → a < (npages - 1 - pg) * width + width → v a = w a) :
    pageEvents p g d v pg = pageEvents p g d w pg := by
  unfold pageEvents
  congr 1
  refine flatMap_congr_mem fun c hc => ?_
  have hc' := List.mem_range.1 hc
  simp only
  rw [h _ (by omega) (by omega)]

/-- The hardware pages n-1 down to 0 (R163). -/
theorem refreshPages_along {s : State} (h : Steady s) (n : Nat) (hn : n ≤ npages) :
    ∃ (t : State) (v : Nat → Byte), runAll ((List.range n).reverse.map refreshPage) s = .ok t ∧
      Along ((List.range n).reverse.flatMap (pageEvents s.params s.pinreg s.dlyCfg.toNat v)) s t := by
  induction n generalizing s with
  | zero => exact ⟨s, fun _ => 0, rfl, Along.refl s⟩
  | succ n ih =>
    obtain ⟨t1, v1, h1, a1⟩ := refreshPage_along h (pg := n) (by omega)
    obtain ⟨t2, v2, h2, a2⟩ := ih (a1.steady h) (by omega)
    have hn8 : n + 1 ≤ 8 := hn
    let v : Nat → Byte := fun a =>
      if (npages - 1 - n) * width ≤ a ∧ a < (npages - 1 - n) * width + width then v1 a else v2 a
    have er : (List.range (n + 1)).reverse = n :: (List.range n).reverse := by simp [List.range_succ]
    refine ⟨t2, v, ?_, ?_⟩
    · rw [er, List.map_cons, runAll_step h1, h2]
    · have := a1.trans a2
      rw [a1.params, a1.pinreg, a1.dlyCfg] at this
      rw [er, List.flatMap_cons,
        pageEvents_congr (w := v1) _ _ _ fun a h1 h2 => if_pos ⟨h1, h2⟩,
        flatMap_congr_mem (k := pageEvents s.params s.pinreg s.dlyCfg.toNat v2) fun c hc => ?_]
      · exact this
      · have hc' := List.mem_range.1 (List.mem_reverse.1 hc)
        refine pageEvents_congr _ _ _ fun a h1 h2 => if_neg ?_
        have e1 : npages = 8 := rfl
        have e2 : width = 128 := rfl
        rw [e1, e2] at h1 h2 ⊢
        omega

/-- `RefreshBody()` among the other agents (R163, R48): all its transactions, in order, each data byte read just
before it is sent. -/
theorem refreshBody_along {s : State} (h : Steady s) :
    ∃ (t : State) (v : Nat → Byte), refreshBody s = .ok t ∧
      Along (refreshEvents s.params s.pinreg s.dlyCfg.toNat v) s t :=
  refreshPages_along h npages (Nat.le_refl _)

/-- SEQ's zeroing of a list of addresses among the other agents (R164). -/
theorem seqWrites_along (as : List Nat) (h : ∀ a ∈ as, a < fbSize) (v : Byte) (s : State) :
    ∃ t, runAll (as.map fun a => seqWrite a v) s = .ok t ∧ Along (as.map fun a => .fbWrite .seq a v) s t := by
  induction as generalizing s with
  | nil => exact ⟨s, rfl, Along.refl s⟩
  | cons a as ih =>
    obtain ⟨t, ht, b⟩ := seqWrite_along (h a (by simp)) v s
    obtain ⟨u, hu, c⟩ := ih (fun d hd => h d (by simp [hd])) t
    exact ⟨u, by rw [List.map_cons, runAll_step ht, hu], b.trans c⟩

/-- `for a = 0 to FBSIZE - 1: MemWrite(a, 1, 0x00)` among the other agents (R164). -/
theorem seqZero_along (s : State) : ∃ t, seqZero s = .ok t ∧ Along (fillEvents .seq 0x00) s t :=
  seqWrites_along (List.range fbSize) (fun _ ha => List.mem_range.1 ha) 0x00 s

end Sys2Proof.Machine
end

