-- ==== Sys2Proof/Laws/Phy.lean ====
section
/-! SUPPORT. What one transaction of the PHY does when no other agent acts and the pads are owned, as one
closed form of the state. -/

namespace Sys2Proof.Machine

/-! ## The shape of what the PHY does: its registers, the pads, the trace -/

abbrev Pads := Vector Pad Config.padCount

/-- A state with the sequencer's registers and the pads replaced and events added, newest first. -/
def wired (q : SeqRegs) (P : Pads) (es : List Event) (s : State) : State :=
  { s with seqr := q, pads := P, traceRev := es ++ s.traceRev }

@[simp] theorem wired_pinreg (q : SeqRegs) (P : Pads) (es : List Event) (s : State) :
    (wired q P es s).pinreg = s.pinreg := rfl
@[simp] theorem wired_prs (q : SeqRegs) (P : Pads) (es : List Event) (s : State) :
    (wired q P es s).prs = s.prs := rfl
@[simp] theorem wired_cfg (q : SeqRegs) (P : Pads) (es : List Event) (s : State) :
    (wired q P es s).cfg = s.cfg := rfl
@[simp] theorem wired_lc (q : SeqRegs) (P : Pads) (es : List Event) (s : State) :
    (wired q P es s).lc = s.lc := rfl
@[simp] theorem wired_fb (q : SeqRegs) (P : Pads) (es : List Event) (s : State) :
    (wired q P es s).fb = s.fb := rfl
@[simp] theorem wired_slock (q : SeqRegs) (P : Pads) (es : List Event) (s : State) :
    (wired q P es s).slock = s.slock := rfl
@[simp] theorem wired_owner (q : SeqRegs) (P : Pads) (es : List Event) (s : State) :
    (wired q P es s).owner = s.owner := rfl
@[simp] theorem wired_mapped (q : SeqRegs) (P : Pads) (es : List Event) (s : State) :
    (wired q P es s).mapped = s.mapped := rfl
@[simp] theorem wired_busy (q : SeqRegs) (P : Pads) (es : List Event) (s : State) :
    (wired q P es s).busy = s.busy := rfl
@[simp] theorem wired_rbusy (q : SeqRegs) (P : Pads) (es : List Event) (s : State) :
    (wired q P es s).rbusy = s.rbusy := rfl
@[simp] theorem wired_status (q : SeqRegs) (P : Pads) (es : List Event) (s : State) :
    (wired q P es s).status = s.status := rfl
@[simp] theorem wired_seqr (q : SeqRegs) (P : Pads) (es : List Event) (s : State) :
    (wired q P es s).seqr = q := rfl
@[simp] theorem wired_ras (q : SeqRegs) (P : Pads) (es : List Event) (s : State) :
    (wired q P es s).ras = s.ras := rfl
@[simp] theorem wired_pads (q : SeqRegs) (P : Pads) (es : List Event) (s : State) :
    (wired q P es s).pads = P := rfl
@[simp] theorem wired_traceRev (q : SeqRegs) (P : Pads) (es : List Event) (s : State) :
    (wired q P es s).traceRev = es ++ s.traceRev := rfl
@[simp] theorem wired_tdreq (q : SeqRegs) (P : Pads) (es : List Event) (s : State) :
    (wired q P es s).tdreq = s.tdreq := rfl
@[simp] theorem wired_dead (q : SeqRegs) (P : Pads) (es : List Event) (s : State) :
    (wired q P es s).dead = s.dead := rfl
@[simp] theorem wired_dlyCfg (q : SeqRegs) (P : Pads) (es : List Event) (s : State) :
    (wired q P es s).dlyCfg = s.dlyCfg := rfl
@[simp] theorem wired_params (q : SeqRegs) (P : Pads) (es : List Event) (s : State) :
    (wired q P es s).params = s.params := rfl
@[simp] theorem wired_inp (q : SeqRegs) (P : Pads) (es : List Event) (s : State) :
    (wired q P es s).inp = s.inp := rfl
@[simp] theorem wired_answer (q : SeqRegs) (P : Pads) (es : List Event) (s : State) :
    (wired q P es s).answer = s.answer := rfl
@[simp] theorem wired_extByte (q : SeqRegs) (P : Pads) (es : List Event) (s : State) :
    (wired q P es s).extByte = s.extByte := rfl
@[simp] theorem wired_draws (q : SeqRegs) (P : Pads) (es : List Event) (s : State) :
    (wired q P es s).draws = s.draws := rfl

theorem wired_wired (q q' : SeqRegs) (P P' : Pads) (es es' : List Event) (s : State) :
    wired q' P' es' (wired q P es s) = wired q' P' (es' ++ es) s := by
  simp [wired]

theorem pinned_eq (r : Role) (v : Level) (s : State) :
    pinned r v s =
      wired s.seqr (drivePad s.pads (s.pinreg.get r) v) [.pin r (s.pinreg.get r) v] s := rfl

/-- The state after `Wait(DLY)` alone. -/
def delayed (s : State) : State := wired s.seqr s.pads (delayEvents s.dlyCfg.toNat) s

theorem delay_alone {s : State} (h : s.inp.agenda = []) : delay s = .ok (delayed s) :=
  wait_alone _ h

/-! ## Pads -/

theorem drivePad_same (pads : Vector Pad Config.padCount) (id : PinId) (v w : Level) :
    drivePad (drivePad pads id v) id w = drivePad pads id w := by
  apply Vector.ext
  intro i hi
  have hi' : i < 255 := hi
  have h1 := getElem?_drivePad (drivePad pads id v) id (BitVec.ofNat 8 i) w
  have h2 := getElem?_drivePad pads id (BitVec.ofNat 8 i) v
  have h3 := getElem?_drivePad pads id (BitVec.ofNat 8 i) w
  have hm : (BitVec.ofNat 8 i).toNat = i := by simp; omega
  rw [hm] at h1 h2 h3
  rw [h2] at h1
  by_cases hc : BitVec.ofNat 8 i = id
  · simp only [hc, if_true] at h1 h3
    have : (drivePad (drivePad pads id v) id w)[i]? = (drivePad pads id w)[i]? := by
      rw [h1, h3]; cases pads[i]? <;> rfl
    simpa [hi] using this
  · simp only [hc, if_false] at h1 h3
    have : (drivePad (drivePad pads id v) id w)[i]? = (drivePad pads id w)[i]? := by rw [h1, h3]
    simpa [hi] using this

theorem drivePad_comm (pads : Vector Pad Config.padCount) {id jd : PinId} (v w : Level) (hne : id ≠ jd) :
    drivePad (drivePad pads id v) jd w = drivePad (drivePad pads jd w) id v := by
  apply Vector.ext
  intro i hi
  have hi' : i < 255 := hi
  have hm : (BitVec.ofNat 8 i).toNat = i := by simp; omega
  have h1 := getElem?_drivePad (drivePad pads id v) jd (BitVec.ofNat 8 i) w
  have h2 := getElem?_drivePad pads id (BitVec.ofNat 8 i) v
  have h3 := getElem?_drivePad (drivePad pads jd w) id (BitVec.ofNat 8 i) v
  have h4 := getElem?_drivePad pads jd (BitVec.ofNat 8 i) w
  rw [hm] at h1 h2 h3 h4
  have : (drivePad (drivePad pads id v) jd w)[i]? = (drivePad (drivePad pads jd w) id v)[i]? := by
    rw [h1, h3, h2, h4]
    by_cases hc : BitVec.ofNat 8 i = id
    · have hd : BitVec.ofNat 8 i ≠ jd := fun hd => hne (hc.symm.trans hd)
      simp [hc, hne]
    · simp [hc]
  simpa [hi] using this

/-! ## One transaction -/

/-- The premises of a transaction. -/
structure Ready (s : State) : Prop extends Alone s, OwnsPins s

theorem Ready.wired {s : State} (h : Ready s) (q : SeqRegs) (P : Pads) (es : List Event) :
    Ready (wired q P es s) :=
  ⟨⟨h.agenda, h.oracle⟩, ⟨h.prs, h.named, h.distinct⟩⟩

theorem delayEvents_reverse (d : Nat) : (delayEvents d).reverse = delayEvents d := by
  unfold delayEvents; split <;> rfl

/-- The state after a pin write and its delay, alone. -/
def wrote (r : Role) (v : Level) (s : State) : State :=
  wired s.seqr (drivePad s.pads (s.pinreg.get r) v)
    (writeEvents s.pinreg s.dlyCfg.toNat r v).reverse s

theorem delayed_pinned (r : Role) (v : Level) (s : State) :
    delayed (pinned r v s) = wrote r v s := by
  rw [delayed, pinned_eq, wired_wired]
  simp [wrote, writeEvents, delayEvents_reverse]

theorem Ready.wrote {s : State} (h : Ready s) (r : Role) (v : Level) : Ready (wrote r v s) :=
  h.wired _ _ _

/-- A pin write and its delay, alone (R80, R86). -/
theorem runAll_write {s : State} (h : Ready s) (r : Role) (v : Level) (rest : List (State → Res)) :
    runAll (pinWrite r v :: delay :: rest) s = runAll rest (wrote r v s) := by
  rw [runAll_step (pinWrite_alone r v h.toAlone h.prs (h.named r)),
    runAll_step (delay_alone (by exact h.agenda)), delayed_pinned]

theorem runAll_select {s : State} (h : Ready s) (isData : Bool) (rest : List (State → Res)) :
    runAll (selectWrite isData :: delay :: rest) s =
      runAll rest (wrote .dc (selectLevel s.params isData) s) :=
  runAll_write h .dc _ rest

theorem runAll_data {s : State} (h : Ready s) (rest : List (State → Res)) :
    runAll (dataWrite :: delay :: rest) s = runAll rest (wrote .dout (s.seqr.sr.getLsbD 7) s) :=
  runAll_write h .dout _ rest

/-- The state after `n` bit cells alone, the last of them with BITCNT = i. -/
def cellsDone (n i : Nat) (s : State) : State :=
  wired { s.seqr with sr := s.seqr.sr <<< n, bitcnt := BitVec.ofNat 3 i }
    (drivePad (drivePad s.pads s.pinreg.clk true) s.pinreg.dout (s.seqr.sr.getLsbD (8 - n)))
    ((List.range n).flatMap fun k =>
      cellEvents s.pinreg s.dlyCfg.toNat (s.seqr.sr.getLsbD (7 - k))).reverse s

theorem Ready.cellsDone {s : State} (h : Ready s) (n i : Nat) : Ready (cellsDone n i s) :=
  h.wired _ _ _

theorem bitCell_ready {s : State} (h : Ready s) (i : Nat) : bitCell i s = .ok (cellsDone 1 i s) := by
  have hne : s.pinreg.dout ≠ s.pinreg.clk := fun he => by
    have := h.distinct .dout .clk he; cases this
  have e0 : setBitcnt i s = wired { s.seqr with bitcnt := BitVec.ofNat 3 i } s.pads [] s := rfl
  have r0 : Ready (setBitcnt i s) := by rw [e0]; exact h.wired _ _ _
  unfold bitCell
  rw [runAll_step (update_apply _ _), runAll_write r0, runAll_data (r0.wrote _ _),
    runAll_write ((r0.wrote _ _).wrote _ _), runAll_step (update_apply _ _), runAll_nil]
  congr 1
  have es : ∀ t, shiftSr t = wired { t.seqr with sr := t.seqr.sr <<< 1 } t.pads [] t := fun _ => rfl
  rw [es]
  simp only [Machine.wrote, e0, wired_wired, Machine.cellsDone, wired_seqr, wired_pads, wired_pinreg, wired_dlyCfg,
    PinGroup.get]
  rw [drivePad_comm _ _ _ hne, drivePad_same]
  simp [cellEvents, List.range_succ]

theorem cellsDone_cellsDone {s : State} (h : Ready s) {n : Nat} (i j : Nat) (hn : n ≤ 7) :
    cellsDone 1 j (cellsDone n i s) = cellsDone (n + 1) j s := by
  have hne : s.pinreg.clk ≠ s.pinreg.dout := fun he => by
    have := h.distinct .clk .dout he; cases this
  have hbit : (s.seqr.sr <<< n).getLsbD 7 = s.seqr.sr.getLsbD (7 - n) := by
    rw [BitVec.getLsbD_shiftLeft]
    simp [show ¬ 7 < n by omega]
  have hs : 8 - (n + 1) = 7 - n := by omega
  simp only [cellsDone, wired_wired, wired_seqr, wired_pads, wired_pinreg, wired_dlyCfg]
  rw [hbit, drivePad_comm _ _ _ hne.symm, drivePad_same, drivePad_same, hs, List.range_succ (n := n),
    BitVec.shiftLeft_add]
  have hlt : ¬ 7 < n := by omega
  simp [List.range_succ, hlt]

/-- The eight bit cells of a transaction. -/
theorem eightCells_ready {s : State} (h : Ready s) (rest : List (State → Res)) :
    runAll (bitCell 7 :: bitCell 6 :: bitCell 5 :: bitCell 4 :: bitCell 3 :: bitCell 2 :: bitCell 1 ::
      bitCell 0 :: rest) s = runAll rest (cellsDone 8 0 s) := by
  have r : ∀ n i, Ready (cellsDone n i s) := fun n i => h.cellsDone n i
  rw [runAll_step (bitCell_ready h _),
    runAll_step (bitCell_ready (r _ _) _), cellsDone_cellsDone h _ _ (by decide),
    runAll_step (bitCell_ready (r _ _) _), cellsDone_cellsDone h _ _ (by decide),
    runAll_step (bitCell_ready (r _ _) _), cellsDone_cellsDone h _ _ (by decide),
    runAll_step (bitCell_ready (r _ _) _), cellsDone_cellsDone h _ _ (by decide),
    runAll_step (bitCell_ready (r _ _) _), cellsDone_cellsDone h _ _ (by decide),
    runAll_step (bitCell_ready (r _ _) _), cellsDone_cellsDone h _ _ (by decide),
    runAll_step (bitCell_ready (r _ _) _), cellsDone_cellsDone h _ _ (by decide)]

/-- The state after `SendByte(b, isData)` alone (R83, R87). -/
def sent (b : Byte) (isData : Bool) (s : State) : State :=
  wired { s.seqr with sr := 0, bitcnt := 0 }
    (drivePad (drivePad (drivePad s.pads s.pinreg.clk true) s.pinreg.dout (b.getLsbD 0))
      s.pinreg.dc s.params.dcData)
    (byteEvents s.params s.pinreg s.dlyCfg.toNat b isData).reverse s

/-- `SendByte` with the pads owned, no other agent and no failing pad (R83, R87). -/
theorem sendByte_ready {s : State} (h : Ready s) (b : Byte) (isData : Bool) :
    sendByte b isData s = .ok (sent b isData s) := by
  have hcs : s.pinreg.clk ≠ s.pinreg.dc := fun he => by cases h.distinct .clk .dc he
  have hds : s.pinreg.dout ≠ s.pinreg.dc := fun he => by cases h.distinct .dout .dc he
  have el : ∀ t, loadSr b t = wired { t.seqr with sr := b } t.pads [] t := fun _ => rfl
  have r1 : Ready (loadSr b (wrote .dc (selectLevel s.params isData) s)) := by
    rw [el]; exact (h.wired _ _ _).wired _ _ _
  unfold sendByte
  rw [runAll_select h, runAll_step (update_apply _ _), eightCells_ready r1,
    runAll_select (r1.cellsDone _ _), runAll_nil]
  congr 1
  simp only [Machine.wrote, el, Machine.cellsDone, Machine.sent, wired_wired, wired_seqr, wired_pads, wired_pinreg, wired_dlyCfg,
    wired_params, PinGroup.get, selectLevel, if_true]
  rw [drivePad_comm _ _ _ hcs.symm, drivePad_comm _ _ _ hds.symm, drivePad_same]
  have h8 : b <<< 8 = (0 : BitVec 8) := by
    simp [BitVec.shiftLeft_eq_zero]
  rw [h8]
  simp [byteEvents, List.range_succ, Config.Params.dcCmd]

theorem Ready.sent {s : State} (h : Ready s) (b : Byte) (isData : Bool) : Ready (sent b isData s) :=
  h.wired _ _ _

/-! ## A sequence of transactions -/

/-- The pads after a sequence: as the last byte left them (R87, R91). -/
def padsAfter (p : Config.Params) (g : PinGroup) (bytes : List Byte) (P : Pads) : Pads :=
  match bytes.getLast? with
  | none => P
  | some b => drivePad (drivePad (drivePad P g.clk true) g.dout (b.getLsbD 0)) g.dc p.dcData

/-- The pads after one transaction more. -/
theorem padsAfter_cons {s : State} (h : Ready s) (b : Byte) (bs : List Byte) :
    padsAfter s.params s.pinreg bs
        (drivePad (drivePad (drivePad s.pads s.pinreg.clk true) s.pinreg.dout (b.getLsbD 0))
          s.pinreg.dc s.params.dcData) =
      padsAfter s.params s.pinreg (b :: bs) s.pads := by
  have hcs : s.pinreg.clk ≠ s.pinreg.dc := fun he => by cases h.distinct .clk .dc he
  have hds : s.pinreg.dout ≠ s.pinreg.dc := fun he => by cases h.distinct .dout .dc he
  have hcd : s.pinreg.clk ≠ s.pinreg.dout := fun he => by cases h.distinct .clk .dout he
  cases bs with
  | nil => rfl
  | cons c cs =>
    have hl : (b :: c :: cs).getLast? = (c :: cs).getLast? := by simp [List.getLast?_cons_cons]
    unfold padsAfter
    rw [hl]
    cases hx : (c :: cs).getLast? with
    | none => simp at hx
    | some d =>
      simp only
      rw [drivePad_comm _ _ _ hcs.symm, drivePad_comm _ _ _ hds.symm, drivePad_same,
        drivePad_comm _ _ _ hcd.symm, drivePad_same, drivePad_same]

/-- `SendSeq` with the pads owned, no other agent and no failing pad (R91). -/
theorem sendSeqFrom_ready {s : State} (h : Ready s) (isData : Bool) (k : Nat) (bytes : List Byte) :
    ∃ q, sendSeqFrom isData k bytes s =
        .ok (wired q (padsAfter s.params s.pinreg bytes s.pads)
          (bytesEvents s.params s.pinreg s.dlyCfg.toNat bytes isData).reverse s) ∧
      q.pg = s.seqr.pg ∧ q.col = s.seqr.col := by
  induction bytes generalizing s k with
  | nil => exact ⟨s.seqr, rfl, rfl, rfl⟩
  | cons b bs ih =>
    have e0 : setIdx k s = wired { s.seqr with idx := BitVec.ofNat 8 k } s.pads [] s := rfl
    have r0 : Ready (setIdx k s) := by rw [e0]; exact h.wired _ _ _
    have hs := sendByte_ready r0 b isData
    obtain ⟨q, hq, hpg, hcol⟩ := ih (r0.sent b isData) (k + 1)
    refine ⟨q, ?_, hpg, hcol⟩
    simp only [sendSeqFrom, hs, Res.andThen_ok, hq]
    congr 1
    rw [← padsAfter_cons h]
    simp only [sent, e0, wired_wired, wired_pads, wired_pinreg, wired_params, wired_dlyCfg]
    simp [bytesEvents]

end Sys2Proof.Machine
end

