-- ==== Sys2Proof/Laws/Raster.lean ====
section
/-! SUPPORT. A raster operation with no other agent acting, as a fold of its steps over the state. -/

namespace Sys2Proof.Machine

/-- The steps of a raster operation in order. -/
def rasRun (ops : List RasOp) (s : State) : State := ops.foldl (fun t op => rasDo op t) s

@[simp] theorem rasRun_nil (s : State) : rasRun [] s = s := rfl
@[simp] theorem rasRun_cons (op : RasOp) (ops : List RasOp) (s : State) :
    rasRun (op :: ops) s = rasRun ops (rasDo op s) := rfl
theorem rasRun_append (ops ops' : List RasOp) (s : State) :
    rasRun (ops ++ ops') s = rasRun ops' (rasRun ops s) := by simp [rasRun]

/-- The rasteriser with an operation in flight. -/
def inFlight (ops : List RasOp) (s : State) : State :=
  { s with ras := { s.ras with ops := ops }, rbusy := !ops.isEmpty }

theorem rasStart_eq (ops : List RasOp) (s : State) : rasStart ops s = inFlight ops s := rfl

theorem inFlight_inFlight (ops ops' : List RasOp) (s : State) :
    inFlight ops (inFlight ops' s) = inFlight ops s := rfl

/-- A step does not look at the operation in flight. -/
theorem rasDo_inFlight (op : RasOp) (ops : List RasOp) (s : State) :
    rasDo op (inFlight ops s) = inFlight ops (rasDo op s) := by
  cases op with
  | ctr c v => cases c <;> rfl
  | fill a v => rfl
  | fetch a =>
    have hf : (inFlight ops s).fb = s.fb := rfl
    simp only [rasDo, memRead, hf]
    cases hr : Memory.read s.fb a <;> rfl
  | store a m set => rfl

theorem rasDo_agenda (op : RasOp) (s : State) : (rasDo op s).inp = s.inp := by
  cases op with
  | ctr c v => rfl
  | fill a v => rfl
  | fetch a => exact memRead_inp a.val s
  | store a m set => rfl

theorem rasTick_inFlight (op : RasOp) (ops : List RasOp) (s : State) :
    rasTick (inFlight (op :: ops) s) = inFlight ops (rasDo op s) := by
  show rasDo op (inFlight ops (inFlight (op :: ops) s)) = _
  rw [inFlight_inFlight, rasDo_inFlight]

/-- The operation in flight to its end, alone (R100, R55). -/
theorem rasDrain_alone (ops : List RasOp) {s : State} (h : s.inp.agenda = []) :
    rasDrain ops.length (inFlight ops s) = inFlight [] (rasRun ops s) := by
  induction ops generalizing s with
  | nil => rfl
  | cons op ops ih =>
    have hb : ∀ b : Bool, (if b then boundary .ras (inFlight (op :: ops) s) else inFlight (op :: ops) s) =
        inFlight (op :: ops) s := by
      intro b
      cases b
      · rfl
      · exact boundary_of_nil .ras h
    show rasDrain ops.length (rasTick (if op.isAccess then _ else _)) = _
    rw [hb, rasTick_inFlight, ih (by rw [rasDo_agenda]; exact h)]
    rfl

/-- With no operation in flight there is nothing to finish. -/
theorem rasFinish_idle {s : State} (h : s.ras.ops = []) : rasFinish s = s := by simp [rasFinish, h, rasDrain]

/-- A raster operation of a rasteriser that runs alone (R100). -/
theorem rasterFrame_alone (ops : List RasOp) {s : State} (h : RasterAlone s) :
    rasterFrame ops s = .next (inFlight [] (rasRun ops s)) := by
  have e := rasDrain_alone ops h.agenda
  simp only [rasterFrame, h.alive, rasFinish_idle h.idle, rasStart_eq]
  rw [if_neg (by simp), rasFinish]
  exact congrArg _ e

/-- What a run of raster steps leaves alone. -/
theorem rasRun_frame (ops : List RasOp) (s : State) :
    (rasRun ops s).inp = s.inp ∧ (rasRun ops s).dead = s.dead ∧ (rasRun ops s).ras.ops = s.ras.ops := by
  induction ops generalizing s with
  | nil => exact ⟨rfl, rfl, rfl⟩
  | cons op ops ih =>
    obtain ⟨h1, h2, h3⟩ := ih (rasDo op s)
    rw [rasRun_cons]
    refine ⟨h1.trans (rasDo_agenda op s), h2.trans ?_, h3.trans ?_⟩
    · cases op <;> simp [rasDo]
    · cases op with
      | ctr c v => cases c <;> rfl
      | fill a v => rfl
      | fetch a => simp [rasDo]
      | store a m set => rfl

end Sys2Proof.Machine
end

