-- ==== Sys2Proof/Tests/Slice0.lean ====
section
/-! SUPPORT. The model's own tests. Expected values are those of spec/95_test_vectors.md (V numbers) or of the
worked examples of the rules named; the second half shows, for every statement with hypotheses, concrete states
and operands that meet them. -/

set_option maxRecDepth 100000
set_option Elab.async false

namespace Sys2Proof.Tests

open Sys2Proof Sys2Proof.Machine
open Sys2Proof.Config (width height npages fbSize)

/-! ## Decoding: a word written out from the encoding of every row (R61, R63, R66) -/

theorem test_decode_sessionOpen : decode (.command 0x0100000000000000 []) = .ok .sessionOpen := by decide
theorem test_decode_sessionClose : decode (.command 0x0200000000000000 []) = .ok .sessionClose := by decide
theorem test_decode_configure :
    decode (.command 0x03111B0418000000 []) = .ok (.configure 17 27 4 24) := by decide
theorem test_decode_displayOn : decode (.command 0x0400000000000000 []) = .ok .displayOn := by decide
theorem test_decode_displayOff : decode (.command 0x0500000000000000 []) = .ok .displayOff := by decide
theorem test_decode_refresh : decode (.command 0x0600000000000000 []) = .ok .refresh := by decide
theorem test_decode_clear : decode (.command 0x0700000000000000 []) = .ok .clear := by decide
theorem test_decode_mapFb : decode (.command 0x0800000000001000 []) = .ok (.mapFb 4096) := by decide
theorem test_decode_bulkWrite :
    decode (.command 0x0900000003E80003 [0xEE, 0xED, 0xEC]) = .ok (.bulkWrite 1000 3 [0xEE, 0xED, 0xEC]) := by
  decide
theorem test_decode_queryInfo : decode (.command 0x0A00000000000000 []) = .ok .queryInfo := by decide
theorem test_decode_teardown : decode (.command 0x0B00000000000000 []) = .ok .teardown := by decide
theorem test_decode_fbClear : decode (.command 0x1000000000000000 []) = .ok .fbClear := by decide
theorem test_decode_fbFillWhite : decode (.command 0x1100000000000000 []) = .ok .fbFillWhite := by decide
theorem test_decode_drawPoint :
    decode (.command 0x127F3F0000000001 []) = .ok (.drawPoint 127 63 true) := by decide
theorem test_decode_drawChar :
    decode (.command 0x1300041000000302 []) = .ok (.drawChar 0 4 16 3 true false) := by decide
theorem test_decode_drawString :
    decode (.command 0x1478001000000200 [0x01, 0x02]) = .ok (.drawString 120 0 16 2 [1, 2]) := by decide
theorem test_decode_drawBitmap :
    decode (.command 0x150A080208000300 []) = .ok (.drawBitmap 10 8 2 8 3) := by decide
theorem test_decode_fillRegion :
    decode (.command 0x167E3C8246000001 []) = .ok (.fillRegion 126 60 130 70 true) := by decide
theorem test_decode_phyCmd : decode (.request 0x0A5) = .ok (.phyCmd 0xA5) := by decide
theorem test_decode_phyData : decode (.request 0x180) = .ok (.phyData 0x80) := by decide

/-- V56 and R64: reserved words are refused by name. -/
theorem test_decode_reserved :
    decode (.command 0x0000000000000000 []) = .error (.reservedOpcode 0x00) ∧
    decode (.command 0x0C00000000000000 []) = .error (.reservedOpcode 0x0C) ∧
    decode (.command 0x1700000000000000 []) = .error (.reservedOpcode 0x17) ∧
    decode (.command 0x0600000000000001 []) = .error (.mustBeZero 0x06) ∧
    decode (.command 0x1201010100000001 []) = .error (.mustBeZero 0x12) := by decide

/-- V24 as bytes (R51): the word most significant byte first, then the payload. -/
theorem test_decode_bytes :
    decodeBytes [0x14, 0x00, 0x00, 0x10, 0x00, 0x00, 0x02, 0x00, 0x28, 0x29, 0x77] =
      .ok (.drawString 0 0 16 2 [0x28, 0x29], [0x77]) := by decide

theorem test_tableWord :
    decodeTableWord 64 0x0900000000800002 = some (.bulkWrite 128 2 [0, 0]) ∧
    decodeTableWord 9 0x1FF = some (.phyData 0xFF) ∧ decodeTableWord 64 0x1900000000000000 = none := by decide

/-! ## Well-formedness: an ill-formed term for each check, and its words are refused (R68) -/

theorem test_illFormed_bulkWrite :
    Instr.wellFormed (.bulkWrite 0 3 [1, 2]) = false ∧
    decode (encode (.bulkWrite 0 3 [1, 2])) = .error (.payloadLength 3 2) := by decide

theorem test_illFormed_drawString :
    Instr.wellFormed (.drawString 0 0 16 1 []) = false ∧
    decode (encode (.drawString 0 0 16 1 [])) = .error (.payloadLength 1 0) := by decide

/-! ## States -/

/-- The outcome is a next state with the property. -/
def nextIs (o : Host.Outcome State Fault Refusal) (p : State → Bool) : Bool :=
  match o with
  | .next t => p t
  | .fault _ => false
  | .refused _ => false

/-- The outcome is this fault. -/
def stopsWith (o : Host.Outcome State Fault Refusal) (f : Fault) : Bool :=
  match o with
  | .next _ => false
  | .fault g => g == f
  | .refused _ => false

/-- The events a command added, oldest first. -/
def added (s t : State) : List Event := t.trace.drop s.traceRev.length

/-- Example parameters (95_test_vectors.md: DC_DATA = 1, the sequences of G2 and G3, MAP_GRANULE = 4096). -/
def params0 : Config.Params where
  dcData := true
  initSeq := [0xAE, 0xAF]
  pageCmd := #v[0xB0, 0xB1, 0xB2, 0xB3, 0xB4, 0xB5, 0xB6, 0xB7]
  colLoCmd := 0x00
  colHiCmd := 0x10
  onSeq := #v[0x8D, 0x14, 0xAF]
  offSeq := #v[0x8D, 0x10, 0xAE]
  validPads := [4, 5, 17, 24, 27]
  mapGranule := 4096
  tResetLow := 100000000
  tResetHigh := 0
  closePowersDown := true

/-- Reset state with the example parameters. -/
def fresh : State := { State.reset with params := params0 }

/-- `fresh` after SESSION_OPEN by client 1, with client 1's next command. -/
def opened1 : State := { fresh with slock := true, owner := 1, inp := { fresh.inp with cid := 1 } }

/-- `opened1` with the pads 17, 27, 4, 24 acquired and idle (as CONFIGURE leaves them, R135). -/
def ready1 : State :=
  { opened1 with
    pinreg := ⟨17, 27, 4, 24⟩, prs := 0b1111, cfg := true, lc := .initialized
    pads := (((opened1.pads.set 17 ⟨.self, .driven true⟩).set 27 ⟨.self, .driven true⟩).set 4
      ⟨.self, .driven true⟩).set 24 ⟨.self, .driven true⟩ }

/-- `fresh` with one byte of the framebuffer written. -/
def withByte (a : Nat) (v : Byte) : State := { fresh with fb := [(a, v)] }

/-! ## The PHY -/

/-- V1: PHY.CMD 0xA5, the 26 events. -/
theorem test_V1 :
    nextIs (exec (.phyCmd 0xA5) ready1) (fun t =>
      added ready1 t ==
        .pin .dc 24 false ::
          (([true, false, true, false, false, true, false, true] : List Bool).flatMap fun b =>
            [.pin .clk 17 false, .pin .dout 27 b, .pin .clk 17 true]) ++ [.pin .dc 24 true]) = true := by
  decide +kernel

/-- V5: with DLY = 1000 a Wait(1000) follows each of the 26 writes; V1's end state (SR = 0x00). -/
theorem test_V5 :
    nextIs (exec (.phyCmd 0x00) { ready1 with dlyCfg := 1000 }) (fun t =>
      ((added ready1 t).filter isWait).length == 26 && t.traceRev.head? == some (.wait 1000) &&
        t.seqr.sr == 0 && t.seqr.bitcnt == 0) = true := by
  decide +kernel

/-- V8: without the select pad the request is a fault of the model. -/
theorem test_V8 : stopsWith (exec (.phyData 0) { ready1 with prs := 0b0111 }) (.pinNotOwned .dc) = true := by
  decide +kernel

/-! ## The rasteriser -/

/-- V10 and V11: first and last pixel. -/
theorem test_V10_V11 :
    nextIs (exec (.drawPoint 0 0 true) (withByte 0 0)) (fun t => t.fb == [(0, 0x80)]) = true ∧
    nextIs (exec (.drawPoint 127 63 true) (withByte 1023 0)) (fun t => t.fb == [(1023, 0x01)]) = true := by
  decide

/-- V13: off-screen, no access. -/
theorem test_V13 :
    nextIs (exec (.drawPoint 128 0 true) fresh) (fun t => t.fb == [] && t.trace == []) = true ∧
    nextIs (exec (.drawPoint 0 64 true) fresh) (fun t => t.fb == [] && t.trace == []) = true := by decide

/-- V14: the bit is cleared, the other seven are kept. -/
theorem test_V14 :
    nextIs (exec (.drawPoint 5 10 false) (withByte 133 0xFF)) (fun t => t.fb == [(133, 0xDF)]) = true := by
  decide

/-- V15: the write is made although the bit has the value. -/
theorem test_V15 :
    nextIs (exec (.drawPoint 5 10 true) (withByte 133 0x20)) (fun t =>
      t.trace == [.fbRead 133 0x20, .fbWrite .ras 133 0x20]) = true := by decide

/-- V47: EXT's write between the read and the write of DRAW_POINT is lost. -/
theorem test_V47 :
    nextIs (exec (.drawPoint 0 0 true) { withByte 0 0 with
      mapped := true, inp := { fresh.inp with agenda := [[], [.extWrite 0 0x01]] } }) (fun t =>
        t.fb == [(0, 0x80)]) = true ∧
    nextIs (exec (.drawPoint 0 0 true) { withByte 0 0 with
      mapped := true, inp := { fresh.inp with agenda := [[.extWrite 0 0x01]] } }) (fun t =>
        t.fb == [(0, 0x81)]) = true := by decide

/-- V28, the picture of DRAW_BITMAP with every byte 0x81: columns 10 and 11, rows 8 to 15. -/
theorem test_V28 :
    (rasRun (blitOps 10 8 8 2 (fun _ => 0x81) true) { fresh with fb := [(138, 0x7E), (139, 0)] }).fb =
      [(138, 0x81), (139, 0x81)] := by decide +kernel

/-- V28b: 12 rows take two bytes a column, the low four bits of the second are not drawn. -/
theorem test_V28b :
    (rasRun (blitOps 0 0 12 1 (fun _ => 0xFF) true) { fresh with fb := [(0, 0), (128, 0x05)] }).fb =
      [(0, 0xFF), (128, 0xF5)] := by decide +kernel

/-- V20, the inverse with `set` clear (R250): a 1 bit clears, a 0 bit sets. -/
theorem test_V20 :
    (rasRun (blitOps 0 0 8 2 (fun k => if k = 0 then 0xFF else 0x00) false)
      { fresh with fb := [(0, 0x0F), (1, 0x0F)] }).fb = [(0, 0x00), (1, 0xFF)] := by decide +kernel

/-- The pen positions of a string: the counter writes of its steps. -/
def pen (ops : List RasOp) : List (RasCounter × Nat) :=
  ops.filterMap fun op =>
    match op with
    | .ctr .rx v => some (.rx, v)
    | .ctr .ry v => some (.ry, v)
    | .ctr .rc _ => none
    | .ctr .rr _ => none
    | .ctr .rk _ => none
    | .fill _ _ => none
    | .fetch _ => none
    | .store _ _ _ => none

/-- V25b: x = 120 does not wrap with fs = 16, x = 128 does. -/
theorem test_V25b :
    pen (stringOps 120 0 16 [1, 2]) = [(.rx, 120), (.ry, 0), (.rx, 128), (.rx, 0), (.ry, 16), (.rx, 8)] := by
  decide +kernel

/-- V27c and R106: no element, unknown font size. -/
theorem test_V27c : stringOps 0 0 16 [] = [.ctr .rx 0, .ctr .ry 0] ∧ stringOps 0 60 10 [1] = [] := by decide

/-- V29a: FILL_REGION 0, 0, 1, 3. -/
theorem test_V29a :
    nextIs (exec (.fillRegion 0 0 1 3 true) { fresh with fb := [(0, 0), (1, 0)] }) (fun t =>
      t.fb == [(0, 0xF0), (1, 0xF0)]) = true := by decide +kernel

/-- V29c: reversed corners are empty. -/
theorem test_V29c : regionOps 5 5 4 9 true = [] := by decide

/-- V16 and V17: the fills start at 0, end at 1023, one write each. -/
theorem test_fill :
    fbClearProgram.length = 1024 ∧ fbFillWhiteProgram.head? = some (.fill ⟨0, by decide⟩ 0xFF) ∧
    fbFillWhiteProgram.getLast? = some (.fill ⟨1023, by decide⟩ 0xFF) ∧ fbClearProgram.head? = some (.fill ⟨0, by decide⟩ 0x00) := by
  decide +kernel

/-! ## Lifecycle -/

/-- The answer to a rejected CONFIGURE: only the response, PINREG untouched. -/
def configRejected (clk dout rst dc : PinId) : Bool :=
  nextIs (exec (.configure clk dout rst dc) opened1) (fun t =>
    t.status == 0x01 && t.trace == [.resp 0x03 0x01] && t.pinreg == ⟨0xFF, 0xFF, 0xFF, 0xFF⟩)

/-- V31 and V32: duplicate, missing and unknown identifiers. -/
theorem test_V31 : configRejected 17 17 4 24 = true ∧ configRejected 17 27 255 24 = true ∧
    configRejected 17 27 9 24 = true := by
  decide +kernel

/-- V33: pad 4 is taken. -/
theorem test_V33 :
    nextIs (exec (.configure 17 27 4 24) { opened1 with pads := opened1.pads.set 4 ⟨.other, .z⟩ }) (fun t =>
      t.trace == [.acquire 17 true, .acquire 27 true, .acquire 4 false, .release 27, .release 17,
        .resp 0x03 0x02] &&
      t.prs == 0 && t.lc == .unbound && padOf t 17 == some ⟨.free, .z⟩ && t.status == 0x02) = true := by
  decide +kernel

/-- V34: already configured, whatever the operands. -/
theorem test_V34 :
    nextIs (exec (.configure 5 5 255 0) ready1) (fun t => added ready1 t == [.resp 0x03 0x00] && t.prs == 15) =
      true := by decide +kernel

/-- V45: DISPLAY_OFF, 78 pin writes, LC = 4; the sequence of V7's kind returns DC to data after each byte. -/
theorem test_V45 :
    nextIs (exec .displayOff ready1) (fun t =>
      (added ready1 t).length == 79 && t.lc.code == 4 && line t .dc == .driven true &&
        line t .dout == .driven false) = true := by decide +kernel

/-- R54, R163: hardware page 7 shows framebuffer page 0; the addressing triple of page 7. -/
theorem test_pages :
    fbPageOf 7 = 0 ∧ fbPageOf 0 = 7 ∧ addressing params0 7 = [0xB7, 0x00, 0x10] := by decide

/-- V43: not ready; and V58: without a session ERR_NO_SESSION comes first. -/
theorem test_V43 :
    nextIs (exec .refresh opened1) (fun t => t.status == 0x04 && t.trace == [.resp 0x06 0x04]) = true ∧
    nextIs (exec .clear opened1) (fun t => t.status == 0x04 && t.fb == []) = true ∧
    nextIs (exec .refresh fresh) (fun t => t.status == 0x09) = true := by decide +kernel

/-! ## The session interface -/

/-- V50: the lock fails fast, for its holder too; a close by another client is a no-op. -/
theorem test_V50 :
    nextIs (exec .sessionOpen { fresh with inp := { fresh.inp with cid := 1 } }) (fun t =>
      t.slock && t.owner == 1 && t.status == 0) = true ∧
    nextIs (exec .sessionOpen opened1) (fun t => t.status == 0x03 && t.owner == 1) = true ∧
    nextIs (exec .sessionClose { opened1 with inp := { fresh.inp with cid := 2 } }) (fun t =>
      t.status == 0 && t.slock) = true := by decide +kernel

/-- V51: the size is tested before "already mapped". -/
theorem test_V51 :
    nextIs (exec (.mapFb 1024) { opened1 with mapped := true }) (fun t => t.status == 0x07) = true ∧
    nextIs (exec (.mapFb 4096) opened1) (fun t => t.mapped && t.status == 0x00) = true ∧
    nextIs (exec (.mapFb 4096) { opened1 with mapped := true }) (fun t => t.status == 0x08) = true := by
  decide +kernel

/-- V52: the copy, the boundary, no wrap of the sum. -/
theorem test_V52 :
    nextIs (exec (.bulkWrite 0 3 [1, 2, 3]) opened1) (fun t => t.fb == [(0, 1), (1, 2), (2, 3)]) = true ∧
    nextIs (exec (.bulkWrite 1024 0 []) opened1) (fun t => t.status == 0x00) = true ∧
    nextIs (exec (.bulkWrite 1024 1 [9]) opened1) (fun t => t.status == 0x05 && t.fb == []) = true ∧
    nextIs (exec (.bulkWrite 65535 65535 []) opened1) (fun t => t.status == 0x05) = true := by
  decide +kernel

/-- V53: QUERY_INFO at reset. -/
theorem test_V53 :
    nextIs (exec .queryInfo State.reset) (fun t => t.answer == some ⟨128, 64, 1024⟩ && t.status == 0) =
      true := by decide +kernel

/-- R20, R47: EXT may write between BULK_WRITE's last byte and its response. -/
theorem test_act_before_response :
    nextIs (exec (.bulkWrite 0 1 [0x11]) { opened1 with
        mapped := true, inp := { opened1.inp with agenda := [[], [.extWrite 0 0x22]] } }) (fun t =>
      t.trace == [.fbWrite .seq 0 0x11, .fbWrite .ext 0 0x22, .resp 0x09 0x00] && t.fb == [(0, 0x22)]) = true := by
  decide +kernel

/-- R49, R183: EXT has its steps from MAPPED <- 1 on, the response of MAP_FB still to come. -/
theorem test_act_after_mapping :
    nextIs (exec (.mapFb 4096) { opened1 with inp := { opened1.inp with agenda := [[.extWrite 7 0x33]] } }) (fun t =>
      t.trace == [.fbWrite .ext 7 0x33, .resp 0x08 0x00] && t.mapped) = true := by
  decide +kernel

/-- R25, R187: after DEAD <- 1 the rasteriser has no step, the response of TEARDOWN still to come. -/
theorem test_no_act_when_dead :
    nextIs (exec .teardown { fresh with inp := { fresh.inp with
        agenda := [[], [.offerRaster 0x1100000000000000 [], .rasStep, .rasStep]] } }) (fun t =>
      t.trace == [.resp 0x0B 0x00] && t.fb == [] && t.ras.ops == []) = true := by
  decide +kernel

/-- V54, unconfigured session: only the response; V57: a dead block. -/
theorem test_V54 :
    nextIs (exec .sessionClose opened1) (fun t =>
      t.trace == [.resp 0x02 0x00] && !t.slock && t.lc.code == 5) = true ∧
    nextIs (exec .teardown fresh) (fun t => t.dead && t.trace == [.resp 0x0B 0x00]) = true ∧
    stopsWith (step { fresh with dead := true }) .dead = true := by decide +kernel

/-- V54, configured: 78 pin writes, four releases in role order, the response. -/
theorem test_V54_configured :
    nextIs (exec .sessionClose ready1) (fun t =>
      (added ready1 t).drop 78 == [.release 17, .release 27, .release 4, .release 24, .resp 0x02 0x00] &&
        t.prs == 0 && line t .clk == .z) = true := by decide +kernel

/-- The step on a word offered on the control port answers ERR_ILLEGAL and changes nothing else. -/
def answersIllegal (w : CmdWord) : Bool :=
  nextIs (step { opened1 with inp := { opened1.inp with ctlPort := [⟨1, w⟩] } }) (fun t =>
    t.status == 0x0A && t.slock && t.fb == [] && t.trace == [.resp (opcode w) 0x0A])

/-- V56: reserved words on the control port, a raster opcode among them. -/
theorem test_V56 : answersIllegal 0x0000000000000000 = true ∧ answersIllegal 0x0C00000000000000 = true ∧
    answersIllegal 0x0600000000000001 = true ∧ answersIllegal 0x1200000000000001 = true := by
  decide +kernel

/-- R25, V55: a pending teardown goes ahead of a waiting command. -/
theorem test_V55 :
    nextIs (step { opened1 with tdreq := true, inp := { opened1.inp with ctlPort := [⟨1, 0x0400000000000000⟩] } })
      (fun t => t.dead && !t.tdreq && t.inp.ctlPort.length == 1) = true := by decide +kernel

/-- R29: the numbered view, CTRL's bits and LC's code. -/
theorem test_registers :
    controlRegister ready1 0 = some 17 ∧ controlRegister ready1 4 = some 0x0F ∧
    controlRegister { ready1 with mapped := true, tdreq := true } 5 = some 0b00100111 ∧
    controlRegister ready1 6 = some 2 := by decide

/-! ## The placing of a word -/

theorem test_fetchWord :
    nextIs (step (State.reset.withFetchWord 64 0x0100000000000000)) (fun t => t.slock && t.status == 0) = true ∧
    nextIs (step (State.reset.withFetchWord 64 0x12050A0000000001)) (fun t => t.traceRev.length == 2) = true ∧
    stopsWith (step (State.reset.withFetchWord 9 0x1A5)) (.pinNotOwned .dc) = true := by decide +kernel

/-! ## Witnesses: states and operands that meet the hypotheses of each statement together -/

theorem wit_alone : Alone ready1 := ⟨rfl, rfl⟩

theorem wit_ownsPins : OwnsPins ready1 :=
  ⟨rfl, fun r => by cases r <;> decide, fun r q => by cases r <;> cases q <;> decide⟩

theorem wit_ownerMayIssue : OwnerMayIssue ready1 ∧ OwnerMayIssue opened1 :=
  ⟨⟨rfl, by decide⟩, ⟨rfl, by decide⟩⟩

theorem wit_rasterAlone : RasterAlone fresh ∧ RasterAlone (withByte 133 0x20) := ⟨⟨rfl, rfl, rfl⟩, ⟨rfl, rfl, rfl⟩⟩

theorem wit_heldPins : HeldPins ready1 ∧ HeldPins fresh :=
  ⟨⟨fun r => by cases r <;> decide, fun _ r q => by cases r <;> cases q <;> decide⟩,
    ⟨fun r => by cases r <;> decide, fun h => absurd h (by decide)⟩⟩

theorem wit_linesIdle : linesIdle ready1 := by
  unfold linesIdle; decide +kernel

/-- Quantifying over the roles is naming the four. -/
theorem exists_role {P : Role → Prop} : (∃ r, P r) ↔ P .clk ∨ P .dout ∨ P .rst ∨ P .dc :=
  ⟨fun ⟨r, h⟩ => by cases r <;> simp [h], fun h => by rcases h with h | h | h | h <;> exact ⟨_, h⟩⟩

/-- EveryStepKeepsTheInvariant, OnlyHeldPadsAreDriven, LifecycleMovesByItsTable, RejectedCommandsChangeNothing:
a configured block. -/
theorem wit_inv_configured : Inv ready1 where
  memory := ⟨List.Pairwise.nil, by intro c h; cases h⟩
  notBusy := rfl
  rasterFlag := rfl
  oracle := rfl
  registers := by
    show _ ∧ _ ∧ _
    exact ⟨rfl, .inl rfl, by decide⟩
  owners := by
    unfold ownedExactly
    simp only [exists_role]
    decide +kernel
  undriven := by
    have h : ∀ id : PinId, (padOf ready1 id).all (fun p => p.owner = .self || p.drv = .z) = true := by
      decide +kernel
    intro id p hp ho
    have := h id
    rw [hp] at this
    simpa [ho] using this
  idle := fun _ => wit_linesIdle
  session := fun _ => rfl

/-- ... and an unconfigured one. -/
theorem wit_inv_opened : Inv opened1 where
  memory := ⟨List.Pairwise.nil, by intro c h; cases h⟩
  notBusy := rfl
  rasterFlag := rfl
  oracle := rfl
  registers := by
    show _ ∧ _ ∧ _
    exact ⟨rfl, .inl rfl, rfl⟩
  owners := by
    unfold ownedExactly
    simp only [exists_role]
    decide +kernel
  undriven := by
    have h : ∀ id : PinId, (padOf opened1 id).all (fun p => p.owner = .self || p.drv = .z) = true := by
      decide +kernel
    intro id p hp ho
    have := h id
    rw [hp] at this
    simpa [ho] using this
  idle := fun h => absurd h (by decide)
  session := fun _ => rfl

/-- A step of a block that meets the invariant and every other premise of the whole-machine statements answers a
next state. -/
theorem wit_step : ∃ t, step opened1 = .next t ∧ t.dead = false := ⟨opened1, rfl, rfl⟩

theorem wit_singleCopy : SingleCopy opened1 := ⟨fun _ => rfl, trivial⟩

theorem wit_drivesOnlyHeld : DrivesOnlyHeld opened1 := by
  refine ⟨?_, trivial⟩
  have h : ∀ id : PinId, (padOf opened1 id).map Pad.owner ≠ some .self := by decide +kernel
  exact fun id => ⟨fun hs => absurd hs (h id), fun hf => by cases hf⟩

/-! ### Encoding -/

theorem wit_DecodeOfEncode :
    Instr.wellFormed (.bulkWrite 1023 1 [0xFF]) = true ∧ Instr.wellFormed (.bulkWrite 0 0 []) = true ∧
    Instr.wellFormed (.drawString 0 0 12 2 [1, 2]) = true ∧ Instr.wellFormed .refresh = true := by decide

theorem wit_DecodableWords :
    decode (.command 0x0900000000800002 [0xAA, 0x55]) = .ok (.bulkWrite 128 2 [0xAA, 0x55]) := by decide

theorem wit_CommandDecodesIff :
    ([0xAA, 0x55] : List Byte).length = payloadCount 0x0900000000800002 ∧
    ([] : List Byte).length = payloadCount 0x0600000000000000 ∧
    ⟨0xFFFFFFFFFFFFFFFF, 0x0100000000000000⟩ ∈ opcodeRows ∧
    Row.selects ⟨0xFFFFFFFFFFFFFFFF, 0x0100000000000000⟩ 0x0100000000000000 = true := by decide

theorem wit_ByteStream : decodeCommand 0x1479001000000100 [0x01] = .ok (.drawString 121 0 16 1 [1]) := by decide

/-! ### A step -/

/-- `ready1` with a word and its payload at the control port. -/
def offered (w : CmdWord) (payload : List Byte) (turns : List Port) : State :=
  { ready1 with inp := { ready1.inp with ctlPort := [⟨1, w⟩], ctlPayload := payload, turns := turns } }

theorem wit_StepRunsTheControlCommand :
    (∃ b os ts i, (offered 0x0900000000800002 [0xAA, 0x55] [.control]).dead = false ∧
      b = boundary .env (offered 0x0900000000800002 [0xAA, 0x55] [.control]) ∧ b.tdreq = false ∧
      b.busy = false ∧ b.inp.turns = .control :: ts ∧ b.inp.ctlPort = ⟨1, 0x0900000000800002⟩ :: os ∧
      payloadCount 0x0900000000800002 ≤ b.inp.ctlPayload.length ∧
      decodeCommand 0x0900000000800002 (b.inp.ctlPayload.take (payloadCount 0x0900000000800002)) = .ok i ∧
      i.port = .control) ∧
    (offered 0x0600000000000000 [] []).inp.turns = [] :=
  ⟨⟨_, [], [], .bulkWrite 128 2 [0xAA, 0x55], rfl, rfl, rfl, rfl, rfl, rfl, by decide, by decide, rfl⟩, rfl⟩

/-- `fresh` with a word at the raster port. -/
def offeredR (w : CmdWord) (payload : List Byte) (turns : List Port) : State :=
  { fresh with inp := { fresh.inp with rasPort := [w], rasPayload := payload, turns := turns } }

theorem wit_StepRunsTheRasterOperation :
    (∃ b r ws ts i, (offeredR 0x1479001000000100 [0x01] [.raster]).dead = false ∧
      b = boundary .env (offeredR 0x1479001000000100 [0x01] [.raster]) ∧ (b.tdreq = false ∨ b.busy = true) ∧
      b.inp.turns = .raster :: ts ∧ r = rasFinish { b with inp := { b.inp with turns := ts } } ∧
      r.inp.rasPort = 0x1479001000000100 :: ws ∧ payloadCount 0x1479001000000100 ≤ r.inp.rasPayload.length ∧
      decodeCommand 0x1479001000000100 (r.inp.rasPayload.take (payloadCount 0x1479001000000100)) = .ok i ∧
      i.port = .raster) ∧
    ((offeredR 0x1000000000000000 [] []).inp.turns = [] ∧ (offeredR 0x1000000000000000 [] []).inp.ctlPort = [] ∧
      (offeredR 0x1000000000000000 [] []).inp.phyPort = []) :=
  ⟨⟨_, _, [], [], .drawString 121 0 16 1 [1], rfl, rfl, .inl rfl, rfl, rfl, rfl, by decide, by decide, rfl⟩,
    rfl, rfl, rfl⟩

/-- `ready1` with a request at the PHY's input. -/
def requested (turns : List Port) : State :=
  { ready1 with inp := { ready1.inp with phyPort := [0x1A5], turns := turns } }

theorem wit_StepRunsThePhyRequest :
    (∃ b qs ts, (requested [.phy]).dead = false ∧ b = boundary .env (requested [.phy]) ∧
      (b.tdreq = false ∨ b.busy = true) ∧ b.inp.turns = .phy :: ts ∧ b.inp.phyPort = 0x1A5 :: qs) ∧
    ((requested []).inp.turns = [] ∧ (requested []).inp.ctlPort = []) :=
  ⟨⟨_, [], [], rfl, rfl, .inl rfl, rfl, rfl⟩, rfl, rfl⟩

/-- Two words the control port does not accept: a set must-be-zero bit, and a raster opcode. -/
theorem wit_ReservedControlWord :
    (∀ payload i, decodeCommand 0x0600000000000001 payload = .ok i → i.port ≠ .control) ∧
    (∀ payload i, decodeCommand 0x1200000000000001 payload = .ok i → i.port ≠ .control) ∧
    (∃ b, b = boundary .env (offered 0x0600000000000001 [] [.control]) ∧ b.dead = false ∧ b.tdreq = false ∧
      b.busy = false ∧ b.inp.turns = [.control] ∧ b.inp.ctlPort = [⟨1, 0x0600000000000001⟩]) := by
  refine ⟨fun payload i h => ?_, fun payload i h => ?_, ⟨_, rfl, rfl, rfl, rfl, rfl, rfl⟩⟩
  · unfold decodeCommand at h
    split at h
    · cases (show Except.error (Reject.mustBeZero 0x06) = Except.ok i from h)
    · cases h
  · unfold decodeCommand at h
    split at h
    · have := Except.ok.inj (show Except.ok (Instr.drawPoint 0 0 true) = Except.ok i from h)
      rw [← this]
      decide
    · cases h

/-- A control opcode on the raster port. -/
theorem wit_ReservedRasterWord :
    (∀ payload i, decodeCommand 0x0600000000000000 payload = .ok i → i.port ≠ .raster) ∧
    (∃ b, b = boundary .env (offeredR 0x0600000000000000 [] [.raster]) ∧ (b.tdreq = false ∨ b.busy = true) ∧
      b.inp.turns = [.raster] ∧ b.ras.ops = [] ∧ b.inp.rasPort = [0x0600000000000000]) := by
  refine ⟨fun payload i h => ?_, ⟨_, rfl, .inl rfl, rfl, rfl, rfl⟩⟩
  unfold decodeCommand at h
  split at h
  · have := Except.ok.inj (show Except.ok Instr.refresh = Except.ok i from h)
    rw [← this]
    decide
  · cases h

theorem wit_ControlWordIsHeld :
    (∃ b, b = boundary .env { offered 0x0600000000000000 [] [.control] with busy := true } ∧
      b.inp.turns = [.control] ∧ b.inp.ctlPort = [⟨1, 0x0600000000000000⟩] ∧ b.busy = true) ∧
    (∃ b, b = boundary .env (offered 0x0900000000800002 [0xAA] [.control]) ∧ b.inp.turns = [.control] ∧
      b.inp.ctlPort = [⟨1, 0x0900000000800002⟩] ∧ b.tdreq = false ∧
      portOfWord 0x0900000000800002 = .control ∧
      b.inp.ctlPayload.length < payloadCount 0x0900000000800002) :=
  ⟨⟨_, rfl, rfl, rfl, rfl⟩, ⟨_, rfl, rfl, rfl, rfl, by decide, by decide⟩⟩

theorem wit_TeardownRequest :
    ∃ b, b = boundary .env { ready1 with tdreq := true } ∧ b.tdreq = true ∧ b.busy = false := ⟨_, rfl, rfl, rfl⟩

theorem wit_DeadBlock : { fresh with dead := true }.dead = true := rfl

/-! ### The PHY -/

theorem wit_PhyTransaction : ready1.dead = false ∧ Alone ready1 ∧ OwnsPins ready1 :=
  ⟨rfl, wit_alone, wit_ownsPins⟩

theorem wit_PinWriteWithoutAllPads :
    prsBit (boundary .seq fresh).prs .clk = false ∧
    (boundary .seq { ready1 with prs := 0b0111 }).prs ≠ 0b1111 ∧
    prsBit { ready1 with prs := 0b0111 }.prs .dc = false ∧
    (OwnerMayIssue opened1 ∧ isGuarded .refresh = true ∧ opened1.prs ≠ 0b1111 ∧
      nextIs (exec .refresh opened1) (fun _ => true) = true) :=
  ⟨by decide, by decide, by decide, wit_ownerMayIssue.2, rfl, by decide, by decide +kernel⟩

theorem wit_TransactionIs26 :
    (Alone ready1 ∧ OwnsPins ready1 ∧ ready1.dlyCfg = 0) ∧
    ({ ready1 with dlyCfg := 1000 }.dlyCfg ≠ 0 ∧ Alone { ready1 with dlyCfg := 1000 } ∧
      OwnsPins { ready1 with dlyCfg := 1000 }) ∧ 0 < 26 ∧ 25 < 26 :=
  ⟨⟨wit_alone, wit_ownsPins, rfl⟩,
    ⟨by decide, ⟨rfl, rfl⟩, ⟨wit_ownsPins.prs, wit_ownsPins.named, wit_ownsPins.distinct⟩⟩, by decide, by decide⟩

theorem wit_ReceiverRecoversTheSequence :
    Alone ready1 ∧ OwnsPins ready1 ∧ linesIdle ready1 ∧ line ready1 .dout = .driven true :=
  ⟨wit_alone, wit_ownsPins, wit_linesIdle, by decide +kernel⟩

/-! ### The rasteriser -/

theorem wit_RasterOperations :
    (Instr.drawPoint 127 63 true).port = .raster ∧ fresh.dead = false ∧ fresh.inp.agenda = [] := ⟨rfl, rfl, rfl⟩

theorem wit_DrawPoint :
    RasterAlone (withByte 1023 0) ∧ ((127 : Byte).toNat < width ∧ (63 : Byte).toNat < height) ∧
    (width ≤ (128 : Byte).toNat ∨ height ≤ (0 : Byte).toNat) ∧
    (width ≤ (127 : Byte).toNat ∨ height ≤ (64 : Byte).toNat) ∧ ¬ onScreen (128 : Byte).toNat 0 :=
  ⟨⟨rfl, rfl, rfl⟩, by decide, by decide, by decide, by decide⟩

theorem wit_Fills : RasterAlone fresh ∧ (Instr.fbFillWhite = .fbClear ∧ (0xFF : Byte) = 0x00 ∨
    Instr.fbFillWhite = .fbFillWhite ∧ (0xFF : Byte) = 0xFF) := ⟨wit_rasterAlone.1, .inr ⟨rfl, rfl⟩⟩

theorem wit_FontSizes :
    (12 : Byte).toNat ∈ [12, 16, 24] ∧ (24 : Byte).toNat ∈ [12, 16, 24] ∧ (10 : Byte).toNat ∉ [12, 16, 24] ∧
    ([] : List Byte) = [] := by decide

theorem wit_ExtWriteLost :
    ∃ s : State, s.dead = false ∧ s.ras.ops = [] ∧ s.mapped = true ∧
      0 = (0 : Byte).toNat / 8 * width + (0 : Byte).toNat ∧ (0 : Byte).toNat < width ∧
      (0 : Byte).toNat < height ∧ Memory.read s.fb 0 = some 0x00 ∧
      s.inp.agenda = [[], [.extWrite 0 0x01]] :=
  ⟨{ withByte 0 0 with mapped := true, inp := { fresh.inp with agenda := [[], [.extWrite 0 0x01]] } },
    rfl, rfl, rfl, rfl, by decide, by decide, rfl, rfl⟩

/-! ### The other agents -/

theorem wit_ExtWrites :
    ({ opened1 with inp := { opened1.inp with agenda := [[.extWrite 1023 0x80]] } }).inp.agenda =
      [[.extWrite 1023 0x80]] ∧
    ({ opened1 with mapped := true }.mapped = true ∧ 1023 < fbSize) ∧
    (opened1.mapped = false ∨ fbSize ≤ 1024) ∧ fbSize ≤ 1024 := ⟨rfl, ⟨rfl, by decide⟩, .inl rfl, by decide⟩

theorem wit_ExtReads :
    (∃ s : State, s.inp.agenda = [[.extRead 1023]] ∧ s.mapped = true ∧ Memory.read s.fb 1023 = some 0x7F) ∧
    (∃ s : State, s.inp.agenda = [[.extRead 0]] ∧ s.mapped = true ∧ Memory.read s.fb 0 = none) ∧
    (fbSize ≤ 1024 ∧ 1024 < params0.mapSize ∧ fbSize ≤ 4095 ∧ 4095 < params0.mapSize) ∧
    (opened1.mapped = false ∨ fbSize ≤ 4096 ∧ params0.mapSize ≤ 4096) ∧
    (fbSize ≤ 4096 ∧ params0.mapSize ≤ 4096) :=
  ⟨⟨{ withByte 1023 0x7F with mapped := true, inp := { fresh.inp with agenda := [[.extRead 1023]] } }, rfl, rfl, rfl⟩,
    ⟨{ fresh with mapped := true, inp := { fresh.inp with agenda := [[.extRead 0]] } }, rfl, rfl, rfl⟩,
    by decide, .inl rfl, by decide⟩

theorem wit_OwnedPad : padOf ready1 17 = some ⟨.self, .driven true⟩ := by decide +kernel

/-! ### Sessions and rejections -/

theorem wit_Session :
    (fresh.dead = false ∧ fresh.slock = false) ∧ (opened1.dead = false ∧ opened1.slock = true) ∧
    (needsSession .refresh = true ∧ (fresh.slock = false ∨ fresh.inp.cid ≠ fresh.owner)) ∧
    { opened1 with inp := { opened1.inp with cid := 2 } }.inp.cid ≠ opened1.owner ∧
    (needsSession .queryInfo = false ∧ Instr.queryInfo.port = .control ∧
      nextIs (exec .queryInfo fresh) (fun _ => true) = true) :=
  ⟨⟨rfl, rfl⟩, ⟨rfl, rfl⟩, ⟨rfl, .inl rfl⟩, by decide, ⟨rfl, rfl, by decide +kernel⟩⟩

theorem wit_SessionClose : OwnerMayIssue ready1 ∧ Alone ready1 ∧ HeldPins ready1 :=
  ⟨wit_ownerMayIssue.1, wit_alone, wit_heldPins.1⟩

theorem wit_Teardown :
    { ready1 with inp := { ready1.inp with cid := 9 } }.dead = false ∧ Alone fresh ∧ HeldPins fresh :=
  ⟨rfl, ⟨rfl, rfl⟩, wit_heldPins.2⟩

theorem wit_MapFb :
    (fresh.dead = false ∧ sessionOk fresh = false) ∧ OwnerMayIssue opened1 ∧ (1024 : BitVec 32).toNat ≠ opened1.params.mapSize ∧
    ((4096 : BitVec 32).toNat = opened1.params.mapSize ∧ { opened1 with mapped := true }.mapped = true) ∧
    ((4096 : BitVec 32).toNat = opened1.params.mapSize ∧ opened1.mapped = false) ∧ 0 < params0.mapGranule :=
  ⟨⟨rfl, rfl⟩, wit_ownerMayIssue.2, by decide, ⟨by decide, rfl⟩, ⟨by decide, rfl⟩, by decide⟩

theorem wit_BulkWrite :
    (fresh.dead = false ∧ sessionOk fresh = false) ∧ OwnerMayIssue opened1 ∧ opened1.inp.agenda = [] ∧
    (([7] : List Byte).length = (1 : BitVec 16).toNat ∧ (1023 : BitVec 16).toNat + (1 : BitVec 16).toNat ≤ fbSize) ∧
    (1024 : BitVec 16).toNat + (1 : BitVec 16).toNat > fbSize ∧
    (65535 : BitVec 16).toNat + (65535 : BitVec 16).toNat > fbSize :=
  ⟨⟨rfl, rfl⟩, wit_ownerMayIssue.2, rfl, by decide, by decide, by decide⟩

theorem wit_ConfigureRejects :
    opened1.cfg = false ∧
    (∃ id ∈ ([17, 27, 255, 24] : List PinId), id = 0xFF ∨ id ∉ opened1.params.validPads) ∧
    (∃ id ∈ ([17, 27, 9, 24] : List PinId), id = 0xFF ∨ id ∉ opened1.params.validPads) ∧
    ¬ ([17, 17, 4, 24] : List PinId).Nodup ∧ ready1.cfg = true :=
  ⟨rfl, ⟨255, by decide, .inl rfl⟩, ⟨9, by decide, .inr (by decide)⟩, by decide, rfl⟩

/-! ### Bring-up -/

/-- The operands of the worked example of R160 on a block with the four pads free. -/
theorem wit_ConfigureBringsUp :
    OwnerMayIssue opened1 ∧ Alone opened1 ∧ opened1.cfg = false ∧ opened1.prs = 0b0000 ∧
    opened1.pinreg = ⟨0xFF, 0xFF, 0xFF, 0xFF⟩ ∧ ([17, 27, 4, 24] : List PinId).Nodup ∧
    (∀ id ∈ ([17, 27, 4, 24] : List PinId), id ≠ 0xFF ∧ id ∈ opened1.params.validPads) ∧
    (∀ id ∈ ([17, 27, 4, 24] : List PinId), (padOf opened1 id).map Pad.owner = some .free) :=
  ⟨wit_ownerMayIssue.2, ⟨rfl, rfl⟩, rfl, rfl, rfl, by decide, by decide, by decide +kernel⟩

/-- The same with pad 4 taken (V33). -/
theorem wit_ConfigureRollsBack :
    ∃ s : State, OwnerMayIssue s ∧ Alone s ∧ s.cfg = false ∧ s.prs = 0b0000 ∧
      s.pinreg = ⟨0xFF, 0xFF, 0xFF, 0xFF⟩ ∧
      (∀ id ∈ ([17, 27, 4, 24] : List PinId), id ≠ 0xFF ∧ id ∈ s.params.validPads) ∧
      (∀ id p, padOf s id = some p → p.owner = .free → p.drv = .z) ∧
      (∃ id ∈ ([17, 27, 4, 24] : List PinId), ∀ p, padOf s id = some p → p.owner ≠ .free) := by
  refine ⟨{ opened1 with pads := opened1.pads.set 4 ⟨.other, .z⟩ }, ⟨rfl, by decide⟩, ⟨rfl, rfl⟩, rfl, rfl, rfl,
    by decide, fun id p hp _ => ?_, ⟨4, by decide, fun p hp => ?_⟩⟩
  · have h : ∀ id : PinId, (padOf { opened1 with pads := opened1.pads.set 4 ⟨.other, .z⟩ } id).all
        (fun p => p.drv = .z) = true := by decide +kernel
    have := h id
    rw [hp] at this
    simpa using this
  · have h : padOf { opened1 with pads := opened1.pads.set 4 ⟨.other, .z⟩ } 4 = some ⟨.other, .z⟩ := by
      decide +kernel
    rw [h] at hp
    cases hp
    decide

/-- ConfigureIsAllOrNothing: no pad of the block's own, and the command answers. -/
theorem wit_ConfigureIsAllOrNothing :
    (∀ id, (padOf opened1 id).map Pad.owner ≠ some .self) ∧
    nextIs (exec (.configure 17 17 4 24) opened1) (fun _ => true) = true :=
  ⟨by decide +kernel, by decide +kernel⟩

/-- DisplayOnAndOff, Refresh, Clear, the receiver and the failing pin write. -/
theorem wit_BusCommands :
    OwnerMayIssue ready1 ∧ Alone ready1 ∧ OwnsPins ready1 ∧ linesIdle ready1 ∧
    { ready1.inp with pinFault := [true] }.pinFault = true :: [] :=
  ⟨wit_ownerMayIssue.1, wit_alone, wit_ownsPins, wit_linesIdle, rfl⟩

/-- `ready1` with an act of EXT, an act of ENV and a teardown request to come. -/
def disturbed : State :=
  { ready1 with mapped := true, inp := { ready1.inp with
      agenda := [[], [.extWrite 0 0x55], [.envTake 5], [.requestTeardown]] } }

theorem wit_BusCommandsDisturbed : OwnerMayIssue disturbed ∧ OwnsPins disturbed ∧ disturbed.inp.pinFault = [] :=
  ⟨⟨rfl, rfl⟩, ⟨wit_ownsPins.prs, wit_ownsPins.named, wit_ownsPins.distinct⟩, rfl⟩

/-! ### Whole-machine rules -/

theorem wit_Commands :
    Instr.displayOff.port = .control ∧ nextIs (exec .displayOff ready1) (fun t => t.status == 0) = true ∧
    nextIs (exec .displayOn opened1) (fun t => t.status == 0x04) = true ∧ opened1.inp.agenda = [] := by
  exact ⟨rfl, by decide +kernel, by decide +kernel, rfl⟩

end Sys2Proof.Tests
end

/-! What any part of a command can do, said once as relations between the state before it and the state
after it (`Works` and its refinements), with one lemma per micro-step, procedure and body. The statements about
parameters, TRACE, pads and the invariant are read off them. -/

namespace Sys2Proof.Machine

open Sys2Proof.Config (fbSize)

/-! ## Pads held, and what TRACE says of them -/

/-- The block owns the pad (R23). -/
abbrev ownsPad (s : State) (id : PinId) : Prop := (padOf s id).map Pad.owner = some .self

/-- The pads are those PRS marks, named by different roles, and only they are driven (R11, R12, R23): what every
micro-step keeps, CONFIGURE's and SESSION_CLOSE's included. -/
structure PadsHeld (s : State) : Prop where
  owners : ownedExactly s
  distinct : ∀ r q : Role, prsBit s.prs r = true → prsBit s.prs q = true →
    s.pinreg.get r = s.pinreg.get q → r = q
  undriven : ∀ (id : PinId) (p : Pad), padOf s id = some p → p.owner ≠ .self → p.drv = .z

/-- Framebuffer accesses in TRACE say nothing of pads. -/
theorem heldInTrace_accesses {es : List Event} (fs : List Event)
    (h : ∀ e ∈ es, (∃ a v, e = .fbRead a v) ∨ ∃ g a v, e = .fbWrite g a v) :
    (∀ id, heldInTrace (es ++ fs) id = heldInTrace fs id) ∧ (pinsHeld (es ++ fs) ↔ pinsHeld fs) := by
  induction es with
  | nil => exact ⟨fun _ => rfl, Iff.rfl⟩
  | cons e es ih =>
    have ih := ih fun e he => h e (List.mem_cons_of_mem _ he)
    rcases h e (by simp) with ⟨a, v, rfl⟩ | ⟨g, a, v, rfl⟩ <;> exact ih

/-- A change that keeps PRS, PINREG and each pad's drive and whether it is the block's. -/
theorem PadsHeld.of_samePads {s t : State} (h : PadsHeld s) (hprs : t.prs = s.prs)
    (hreg : t.pinreg = s.pinreg)
    (hpads : ∀ id, (padOf t id).map (fun p => (p.drv, decide (p.owner = .self))) =
      (padOf s id).map (fun p => (p.drv, decide (p.owner = .self)))) :
    PadsHeld t ∧ ∀ id, ownsPad t id ↔ ownsPad s id := by
  have howns : ∀ id, ownsPad t id ↔ ownsPad s id := fun id => by
    have := hpads id
    cases hs : padOf s id <;> cases ht : padOf t id <;> simp_all
  refine ⟨⟨fun id => ?_, ?_, fun id p hp ho => ?_⟩, howns⟩
  · rw [hprs, hreg]
    exact (howns id).trans (h.owners id)
  · rw [hprs, hreg]
    exact h.distinct
  · have := hpads id
    rw [hp] at this
    cases hs : padOf s id with
    | none => rw [hs] at this; cases this
    | some q =>
      rw [hs] at this
      simp only [Option.map_some, Option.some.injEq, Prod.mk.injEq, decide_eq_decide] at this
      rw [this.1]
      exact h.undriven id q hs fun hq => ho (this.2.2 hq)

/-! ## What a part of a command can do -/

/-- Any part of a command, the other agents' acts beside it included: it keeps the parameters, the framebuffer's
canonical form, RBUSY's meaning, PIN_FAULT = never and, while the block lives, the single copy; and it adds to TRACE,
but no response. -/
structure Works (s t : State) : Prop where
  params : t.params = s.params
  dlyCfg : t.dlyCfg = s.dlyCfg
  trace : ∃ es, t.traceRev = es ++ s.traceRev ∧ ∀ e ∈ es, ∀ op code, e ≠ .resp op code
  oracle : s.inp.pinFault = [] → t.inp.pinFault = []
  memory : Memory.wf s.fb → Memory.wf t.fb
  rasterFlag : s.rbusy = !s.ras.ops.isEmpty → t.rbusy = !t.ras.ops.isEmpty
  alive : t.dead = false → s.dead = false
  single : t.dead = false → SingleCopy s → SingleCopy t

/-- A part that keeps the pads' discipline as well. -/
structure WorksSafely (s t : State) : Prop extends Works s t where
  held : PadsHeld s → PadsHeld t
  drives : PadsHeld s → DrivesOnlyHeld s → DrivesOnlyHeld t

/-- A part that leaves the session's registers alone as well. -/
structure WorksInSession (s t : State) : Prop extends WorksSafely s t where
  slock : t.slock = s.slock
  mapped : t.mapped = s.mapped

/-- A part that leaves the registers of the lifecycle and BUSY alone as well. -/
structure WorksOnBus (s t : State) : Prop extends WorksInSession s t where
  pinreg : t.pinreg = s.pinreg
  prs : t.prs = s.prs
  cfg : t.cfg = s.cfg
  lc : t.lc = s.lc
  busy : t.busy = s.busy

/-- A part that leaves the four lines alone as well. -/
structure WorksQuietly (s t : State) : Prop extends WorksOnBus s t where
  lines : ∀ r, line t r = line s r

theorem WorksSafely.refl (s : State) : WorksSafely s s :=
  ⟨⟨rfl, rfl, ⟨[], rfl, by simp⟩, id, id, id, id, fun _ => id⟩, id, fun _ => id⟩

theorem WorksInSession.refl (s : State) : WorksInSession s s := ⟨WorksSafely.refl s, rfl, rfl⟩

theorem WorksOnBus.refl (s : State) : WorksOnBus s s := ⟨WorksInSession.refl s, rfl, rfl, rfl, rfl, rfl⟩

theorem WorksQuietly.refl (s : State) : WorksQuietly s s := ⟨WorksOnBus.refl s, fun _ => rfl⟩

theorem Works.trans {s t u : State} (h : Works s t) (k : Works t u) : Works s u := by
  obtain ⟨es, he, hes⟩ := h.trace
  obtain ⟨fs, hf, hfs⟩ := k.trace
  refine ⟨k.params.trans h.params, k.dlyCfg.trans h.dlyCfg, ⟨fs ++ es, by rw [hf, he, List.append_assoc], ?_⟩,
    k.oracle ∘ h.oracle, k.memory ∘ h.memory, k.rasterFlag ∘ h.rasterFlag, h.alive ∘ k.alive,
    fun hu => k.single hu ∘ h.single (k.alive hu)⟩
  intro e hm
  rcases List.mem_append.1 hm with hm | hm
  · exact hfs e hm
  · exact hes e hm

theorem WorksSafely.trans {s t u : State} (h : WorksSafely s t) (k : WorksSafely t u) : WorksSafely s u :=
  ⟨h.toWorks.trans k.toWorks, k.held ∘ h.held, fun hs => k.drives (h.held hs) ∘ h.drives hs⟩

theorem WorksInSession.trans {s t u : State} (h : WorksInSession s t) (k : WorksInSession t u) :
    WorksInSession s u :=
  ⟨h.toWorksSafely.trans k.toWorksSafely, k.slock.trans h.slock, k.mapped.trans h.mapped⟩

theorem WorksOnBus.trans {s t u : State} (h : WorksOnBus s t) (k : WorksOnBus t u) : WorksOnBus s u :=
  ⟨h.toWorksInSession.trans k.toWorksInSession, k.pinreg.trans h.pinreg, k.prs.trans h.prs, k.cfg.trans h.cfg,
    k.lc.trans h.lc, k.busy.trans h.busy⟩

theorem WorksQuietly.trans {s t u : State} (h : WorksQuietly s t) (k : WorksQuietly t u) : WorksQuietly s u :=
  ⟨h.toWorksOnBus.trans k.toWorksOnBus, fun r => (k.lines r).trans (h.lines r)⟩

/-! ## Changes of fields -/

/-- A write of registers no clause of `WorksSafely` mentions. -/
theorem WorksSafely.of_same {s t : State}
    (e : t = { s with
      cfg := t.cfg, lc := t.lc, slock := t.slock, owner := t.owner, mapped := t.mapped, busy := t.busy
      status := t.status, seqr := t.seqr, tdreq := t.tdreq, answer := t.answer, inp := t.inp })
    (ho : s.inp.pinFault = [] → t.inp.pinFault = []) : WorksSafely s t := by
  rw [e]
  exact ⟨⟨rfl, rfl, ⟨[], rfl, by simp⟩, ho, id, id, id, fun _ h => ⟨h.contents, h.reads⟩⟩,
    fun h => ⟨h.owners, h.distinct, h.undriven⟩, fun _ h => ⟨h.owned, h.pins⟩⟩

/-- A write of the registers of the pads, with events of which the single copy says nothing. -/
theorem Works.of_pads {s t : State} (es : List Event)
    (e : t = { s with pinreg := t.pinreg, prs := t.prs, pads := t.pads, traceRev := es ++ s.traceRev })
    (hes : ∀ e ∈ es, ∀ op code, e ≠ .resp op code) (hsingle : SingleCopy s → SingleCopy t) : Works s t := by
  rw [e] at hsingle ⊢
  exact ⟨rfl, rfl, ⟨es, rfl, hes⟩, id, id, id, id, fun _ => hsingle⟩

/-- A write of the sequencer's counters or of the inputs. -/
theorem WorksQuietly.of_same {s t : State} (e : t = { s with seqr := t.seqr, inp := t.inp })
    (ho : s.inp.pinFault = [] → t.inp.pinFault = []) : WorksQuietly s t := by
  have hw : WorksSafely s t := .of_same (by rw [e]) ho
  have hline : ∀ r, line t r = line s r := fun r => by rw [e]; rfl
  exact ⟨⟨⟨hw, by rw [e], by rw [e]⟩, by rw [e], by rw [e], by rw [e], by rw [e], by rw [e]⟩, hline⟩

/-- The step of another agent (R46). -/
theorem Elsewhere.quietly {s t : State} (h : Elsewhere s t) : WorksQuietly s t := by
  obtain ⟨es, he, hes⟩ := h.trace
  have hacc : ∀ e ∈ es, (∃ a v, e = .fbRead a v) ∨ ∃ g a v, e = .fbWrite g a v := fun e hm =>
    (hes e hm).imp id fun ⟨g, a, v, _, hg⟩ => ⟨g, a, v, hg⟩
  have hkeep := fun hp : PadsHeld s => hp.of_samePads h.prs h.pinreg h.pads
  have hw : WorksSafely s t :=
    { params := h.params, dlyCfg := h.dlyCfg
      trace := ⟨es, he, fun e hm op code => by
        rcases hacc e hm with ⟨a, v, rfl⟩ | ⟨g, a, v, rfl⟩ <;> simp⟩
      oracle := fun ho => h.pinFault.trans ho
      memory := h.memory, rasterFlag := h.rasterFlag
      alive := fun hd => h.dead ▸ hd
      single := fun _ => h.single
      held := fun hp => (hkeep hp).1
      drives := fun hp hd => by
        have hheld := heldInTrace_accesses s.traceRev hacc
        refine ⟨fun id => ?_, ?_⟩
        · rw [he, hheld.1, ← hd.owned id]
          exact (hkeep hp).2 id
        · rw [he, hheld.2]
          exact hd.pins }
  exact ⟨⟨⟨hw, h.slock, h.mapped⟩, h.pinreg, h.prs, h.cfg, h.lc, h.busy⟩, h.line⟩

/-- The acts due at a boundary (R47). -/
theorem boundary_quietly (g : Agent) (s : State) : WorksQuietly s (boundary g s) :=
  (boundary_elsewhere g s).quietly

/-- A framebuffer write by any agent (R45). -/
theorem memWrite_quietly (g : Agent) {a : Nat} (ha : a < fbSize) (v : Byte) (s : State) :
    WorksQuietly s (memWrite g a v s) := by
  have hw : WorksSafely s (memWrite g a v s) :=
    ⟨⟨rfl, rfl, ⟨[.fbWrite g a v], rfl, by simp⟩, id, fun h => Memory.wf_write v h ha, id, id,
      fun _ h => h.memWrite g a v⟩, fun h => ⟨h.owners, h.distinct, h.undriven⟩, fun _ h => ⟨h.owned, h.pins⟩⟩
  exact ⟨⟨⟨hw, rfl, rfl⟩, rfl, rfl, rfl, rfl, rfl⟩, fun _ => rfl⟩

/-- A Wait event (R81). -/
theorem emitWait_quietly (d : Nat) (s : State) : WorksQuietly s (emit (.wait d) s) := by
  have hw : WorksSafely s (emit (.wait d) s) :=
    ⟨.of_pads [_] rfl (by simp) fun h => ⟨h.contents, h.reads⟩,
      fun h => ⟨h.owners, h.distinct, h.undriven⟩, fun _ h => ⟨h.owned, h.pins⟩⟩
  exact ⟨⟨⟨hw, rfl, rfl⟩, rfl, rfl, rfl, rfl, rfl⟩, fun _ => rfl⟩

/-- The PIN_FAULT oracle's answer is used up (R90). -/
theorem askOracle_quietly (s : State) : WorksQuietly s (askOracle s).2 := by
  have ho : s.inp.pinFault = [] → (askOracle s).2.inp.pinFault = [] := fun h => by
    rw [askOracle_never h]; exact h
  obtain ⟨rest, hs⟩ := askOracle_state s
  rw [hs] at ho ⊢
  exact .of_same rfl ho

/-! ## Changes of pads -/

/-- The state after a pin write through a pad `p` (R80). -/
theorem pinEffect_onBus {s : State} {r : Role} {p : Pad} (v : Level) (hprs : s.prs = prsAll)
    (hp : padOf s (s.pinreg.get r) = some p) :
    WorksOnBus s (emit (.pin r (s.pinreg.get r) v) (setPad (s.pinreg.get r) { p with drv := .driven v } s)) := by
  have howns : ∀ id, ownsPad (setPad (s.pinreg.get r) { p with drv := .driven v } s) id ↔ ownsPad s id := by
    intro id
    rw [ownsPad, padOf_setPad]
    split
    · rename_i hid
      rw [hid, ownsPad, hp]
      rfl
    · exact Iff.rfl
  have hself : PadsHeld s → ownsPad s (s.pinreg.get r) := fun h =>
    (h.owners _).2 ⟨r, by rw [hprs]; exact prsBit_prsAll r, rfl⟩
  refine ⟨⟨⟨.of_pads [_] rfl (by simp) fun h => ⟨h.contents, h.reads⟩, fun h => ?_,
    fun h hd => ?_⟩, rfl, rfl⟩, rfl, rfl, rfl, rfl, rfl⟩
  · refine ⟨fun id => (howns id).trans (h.owners id), h.distinct, fun id q hq ho => ?_⟩
    change padOf (setPad _ _ s) id = some q at hq
    rw [padOf_setPad] at hq
    split at hq
    · have := hself h
      rw [ownsPad, hp] at this
      rw [hp] at hq
      cases hq
      exact absurd (Option.some.inj this) ho
    · exact h.undriven id q hq ho
  · exact ⟨fun id => (howns id).trans (hd.owned id), (hd.owned _).1 (hself h), hd.pins⟩

/-- The state after a granted pad request (R131, R133). -/
theorem acquireEffect_inSession {s : State} {r : Role} {p : Pad} (hp : padOf s (s.pinreg.get r) = some p)
    (hfree : p.owner = .free) :
    WorksInSession s (setPrs r (emit (.acquire (s.pinreg.get r) true)
      (setPad (s.pinreg.get r) { p with owner := .self } s))) := by
  have howns : ∀ id, ownsPad (setPad (s.pinreg.get r) { p with owner := .self } s) id ↔
      id = s.pinreg.get r ∨ ownsPad s id := by
    intro id
    rw [ownsPad, padOf_setPad]
    split
    · rename_i hid
      simp [hid, hp]
    · rename_i hid
      simp [hid]
  have hbit : ∀ q, prsBit (setPrs r s).prs q = true ↔ q = r ∨ prsBit s.prs q = true := fun q => by
    simp [setPrs, prsBit_prsSet]
  -- the pad was free, so no acquired role names it yet
  have hnew : PadsHeld s → ∀ q, prsBit s.prs q = true → s.pinreg.get q ≠ s.pinreg.get r := fun h q hq hqr => by
    have := (h.owners (s.pinreg.get r)).2 ⟨q, hq, hqr⟩
    rw [hp] at this
    simp [hfree] at this
  refine ⟨⟨.of_pads [_] rfl (by simp) fun h => ⟨h.contents, h.reads⟩, fun h => ?_,
    fun _ hd => ⟨fun id => (howns id).trans ?_, hd.pins⟩⟩, rfl, rfl⟩
  · refine ⟨fun id => (howns id).trans ?_, fun q q' hq hq' heq => ?_, fun id q hq ho => ?_⟩
    · refine (or_congr_right (h.owners id)).trans ⟨?_, ?_⟩
      · rintro (rfl | ⟨q, hq, hid⟩)
        · exact ⟨r, (hbit r).2 (.inl rfl), rfl⟩
        · exact ⟨q, (hbit q).2 (.inr hq), hid⟩
      · rintro ⟨q, hq, hid⟩
        rcases (hbit q).1 hq with rfl | hq
        · exact .inl hid.symm
        · exact .inr ⟨q, hq, hid⟩
    · rcases (hbit q).1 hq with hqr | hqs <;> rcases (hbit q').1 hq' with hqr' | hqs'
      · exact hqr.trans hqr'.symm
      · exact absurd (hqr ▸ heq.symm) (hnew h q' hqs')
      · exact absurd (hqr' ▸ heq) (hnew h q hqs)
      · exact h.distinct q q' hqs hqs' heq
    · change padOf (setPad _ _ s) id = some q at hq
      rw [padOf_setPad] at hq
      split at hq
      · rw [hp] at hq
        cases hq
        exact absurd rfl ho
      · exact h.undriven id q hq ho
  · refine (or_congr_right (hd.owned id)).trans ?_
    show _ ↔ (if s.pinreg.get r = id ∧ true = true then true else heldInTrace s.traceRev id) = true
    by_cases hid : id = s.pinreg.get r
    · simp [hid]
    · simp [hid, Ne.symm hid]

/-- The state after a refused pad request (R131). -/
theorem refusalEffect_inSession (j : PinId) (s : State) : WorksInSession s (emit (.acquire j false) s) := by
  have hheld : ∀ k, heldInTrace (emit (.acquire j false) s).traceRev k = heldInTrace s.traceRev k := fun k => by
    simp [heldInTrace]
  exact ⟨⟨.of_pads [_] rfl (by simp) fun h => ⟨h.contents, h.reads⟩,
    fun h => ⟨h.owners, h.distinct, h.undriven⟩,
    fun _ hd => ⟨fun k => by rw [hheld]; exact hd.owned k, hd.pins⟩⟩, rfl, rfl⟩

/-- `PINREG[r] <- 0xFF` of a role that is not acquired (R134). -/
theorem clearPin_inSession {s : State} {r : Role} (hbit : prsBit s.prs r = false) :
    WorksInSession s (clearPin r s) := by
  have hget : ∀ q, prsBit s.prs q = true → (clearPin r s).pinreg.get q = s.pinreg.get q := fun q hq =>
    PinGroup.get_put_other _ _ fun hqr => by rw [hqr, hbit] at hq; cases hq
  refine ⟨⟨.of_pads [] rfl (by simp) fun h => ⟨h.contents, h.reads⟩, fun h => ?_,
    fun _ hd => ⟨hd.owned, hd.pins⟩⟩, rfl, rfl⟩
  refine ⟨fun id => (h.owners id).trans (exists_congr fun q => and_congr_right fun hq => ?_),
    fun q q' hq hq' heq => h.distinct q q' hq hq' ?_, h.undriven⟩
  · rw [hget q hq]
  · rwa [hget q hq, hget q' hq'] at heq

/-- The pad is given back and `PRS[r] <- 0` (R132, R134). -/
theorem releaseEffect_inSession {s : State} {r : Role} {p : Pad} (hbit : prsBit s.prs r = true)
    (hp : padOf s (s.pinreg.get r) = some p) :
    WorksInSession s (clearPrs r (emit (.release (s.pinreg.get r)) (setPad (s.pinreg.get r) ⟨.free, .z⟩ s))) := by
  have howns : ∀ id, ownsPad (setPad (s.pinreg.get r) ⟨.free, .z⟩ s) id ↔
      id ≠ s.pinreg.get r ∧ ownsPad s id := by
    intro id
    rw [ownsPad, padOf_setPad]
    split
    · rename_i hid
      simp [hid, hp]
    · rename_i hid
      simp [hid]
  have hcleared : ∀ q, prsBit (clearPrs r s).prs q = true ↔ q ≠ r ∧ prsBit s.prs q = true := fun q => by
    simp [clearPrs, prsBit_prsClear]
  refine ⟨⟨.of_pads [_] rfl (by simp) fun h => ⟨h.contents, h.reads⟩, fun h => ?_,
    fun _ hd => ⟨fun id => (howns id).trans ?_, hd.pins⟩⟩, rfl, rfl⟩
  · refine ⟨fun id => (howns id).trans ((and_congr_right' (h.owners id)).trans ⟨?_, ?_⟩),
      fun q q' hq hq' => h.distinct q q' ((hcleared q).1 hq).2 ((hcleared q').1 hq').2, fun id q hq ho => ?_⟩
    · rintro ⟨hne, q, hq, hid⟩
      exact ⟨q, (hcleared q).2 ⟨fun hqr => hne (hqr ▸ hid.symm), hq⟩, hid⟩
    · rintro ⟨q, hq, hid⟩
      obtain ⟨hqr, hqs⟩ := (hcleared q).1 hq
      -- only the role itself names its pad
      exact ⟨fun hpin => hqr (h.distinct q r hqs hbit (hid.trans hpin)), q, hqs, hid⟩
    · change padOf (setPad _ _ s) id = some q at hq
      rw [padOf_setPad] at hq
      split at hq
      · rw [hp] at hq
        cases hq
        rfl
      · exact h.undriven id q hq ho
  · refine (and_congr_right' (hd.owned id)).trans ?_
    show _ ↔ (if s.pinreg.get r = id then false else heldInTrace s.traceRev id) = true
    by_cases hid : id = s.pinreg.get r
    · simp [hid]
    · simp [hid, Ne.symm hid]

end Sys2Proof.Machine

/-! Every micro-step, procedure and release of pads, whatever the agenda lists and whatever pads are held, in terms
of `Works` and its refinements. -/

namespace Sys2Proof.Machine

open Sys2Proof.Config (width fbSize)

/-! ## How a part ends -/

/-- Where the part goes on, the state has the property `P`; where it raises an error, the property `E`. A structure,
so that Lean does not run the part when it looks at the statement. -/
structure Res.Ends (P E : State → Prop) (r : Res) : Prop where
  goesOn : ∀ t, r = .ok t → P t
  raises : ∀ c t, r = .raise c t → E t

/-- The part raises no error, and has the property where it goes on. -/
abbrev Res.Runs (P : State → Prop) (r : Res) : Prop := r.Ends P fun _ => False

/-- The part has the property however it ends. -/
abbrev Res.Always (P : State → Prop) (r : Res) : Prop := r.Ends P P

theorem Res.Ends.ok {P E : State → Prop} {s : State} (h : P s) : (Res.ok s).Ends P E :=
  ⟨fun _ ht => Res.ok.inj ht ▸ h, fun _ _ ht => by cases ht⟩

theorem Res.Ends.raise {P E : State → Prop} {s : State} {c : Code} (h : E s) : (Res.raise c s).Ends P E :=
  ⟨fun _ ht => (by cases ht), fun _ _ ht => by cases ht; exact h⟩

theorem Res.Ends.fault {P E : State → Prop} (f : Fault) : (Res.fault f).Ends P E :=
  ⟨fun _ ht => (by cases ht), fun _ _ ht => by cases ht⟩

@[simp] theorem Res.always_ok {P : State → Prop} {s : State} : (Res.ok s).Always P ↔ P s :=
  ⟨fun h => h.goesOn s rfl, .ok⟩

theorem Res.Runs.mono {P Q : State → Prop} {r : Res} (hr : r.Runs P) (h : ∀ s, P s → Q s) : r.Runs Q :=
  ⟨fun t ht => h t (hr.goesOn t ht), hr.raises⟩

theorem Res.Always.mono {P Q : State → Prop} {r : Res} (hr : r.Always P) (h : ∀ s, P s → Q s) : r.Always Q :=
  ⟨fun t ht => h t (hr.goesOn t ht), fun c t ht => h t (hr.raises c t ht)⟩

theorem Res.Runs.always {P : State → Prop} {r : Res} (hr : r.Runs P) : r.Always P :=
  ⟨hr.goesOn, fun c t ht => (hr.raises c t ht).elim⟩

theorem Res.Runs.and {P Q : State → Prop} {r : Res} (hr : r.Runs P) (hq : r.Always Q) :
    r.Runs fun t => P t ∧ Q t :=
  ⟨fun t ht => ⟨hr.goesOn t ht, hq.goesOn t ht⟩, hr.raises⟩

theorem Res.Ends.andThen {P Q E : State → Prop} {r : Res} {k : State → Res} (hr : r.Ends P E)
    (hk : ∀ s, P s → (k s).Ends Q E) : (r.andThen k).Ends Q E := by
  cases r with
  | ok s => exact hk s (hr.goesOn s rfl)
  | raise c s => exact .raise (hr.raises c s rfl)
  | fault f => exact .fault f

/-- A property every part runs to again. -/
theorem runAll_runs {P : State → Prop} {ps : List (State → Res)} (hp : ∀ p ∈ ps, ∀ s, P s → (p s).Runs P)
    {s : State} (hs : P s) : (runAll ps s).Runs P := by
  induction ps generalizing s with
  | nil => exact .ok hs
  | cons p ps ih => exact (hp p (by simp) s hs).andThen fun t ht => ih (fun q hq => hp q (by simp [hq])) ht

/-- A reflexive and transitive relation every part keeps. -/
theorem runAll_related {R : State → State → Prop} (hrefl : ∀ s, R s s) (htrans : ∀ {s t u}, R s t → R t u → R s u)
    {ps : List (State → Res)} (hp : ∀ p ∈ ps, ∀ s, (p s).Always (R s)) (s : State) :
    (runAll ps s).Always (R s) := by
  induction ps generalizing s with
  | nil => exact .ok (hrefl s)
  | cons p ps ih =>
    have hrec : ∀ t, R s t → (runAll ps t).Always (R s) := fun t ht =>
      (ih (fun q hq => hp q (by simp [hq])) t).mono fun _ => htrans ht
    cases hps : p s with
    | ok t => rw [runAll_cons, hps]; exact hrec t ((hp p (by simp) s).goesOn t hps)
    | raise c t => rw [runAll_cons, hps]; exact .raise ((hp p (by simp) s).raises c t hps)
    | fault f => rw [runAll_cons, hps]; exact .fault f

theorem runAll_onBus {ps : List (State → Res)} (hp : ∀ p ∈ ps, ∀ s, (p s).Always (WorksOnBus s)) (s : State) :
    (runAll ps s).Always (WorksOnBus s) := runAll_related (R := WorksOnBus) .refl .trans hp s

theorem runAll_inSession {ps : List (State → Res)} (hp : ∀ p ∈ ps, ∀ s, (p s).Always (WorksInSession s))
    (s : State) : (runAll ps s).Always (WorksInSession s) := runAll_related (R := WorksInSession) .refl .trans hp s

/-! ## The micro-steps of the sequencer -/

theorem pinDrive_onBus (r : Role) (v : Level) (s : State) : (pinDrive r v s).Always (WorksOnBus s) := by
  have hask := (askOracle_quietly s).toWorksOnBus
  rcases pinDrive_cases r v s with ⟨p, hp, hprs, h⟩ | ⟨-, h⟩ | ⟨f, h⟩ <;> rw [h]
  · obtain ⟨rest, hs⟩ := askOracle_state s
    rw [hs] at hask ⊢
    exact .ok (hask.trans (pinEffect_onBus (s := { s with inp := { s.inp with pinFault := rest } }) v hprs hp))
  · exact .raise hask
  · exact .fault f

theorem pinWrite_onBus (r : Role) (v : Level) (s : State) : (pinWrite r v s).Always (WorksOnBus s) :=
  (pinDrive_onBus r v (boundary .seq s)).mono fun _ => (boundary_quietly .seq s).toWorksOnBus.trans

theorem wait_quietly (d : Nat) (s : State) : (wait d s).Runs (WorksQuietly s) := by
  unfold wait
  split
  · exact .ok (.refl s)
  · exact .ok ((boundary_quietly .seq s).trans (emitWait_quietly d _))

theorem seqWrite_quietly (a : Nat) (v : Byte) (s : State) : (seqWrite a v s).Runs (WorksQuietly s) := by
  unfold seqWrite
  split
  · rename_i ha
    exact .ok ((boundary_quietly .seq s).trans (memWrite_quietly .seq ha v _))
  · exact .fault _

/-- A framebuffer read of SEQ, and what is done with the byte from the state after it. -/
theorem seqRead_cases (a : Nat) (k : Byte → State → Res) (s : State) :
    (∃ v t, seqRead a k s = k v t ∧ WorksQuietly s t) ∨ ∃ f, seqRead a k s = .fault f := by
  unfold seqRead
  split
  · exact .inl ⟨_, _, rfl, (boundary_quietly .seq s).trans (memRead_elsewhere a _).quietly⟩
  · exact .inr ⟨_, rfl⟩

theorem acquireRole_inSession (r : Role) (s : State) : (acquireRole r s).Always (WorksInSession s) := by
  have hb := (boundary_quietly .seq s).toWorksInSession
  unfold acquireRole
  simp only
  split
  · exact .fault _
  · rename_i p hp
    split
    · rename_i hfree
      exact .ok (hb.trans (acquireEffect_inSession hp hfree))
    · exact .raise (hb.trans (refusalEffect_inSession _ _))

/-- A role that is not acquired and names no pad (R134). -/
def Released (s : State) (r : Role) : Prop := prsBit s.prs r = false ∧ s.pinreg.get r = pinNone

/-- A role's release raises no error, and the roles released before it stay so (R134). -/
theorem releaseRole_runs (r : Role) (s : State) : (releaseRole r s).Runs fun t =>
    WorksInSession s t ∧ Released t r ∧ ∀ q, Released s q → Released t q := by
  unfold releaseRole
  split
  · rename_i hbit
    have hb := boundary_quietly .seq s
    simp only [runAll_cons, padRelease]
    split
    · exact .fault _
    · rename_i p hp
      have hbit' : prsBit (boundary .seq s).prs r = true := by rw [hb.prs]; exact hbit
      have hclear : prsBit (prsClear (boundary .seq s).prs r) r = false := by simp [prsBit_prsClear]
      refine .ok ⟨hb.toWorksInSession.trans ((releaseEffect_inSession hbit' hp).trans (clearPin_inSession hclear)),
        ⟨hclear, PinGroup.get_put_same _ r _⟩, fun q hq => ?_⟩
      have hqr : q ≠ r := fun h => by rw [Released, h, hbit] at hq; cases hq.1
      refine ⟨?_, (PinGroup.get_put_other _ _ hqr).trans ?_⟩
      · show prsBit (prsClear (boundary .seq s).prs r) q = false
        rw [prsBit_prsClear, hb.prs, hq.1, Bool.and_false]
      · show (boundary .seq s).pinreg.get q = _
        rw [hb.pinreg, hq.2]
  · rename_i hbit
    rw [Bool.not_eq_true] at hbit
    refine .ok ⟨clearPin_inSession hbit, ⟨hbit, PinGroup.get_put_same _ r _⟩, fun q hq => ⟨hq.1, ?_⟩⟩
    by_cases hqr : q = r
    · rw [hqr]
      exact PinGroup.get_put_same _ r _
    · exact (PinGroup.get_put_other _ _ hqr).trans hq.2

/-- The releases of a list of roles. -/
theorem releaseRoles_runs (rs : List Role) (s : State) : (runAll (rs.map releaseRole) s).Runs fun t =>
    WorksInSession s t ∧ ∀ q, q ∈ rs ∨ Released s q → Released t q := by
  induction rs generalizing s with
  | nil => exact .ok ⟨.refl s, fun q hq => hq.resolve_left (by simp)⟩
  | cons r rs ih =>
    refine (releaseRole_runs r s).andThen fun t ⟨hst, hr, hkeep⟩ => (ih t).mono fun u ⟨htu, hu⟩ =>
      ⟨hst.trans htu, fun q hq => hu q ?_⟩
    rcases hq with hq | hq
    · rcases List.mem_cons.1 hq with rfl | hq
      · exact .inr hr
      · exact .inl hq
    · exact .inr (hkeep q hq)

/-- With every role released PRS and PINREG are those of an unconfigured block (R15). -/
theorem registers_of_released {s : State} (h : ∀ r, Released s r) :
    s.prs = 0 ∧ s.pinreg = ⟨pinNone, pinNone, pinNone, pinNone⟩ := by
  refine ⟨prs_ext fun r => (h r).1.trans (by cases r <;> rfl), ?_⟩
  have hclk := (h .clk).2
  have hdout := (h .dout).2
  have hrst := (h .rst).2
  have hdc := (h .dc).2
  simp only [PinGroup.get] at hclk hdout hrst hdc
  cases hg : s.pinreg
  simp_all

/-- `ReleasePins()` (R134). -/
theorem releasePins_runs (s : State) : (releasePins s).Runs fun t =>
    WorksInSession s t ∧ t.prs = 0 ∧ t.pinreg = ⟨pinNone, pinNone, pinNone, pinNone⟩ :=
  (releaseRoles_runs [.clk, .dout, .rst, .dc] s).mono fun _ ⟨hw, h⟩ =>
    ⟨hw, registers_of_released fun r => h r (.inl (by cases r <;> simp))⟩

/-- `Rollback()` (R136). -/
theorem rollback_runs (lc0 : Lifecycle) (s : State) : (rollback lc0 s).Runs fun t =>
    WorksInSession s t ∧ t.prs = 0 ∧ t.pinreg = ⟨pinNone, pinNone, pinNone, pinNone⟩ ∧ t.cfg = false ∧
      t.lc = lc0 := by
  have hsplit : rollback lc0 s = (runAll (([.dc, .rst, .dout, .clk] : List Role).map releaseRole) s).andThen
      (runAll [update fun s => { s with lc := lc0, cfg := false }]) :=
    runAll_append (([.dc, .rst, .dout, .clk] : List Role).map releaseRole) _ s
  rw [hsplit]
  refine (releaseRoles_runs [.dc, .rst, .dout, .clk] s).andThen fun t ⟨hw, h⟩ => ?_
  obtain ⟨hprs, hreg⟩ := registers_of_released fun r => h r (.inl (by cases r <;> simp))
  exact .ok ⟨hw.trans ⟨.of_same rfl id, rfl, rfl⟩, hprs, hreg, rfl, rfl⟩

/-! ## The procedures, whatever the agenda and the pads -/

theorem selectWrite_onBus (isData : Bool) (s : State) : (selectWrite isData s).Always (WorksOnBus s) :=
  pinWrite_onBus .dc _ s

theorem dataWrite_onBus (s : State) : (dataWrite s).Always (WorksOnBus s) := pinWrite_onBus .dout _ s

theorem delay_onBus (s : State) : (delay s).Always (WorksOnBus s) :=
  (wait_quietly _ s).always.mono fun _ h => h.toWorksOnBus

/-- A write of the sequencer's counters. -/
theorem setSeqr_quietly (q : SeqRegs) (s : State) : WorksQuietly s { s with seqr := q } := .of_same rfl id

theorem bitCell_onBus (i : Nat) (s : State) : (bitCell i s).Always (WorksOnBus s) := by
  have hcnt : ∀ u, WorksOnBus u (setBitcnt i u) := fun u => (setSeqr_quietly _ u).toWorksOnBus
  have hshift : ∀ u, WorksOnBus u (shiftSr u) := fun u => (setSeqr_quietly _ u).toWorksOnBus
  exact runAll_onBus (by simp [hcnt, hshift, pinWrite_onBus, dataWrite_onBus, delay_onBus]) s

theorem sendByte_onBus (b : Byte) (isData : Bool) (s : State) : (sendByte b isData s).Always (WorksOnBus s) := by
  have hload : ∀ u, WorksOnBus u (loadSr b u) := fun u => (setSeqr_quietly _ u).toWorksOnBus
  exact runAll_onBus (by simp [hload, selectWrite_onBus, delay_onBus, bitCell_onBus]) s

theorem sendSeqFrom_onBus (isData : Bool) (k : Nat) (bytes : List Byte) (s : State) :
    (sendSeqFrom isData k bytes s).Always (WorksOnBus s) := by
  induction bytes generalizing k s with
  | nil => exact .ok (.refl s)
  | cons b bs ih =>
    have hidx : WorksOnBus s (setIdx k s) := (setSeqr_quietly _ s).toWorksOnBus
    exact ((sendByte_onBus b isData _).mono fun _ => hidx.trans).andThen fun t ht =>
      (ih (k + 1) t).mono fun _ => ht.trans

theorem sendSeq_onBus (bytes : List Byte) (isData : Bool) (s : State) :
    (sendSeq bytes isData s).Always (WorksOnBus s) := sendSeqFrom_onBus isData 0 bytes s

theorem refreshColumn_onBus (q col : Nat) (s : State) : (refreshColumn q col s).Always (WorksOnBus s) := by
  have hcol := setSeqr_quietly { s.seqr with col := BitVec.ofNat 7 col } s
  unfold refreshColumn
  rcases seqRead_cases (q * width + col) (fun v => sendByte v true) (setCol col s) with ⟨v, t, h, hq⟩ | ⟨f, h⟩ <;>
    rw [h]
  · exact (sendByte_onBus v true t).mono fun _ => (hcol.trans hq).toWorksOnBus.trans
  · exact .fault f

theorem refreshPage_onBus (pg : Nat) (s : State) : (refreshPage pg s).Always (WorksOnBus s) := by
  have hpg : WorksOnBus s (setPg pg s) := (setSeqr_quietly _ s).toWorksOnBus
  unfold refreshPage
  simp only
  split
  · exact .ok hpg
  · refine ((sendSeq_onBus _ false _).mono fun _ => hpg.trans).andThen fun t ht => ?_
    exact (runAll_onBus (by simp [refreshColumn_onBus]) t).mono fun _ => ht.trans

theorem refreshBody_onBus (s : State) : (refreshBody s).Always (WorksOnBus s) :=
  runAll_onBus (by simp [refreshPage_onBus]) s

/-- SEQ's writes of one value to a list of addresses. -/
theorem seqWrites_quietly (as : List Nat) (v : Byte) (s : State) :
    (runAll (as.map fun a => seqWrite a v) s).Runs (WorksQuietly s) := by
  refine runAll_runs (P := WorksQuietly s) (fun p hp u hu => ?_) (.refl s)
  obtain ⟨a, -, rfl⟩ := List.mem_map.1 hp
  exact (seqWrite_quietly a v u).mono fun _ => hu.trans

theorem seqZero_quietly (s : State) : (seqZero s).Runs (WorksQuietly s) :=
  seqWrites_quietly (List.range fbSize) 0x00 s

theorem clearBody_onBus (s : State) : (clearBody s).Always (WorksOnBus s) := by
  have hzero : ∀ u, (seqZero u).Always (WorksOnBus u) := fun u =>
    (seqZero_quietly u).always.mono fun _ h => h.toWorksOnBus
  exact runAll_onBus (by simp [hzero, refreshBody_onBus]) s

theorem idleLevels_onBus (s : State) : (idleLevels s).Always (WorksOnBus s) :=
  runAll_onBus (by simp [pinWrite_onBus, selectWrite_onBus]) s

theorem writeBytes_quietly (a : Nat) (payload : List Byte) (s : State) :
    (writeBytes a payload s).Runs (WorksQuietly s) := by
  induction payload generalizing a s with
  | nil => exact .ok (.refl s)
  | cons d ds ih =>
    exact (seqWrite_quietly a d s).andThen fun t ht => (ih (a + 1) t).mono fun _ => ht.trans

/-- A write of the lifecycle's registers (R13, R14). -/
theorem setCfgLc_inSession (c : Bool) (l : Lifecycle) (s : State) :
    WorksInSession s { s with cfg := c, lc := l } := ⟨.of_same rfl id, rfl, rfl⟩

theorem acquirePins_inSession (s : State) : (acquirePins s).Always (WorksInSession s) := by
  have hidle : ∀ u, (idleLevels u).Always (WorksInSession u) := fun u =>
    (idleLevels_onBus u).mono fun _ h => h.toWorksInSession
  have hlc : ∀ u, WorksInSession u (setLc .pinsAcquired u) := fun u => setCfgLc_inSession _ _ u
  exact runAll_inSession (by simp [acquireRole_inSession, hidle, hlc]) s

/-- What `PowerOn()` does on the bus (R137): the reset pulse and the initialisation sequence. -/
def resetAndInit : State → Res :=
  runAll [pinWrite .rst false, fun s => wait s.params.tResetLow s, pinWrite .rst true,
    fun s => wait s.params.tResetHigh s, fun s => sendSeq s.params.initSeq false s]

theorem powerOn_eq (s : State) : powerOn s = (resetAndInit s).andThen (runAll [update (setLc .initialized)]) :=
  runAll_append [pinWrite .rst false, fun s => wait s.params.tResetLow s, pinWrite .rst true,
    fun s => wait s.params.tResetHigh s, fun s => sendSeq s.params.initSeq false s] _ s

theorem resetAndInit_onBus (s : State) : (resetAndInit s).Always (WorksOnBus s) := by
  have hwait : ∀ d u, (wait d u).Always (WorksOnBus u) := fun d u =>
    (wait_quietly d u).always.mono fun _ h => h.toWorksOnBus
  exact runAll_onBus (by simp [pinWrite_onBus, hwait, sendSeq_onBus]) s

theorem powerOn_inSession (s : State) : (powerOn s).Always (WorksInSession s) := by
  rw [powerOn_eq]
  exact ((resetAndInit_onBus s).mono fun _ h => h.toWorksInSession).andThen fun t ht =>
    .ok (ht.trans (setCfgLc_inSession t.cfg .initialized t))

theorem bringUp_inSession (s : State) : (bringUp s).Always (WorksInSession s) := by
  have hcfg : ∀ u, WorksInSession u { u with cfg := true } := fun u => setCfgLc_inSession _ _ u
  have hclear : ∀ u, (clearBody u).Always (WorksInSession u) := fun u =>
    (clearBody_onBus u).mono fun _ h => h.toWorksInSession
  exact runAll_inSession (by simp [acquirePins_inSession, powerOn_inSession, hcfg, hclear]) s

end Sys2Proof.Machine

/-! One lemma per body, then what one instruction and one step can do: `step_works` and `step_safely` say it for
every step, `step_next` which instruction a step runs. -/

namespace Sys2Proof.Machine

/-! ## The bodies of the control commands -/

/-- The body of each control command inside the frame of R165. -/
def controlBody : Instr → State → Res
  | .sessionOpen => openBody
  | .sessionClose => sessionCloseBody
  | .configure clk dout rst dc => configureBody clk dout rst dc
  | .displayOn => guarded (runAll [fun t => sendSeq t.params.onSeq.toList false t, update (setLc .opened)])
  | .displayOff => guarded (runAll [fun t => sendSeq t.params.offSeq.toList false t, update (setLc .closed)])
  | .refresh => guarded refreshBody
  | .clear => guarded clearBody
  | .mapFb size => mapBody size
  | .bulkWrite off len payload => bulkBody off len payload
  | .queryInfo => update fun t => { t with answer := some queryAnswer }
  | .teardown => teardownBody
  | .fbClear | .fbFillWhite | .drawPoint .. | .drawChar .. | .drawString .. | .drawBitmap .. | .fillRegion ..
  | .phyCmd _ | .phyData _ => .ok

/-- Every control command is its body inside the one frame (R165). -/
theorem exec_eq_controlFrame {i : Instr} (h : i.port = .control) (s : State) :
    exec i s = controlFrame (controlOpcode i) (needsSession i) (controlBody i) s := by
  cases i <;> simp only [Instr.port, reduceCtorEq] at h <;>
    simp only [exec, controlOpcode, needsSession, controlBody, execSessionOpen, execSessionClose, execConfigure,
      execDisplayOn, execDisplayOff, execRefresh, execClear, execMapFb, execBulkWrite, execQueryInfo, execTeardown]

/-- Every raster operation is its micro-steps inside the one frame (R100). -/
theorem exec_eq_rasterFrame {i : Instr} (h : i.port = .raster) (s : State) :
    exec i s = rasterFrame (rasterProgram i) s := by
  cases i <;> simp only [Instr.port, reduceCtorEq] at h <;> rfl

/-- Every PHY request is one transaction (R84, R85). -/
theorem exec_eq_phyFrame {i : Instr} (h : i.port = .phy) :
    ∃ b isData, ∀ s, exec i s = phyFrame b isData s := by
  cases i with
  | phyCmd b => exact ⟨b, false, fun _ => rfl⟩
  | phyData b => exact ⟨b, true, fun _ => rfl⟩
  | _ => cases h

theorem guarded_safely {body : State → Res} (hbody : ∀ s, (body s).Always (WorksSafely s)) (s : State) :
    (guarded body s).Always (WorksSafely s) := by
  unfold guarded
  split
  · exact hbody s
  · exact .raise (.refl s)

theorem runAll_safely {ps : List (State → Res)} (hp : ∀ p ∈ ps, ∀ s, (p s).Always (WorksSafely s)) (s : State) :
    (runAll ps s).Always (WorksSafely s) := runAll_related (R := WorksSafely) .refl .trans hp s

/-- DISPLAY_ON and DISPLAY_OFF: a sequence of commands, then LC (R161, R162). -/
theorem sendThenSetLc_safely (bytes : Config.Params → List Byte) (l : Lifecycle) (s : State) :
    (runAll [fun t => sendSeq (bytes t.params) false t, update (setLc l)] s).Always (WorksSafely s) := by
  have hsend : ∀ b u, (sendSeq b false u).Always (WorksSafely u) := fun b u =>
    (sendSeq_onBus b false u).mono fun _ h => h.toWorksSafely
  have hlc : ∀ u, WorksSafely u (setLc l u) := fun _ => .of_same rfl id
  exact runAll_safely (by simp [hsend, hlc]) s

theorem powerDown_onBus (s : State) : (powerDown s).Always (WorksOnBus s) := by
  unfold powerDown
  split
  · exact sendSeq_onBus _ false s
  · exact .ok (.refl s)

theorem closeBody_safely (s : State) : (closeBody s).Always (WorksSafely s) := by
  have hdown : ∀ u, (powerDown u).Always (WorksSafely u) := fun u =>
    (powerDown_onBus u).mono fun _ h => h.toWorksSafely
  have hpins : ∀ u, (releasePins u).Always (WorksSafely u) := fun u =>
    (releasePins_runs u).always.mono fun _ h => h.1.toWorksSafely
  have hflags : ∀ u : State, WorksSafely u { u with cfg := false, lc := .released } := fun _ => .of_same rfl id
  have hmapped : ∀ u, WorksSafely u { boundary .seq u with mapped := false } := fun u =>
    (boundary_quietly .seq u).toWorksSafely.trans (.of_same rfl id)
  have hslock : ∀ u : State, WorksSafely u { u with slock := false } := fun _ => .of_same rfl id
  exact runAll_safely (by simp [hdown, hpins, hflags, hmapped, hslock]) s

/-- The block's end (R25, R187): nothing is claimed of a dead block's framebuffer. -/
theorem die_safely (s : State) : WorksSafely s (die s) :=
  ⟨⟨rfl, rfl, ⟨[], rfl, by simp⟩, id, fun _ => Memory.wf_nil, fun _ => rfl, fun h => (by cases h),
    fun h => by cases h⟩, fun h => ⟨h.owners, h.distinct, h.undriven⟩, fun _ h => ⟨h.owned, h.pins⟩⟩

theorem teardownBody_safely (s : State) : (teardownBody s).Always (WorksSafely s) := by
  have hreq : ∀ u : State, WorksSafely u { u with tdreq := false } := fun _ => .of_same rfl id
  exact runAll_safely (by simp [hreq, closeBody_safely, die_safely]) s

/-- CONFIGURE's body keeps whatever its register write, its bring-up and its rollback keep. -/
theorem configureBody_related {R : State → State → Prop} (hrefl : ∀ s, R s s)
    (htrans : ∀ {s t u}, R s t → R t u → R s u) (hsession : ∀ {s t}, WorksInSession s t → R s t)
    {clk dout rst dc : PinId} {s : State}
    (hset : s.cfg = false → R s { s with pinreg := ⟨clk, dout, rst, dc⟩ }) :
    (configureBody clk dout rst dc s).Always (R s) := by
  unfold configureBody
  split
  · exact .ok (hrefl s)
  · rename_i hcfg
    split
    · exact .raise (hrefl s)
    · have hs := hset (by simpa using hcfg)
      have hb := bringUp_inSession { s with pinreg := ⟨clk, dout, rst, dc⟩ }
      split
      · rename_i t ht
        exact .ok (htrans hs (hsession (hb.goesOn t ht)))
      · rename_i c t ht
        refine Res.Ends.andThen (P := R s) ?_ fun u hu => .raise hu
        exact (rollback_runs s.lc t).always.mono fun u hu =>
          htrans hs (htrans (hsession (hb.raises c t ht)) (hsession hu.1))
      · exact .fault _

/-- Every control command but CONFIGURE keeps the pads' discipline from every state; CONFIGURE does where no pad is
acquired while CFG = 0 (R15). -/
theorem controlBody_safely (i : Instr) (s : State)
    (h : ∀ clk dout rst dc, i = .configure clk dout rst dc → s.cfg = false → s.prs = 0) :
    (controlBody i s).Always (WorksSafely s) := by
  cases i with
  | sessionOpen =>
    show (openBody s).Always _
    unfold openBody
    split
    · exact .raise (.refl s)
    · exact .ok (.of_same rfl id)
  | sessionClose =>
    show (sessionCloseBody s).Always _
    unfold sessionCloseBody
    split
    · exact closeBody_safely s
    · exact .ok (.refl s)
  | configure clk dout rst dc =>
    refine configureBody_related .refl .trans (fun k => k.toWorksSafely) fun hcfg => ?_
    have hbit : ∀ r, prsBit s.prs r = false := fun r => by
      rw [h _ _ _ _ rfl hcfg]; cases r <;> rfl
    refine ⟨.of_pads [] rfl (by simp) fun k => ⟨k.contents, k.reads⟩,
      fun k => ⟨fun id => (k.owners id).trans ?_, fun r q hr => ?_, k.undriven⟩, fun _ k => ⟨k.owned, k.pins⟩⟩
    · simp [hbit]
    · rw [hbit r] at hr
      cases hr
  | displayOn => exact guarded_safely (sendThenSetLc_safely (fun p => p.onSeq.toList) .opened) s
  | displayOff => exact guarded_safely (sendThenSetLc_safely (fun p => p.offSeq.toList) .closed) s
  | refresh => exact guarded_safely (fun u => (refreshBody_onBus u).mono fun _ k => k.toWorksSafely) s
  | clear => exact guarded_safely (fun u => (clearBody_onBus u).mono fun _ k => k.toWorksSafely) s
  | mapFb size =>
    show (mapBody size s).Always _
    unfold mapBody
    split
    · exact .raise (.refl s)
    · split
      · exact .raise (.refl s)
      · exact .ok (.of_same rfl id)
  | bulkWrite off len payload =>
    show (bulkBody off len payload s).Always _
    unfold bulkBody
    split
    · exact .raise (.refl s)
    · exact (writeBytes_quietly _ payload s).always.mono fun _ k => k.toWorksSafely
  | queryInfo => exact .ok (.of_same rfl id)
  | teardown => exact teardownBody_safely s
  | _ => exact .ok (.refl s)

theorem controlBody_works (i : Instr) (s : State) : (controlBody i s).Always (Works s) := by
  cases i with
  | configure clk dout rst dc =>
    exact configureBody_related (fun u => (WorksSafely.refl u).toWorks) .trans (fun k => k.toWorks) fun _ =>
      .of_pads [] rfl (by simp) fun k => ⟨k.contents, k.reads⟩
  | _ => exact (controlBody_safely _ s (by simp)).mono fun _ k => k.toWorks

/-! ## One instruction -/

/-- A control command ends in a response, after a body that came to a state with the property, or after the failed
session check (R165, R205). -/
theorem exec_control_next {P : State → Prop} {i : Instr} {s t : State} (hport : i.port = .control)
    (h : exec i s = .next t) (hbegin : P (begin s))
    (hbody : (needsSession i = true → s.slock = true) → (controlBody i (begin s)).Always P) :
    ∃ c u, P u ∧ t = finish (controlOpcode i) c u := by
  rw [exec_eq_controlFrame hport] at h
  obtain ⟨-, ⟨-, -, ht⟩ | ⟨hs, hc⟩⟩ := controlFrame_next h
  · exact ⟨_, _, hbegin, ht⟩
  · have hbody := hbody fun hn => by
      have := hs hn
      simp only [sessionOk, Bool.and_eq_true] at this
      exact this.1
    obtain ⟨c, u, hu, ht⟩ := conclude_next hc
    refine ⟨c, u, ?_, ht⟩
    rcases hu with ⟨hu, -⟩ | hu
    · exact hbody.goesOn u hu
    · exact hbody.raises c u hu

theorem rasDrain_elsewhere (n : Nat) (s : State) : Elsewhere s (rasDrain n s) := by
  induction n generalizing s with
  | zero => exact .refl s
  | succ n ih =>
    unfold rasDrain
    split
    · exact .refl s
    · rename_i op _ _
      have hb : Elsewhere s (if op.isAccess then boundary .ras s else s) := by
        split
        · exact boundary_elsewhere .ras s
        · exact .refl s
      exact hb.trans ((rasTick_elsewhere _).trans (ih _))

/-- The operation in flight runs to its end (R100). -/
theorem rasFinish_quietly (s : State) : WorksQuietly s (rasFinish s) := (rasDrain_elsewhere _ s).quietly

theorem exec_raster_next {i : Instr} {s t : State} (hport : i.port = .raster) (h : exec i s = .next t) :
    WorksQuietly s t := by
  rw [exec_eq_rasterFrame hport, rasterFrame] at h
  split at h
  · cases h
  · cases h
    exact (rasFinish_quietly s).trans ((rasStart_elsewhere _ _).quietly.trans (rasFinish_quietly _))

/-- A PHY request ends where its transaction went on or where a failing pin write ended it (R84, R90). -/
theorem phyFrame_next {b : Byte} {isData : Bool} {s t : State} (h : phyFrame b isData s = .next t) :
    sendByte b isData s = .ok t ∨ ∃ c, sendByte b isData s = .raise c t := by
  unfold phyFrame at h
  split at h
  · cases h
  · split at h
    · rename_i u hu
      cases h
      exact .inl hu
    · rename_i c u hu
      cases h
      exact .inr ⟨c, hu⟩
    · cases h

theorem exec_phy_next {i : Instr} {s t : State} (hport : i.port = .phy) (h : exec i s = .next t) :
    WorksOnBus s t := by
  obtain ⟨b, isData, hexec⟩ := exec_eq_phyFrame hport
  rcases phyFrame_next ((hexec s).symm.trans h) with hu | ⟨c, hu⟩
  · exact (sendByte_onBus b isData s).goesOn t hu
  · exact (sendByte_onBus b isData s).raises c t hu

/-! ## One step -/

/-- A step to `t` is, from a state in which only other agents have acted and a word has been taken off its port: no
command, the answer to a reserved word, or one instruction. -/
def ServedFrom (s t : State) : Prop :=
  ∃ u, WorksQuietly s u ∧ (t = u ∨ (∃ op, illegal op u = .next t) ∨ ∃ i, exec i u = .next t)

theorem ServedFrom.after {s u t : State} (k : ServedFrom u t) (h : WorksQuietly s u) : ServedFrom s t := by
  obtain ⟨v, hv, ht⟩ := k
  exact ⟨v, h.trans hv, ht⟩

theorem ServedFrom.of_idle {s t : State} (h : WorksQuietly s t) : ServedFrom s t := ⟨t, h, .inl rfl⟩

theorem ServedFrom.of_exec {s t u : State} {i : Instr} (k : exec i u = .next t) (h : WorksQuietly s u) :
    ServedFrom s t := ⟨u, h, .inr (.inr ⟨i, k⟩)⟩

/-- Taking a word off a port, a turn used. -/
theorem setInp_quietly (s : State) (x : Inputs) (h : x.pinFault = s.inp.pinFault) :
    WorksQuietly s { s with inp := x } := .of_same rfl fun ho => h.trans ho

/-- The state of a word taken off the control port. -/
theorem offeredControl_quietly (s : State) :
    (∀ op t, offeredControl s = .reserved op t → WorksQuietly s t) ∧
      ∀ i t, offeredControl s = .command i t → WorksQuietly s t := by
  unfold offeredControl
  split
  · simp
  · simp only
    split
    · simp
    · split <;> simp [setInp_quietly]

theorem serveControl_next {s t : State} (h : serveControl s = .next t) : ServedFrom s t := by
  unfold serveControl at h
  split at h
  · cases h
    exact .of_idle (.refl s)
  · split at h
    · cases h
      exact .of_idle (.refl s)
    · rename_i op u hu
      exact ⟨u, (offeredControl_quietly s).1 op u hu, .inr (.inl ⟨op, h⟩)⟩
    · rename_i i u hu
      exact .of_exec h ((offeredControl_quietly s).2 i u hu)

theorem serveRaster_next {s t : State} (h : serveRaster s = .next t) : ServedFrom s t := by
  refine ServedFrom.after ?_ (rasFinish_quietly s)
  have hoff := offeredRaster_elsewhere (rasFinish s)
  unfold serveRaster at h
  simp only at h
  split at h
  · cases h
    exact .of_idle (.refl _)
  · rename_i op u hu
    cases h
    exact .of_idle (hoff.1 op _ hu).quietly
  · rename_i i u hu
    exact .of_exec h (hoff.2 i u hu).quietly

theorem servePhy_next {s t : State} (h : servePhy s = .next t) : ServedFrom s t := by
  unfold servePhy at h
  split at h
  · cases h
    exact .of_idle (.refl s)
  · exact .of_exec h (setInp_quietly s _ rfl)

theorem serve_next {s t : State} (h : serve s = .next t) : ServedFrom s t := by
  unfold serve at h
  split at h
  · exact .of_exec h (.refl s)
  · split at h
    · exact (serveControl_next h).after (setInp_quietly s _ rfl)
    · exact (serveRaster_next h).after (setInp_quietly s _ rfl)
    · exact (servePhy_next h).after (setInp_quietly s _ rfl)
    · split at h
      · exact serveControl_next h
      · split at h
        · exact serveRaster_next h
        · exact servePhy_next h

theorem step_next {s t : State} (h : step s = .next t) : ServedFrom s t := by
  unfold step at h
  split at h
  · cases h
  · exact (serve_next h).after (boundary_quietly .env s)

/-- The answer to a reserved word (R64). -/
theorem illegal_next {op : Byte} {s t : State} (h : illegal op s = .next t) :
    t = finish op .illegal (begin s) := by
  unfold illegal at h
  split at h
  · cases h
  · cases h
    rfl

/-- BUSY <- 1 (R165). -/
theorem begin_safely (s : State) : WorksSafely s (begin s) := .of_same rfl id

/-- What every quiet part and every body keeps, a step keeps up to the response that may end it. -/
theorem step_related {R : State → State → Prop} (hsafe : ∀ {s t}, WorksSafely s t → R s t)
    (htrans : ∀ {s t u}, R s t → R t u → R s u) {s t : State}
    (hbody : ∀ i u, WorksQuietly s u → (controlBody i (begin u)).Always (R (begin u)))
    (h : step s = .next t) : ∃ u, R s u ∧ (t = u ∨ ∃ op c, t = respond op c u) := by
  obtain ⟨u, hu, hcase⟩ := step_next h
  have hRu : R s u := hsafe hu.toWorksSafely
  have hbegin : R s (begin u) := htrans hRu (hsafe (begin_safely u))
  -- a response comes after one more boundary
  have hfinish : ∀ op c v, R s v → t = finish op c v → ∃ w, R s w ∧ (t = w ∨ ∃ op c, t = respond op c w) :=
    fun op c v hv ht => ⟨_, htrans hv (hsafe (boundary_quietly .seq v).toWorksSafely), .inr ⟨op, c, ht⟩⟩
  rcases hcase with ht | ⟨op, hi⟩ | ⟨i, hi⟩
  · exact ⟨u, hRu, .inl ht⟩
  · exact hfinish _ _ _ hbegin (illegal_next hi)
  · cases hport : i.port with
    | control =>
      obtain ⟨c, v, hv, ht⟩ := exec_control_next (P := R s) hport hi hbegin fun _ =>
        (hbody i u hu).mono fun _ => htrans hbegin
      exact hfinish _ _ _ hv ht
    | raster => exact ⟨t, htrans hRu (hsafe (exec_raster_next hport hi).toWorksSafely), .inl rfl⟩
    | phy => exact ⟨t, htrans hRu (hsafe (exec_phy_next hport hi).toWorksSafely), .inl rfl⟩

/-- Every step is one `Works`, but for the response that may end it. -/
theorem step_works {s t : State} (h : step s = .next t) :
    ∃ u, Works s u ∧ (t = u ∨ ∃ op c, t = respond op c u) :=
  step_related (fun k => k.toWorks) .trans (fun i u _ => controlBody_works i (begin u)) h

/-- Every step keeps the pads' discipline where no pad is acquired while CFG = 0 (R15). -/
theorem step_safely {s t : State} (hs : s.cfg = false → s.prs = 0) (h : step s = .next t) :
    ∃ u, WorksSafely s u ∧ (t = u ∨ ∃ op c, t = respond op c u) := by
  refine step_related id .trans (fun i u hu => controlBody_safely i (begin u) fun _ _ _ _ _ hcfg => ?_) h
  rw [begin_prs, hu.prs]
  exact hs (hu.cfg ▸ hcfg)

end Sys2Proof.Machine

/-! The four lines through the PHY's procedures and through CONFIGURE's bring-up: with the pads held, each runs to
the idle levels of R27. -/

namespace Sys2Proof.Machine

open Sys2Proof.Config (width)

/-! ## The pads' discipline from the invariant -/

/-- Validated identifiers are pads, and four different ones (R140). -/
theorem validatePins_spec {clk dout rst dc : PinId} {s : State} (h : validatePins clk dout rst dc s = true) :
    (∀ r, (PinGroup.mk clk dout rst dc).get r ≠ pinNone) ∧
      ∀ r q, (PinGroup.mk clk dout rst dc).get r = (PinGroup.mk clk dout rst dc).get q → r = q := by
  simp only [validatePins, validId, Bool.and_eq_true, bne_iff_ne, ne_eq] at h
  obtain ⟨⟨⟨⟨⟨⟨⟨⟨⟨h01, h02⟩, h03⟩, h12⟩, h13⟩, h23⟩, h0, -⟩, h1, -⟩, h2, -⟩, h3, -⟩ := h
  refine ⟨fun r => ?_, fun r q heq => ?_⟩
  · cases r <;> assumption
  · cases r <;> cases q <;> simp_all [PinGroup.get]

/-- Acquired pads belong to a configured block (R15). -/
theorem registersAgree.configured {s : State} (h : registersAgree s) (hprs : s.prs ≠ 0) :
    s.cfg = true ∧ s.prs = prsAll ∧ (s.lc = .initialized ∨ s.lc = .opened ∨ s.lc = .closed) ∧
      validatePins s.pinreg.clk s.pinreg.dout s.pinreg.rst s.pinreg.dc s = true := by
  unfold registersAgree at h
  split at h
  · rename_i hcfg
    exact ⟨hcfg, h⟩
  · exact absurd h.1 hprs

theorem registersAgree.unconfigured {s : State} (h : registersAgree s) (hcfg : s.cfg = false) :
    s.prs = 0 ∧ (s.lc = .unbound ∨ s.lc = .released) ∧ s.pinreg = ⟨pinNone, pinNone, pinNone, pinNone⟩ := by
  simpa [registersAgree, hcfg] using h

theorem Inv.padsHeld {s : State} (h : Inv s) : PadsHeld s := by
  refine ⟨h.owners, fun r q hr _ heq => ?_, h.undriven⟩
  have hprs : s.prs ≠ 0 := fun hz => by
    rw [hz] at hr
    cases r <;> cases hr
  obtain ⟨-, -, -, hvalid⟩ := h.registers.configured hprs
  exact (validatePins_spec hvalid).2 r q heq

/-! ## The lines of a powered bus -/

/-- The four pads are held, and CLK, DOUT and DC rest at their idle levels, whatever RST (R27). -/
structure ClockIdle (s : State) : Prop extends Steady s where
  clk : line s .clk = .driven true
  dout : ∃ v, line s .dout = .driven v
  dc : line s .dc = .driven s.params.dcData

/-- The four pads are held at the idle levels (R27). -/
structure BusIdle (s : State) : Prop extends ClockIdle s where
  rst : line s .rst = .driven true

/-- Inside a transaction: the four pads are held and driven, RST high. -/
structure InFrame (s : State) : Prop extends Steady s where
  driven : ∀ r, ∃ v, line s r = .driven v
  rst : line s .rst = .driven true

theorem BusIdle.inFrame {s : State} (h : BusIdle s) : InFrame s := by
  refine ⟨h.toSteady, fun r => ?_, h.rst⟩
  cases r with
  | clk => exact ⟨_, h.clk⟩
  | dout => exact h.dout
  | rst => exact ⟨_, h.rst⟩
  | dc => exact ⟨_, h.dc⟩

theorem BusIdle.lines_idle {s : State} (h : BusIdle s) : linesIdle s := by
  obtain ⟨v, hv⟩ := h.dout
  refine ⟨h.clk, h.rst, h.dc, ?_⟩
  cases v
  · exact .inl hv
  · exact .inr hv

theorem BusIdle.of_linesIdle {s : State} (h : Steady s) (hl : linesIdle s) : BusIdle s := by
  obtain ⟨hclk, hrst, hdc, hdout⟩ := hl
  exact ⟨⟨h, hclk, hdout.elim (⟨_, ·⟩) (⟨_, ·⟩), hdc⟩, hrst⟩

theorem WorksOnBus.steady {s t : State} (h : WorksOnBus s t) (k : Steady s) : Steady t :=
  ⟨⟨h.prs.trans k.prs, fun r => h.pinreg ▸ k.named r, fun r q => h.pinreg ▸ k.distinct r q⟩, h.oracle k.oracle⟩

theorem WorksQuietly.clockIdle {s t : State} (h : WorksQuietly s t) (k : ClockIdle s) : ClockIdle t :=
  ⟨h.steady k.toSteady, (h.lines _).trans k.clk, by rw [h.lines]; exact k.dout,
    by rw [h.lines, h.params]; exact k.dc⟩

theorem WorksQuietly.busIdle {s t : State} (h : WorksQuietly s t) (k : BusIdle s) : BusIdle t :=
  ⟨h.clockIdle k.toClockIdle, (h.lines _).trans k.rst⟩

theorem WorksQuietly.inFrame {s t : State} (h : WorksQuietly s t) (k : InFrame s) : InFrame t :=
  ⟨h.steady k.toSteady, fun r => by rw [h.lines]; exact k.driven r, (h.lines _).trans k.rst⟩

/-- The line of an acquired role is its pad's drive (R26). -/
theorem line_of_held {s : State} {r : Role} (h : prsBit s.prs r = true) :
    line s r = ((padOf s (s.pinreg.get r)).map Pad.drv).getD .z := by
  rw [line, if_pos h]
  cases padOf s (s.pinreg.get r) <;> rfl

/-- With the pads held, a PinWrite drives its own line and no other (R80, R90). -/
theorem pinWrite_runs {s : State} (h : Steady s) (r : Role) (v : Level) : (pinWrite r v s).Runs fun t =>
    (line t r = .driven v ∧ ∀ q, q ≠ r → line t q = line s q) ∧ WorksOnBus s t := by
  refine Res.Runs.and ?_ (pinWrite_onBus r v s)
  have hb := boundary_quietly .seq s
  have k := hb.steady h
  unfold pinWrite
  rcases pinDrive_cases r v (boundary .seq s) with ⟨p, hp, -, hd⟩ | ⟨hf, -⟩ | ⟨f, hd⟩
  · rw [hd, askOracle_never k.oracle]
    have hline : ∀ q, line (emit (.pin r ((boundary .seq s).pinreg.get r) v)
        (setPad ((boundary .seq s).pinreg.get r) { p with drv := .driven v } (boundary .seq s))) q =
        if q = r then .driven v else line (boundary .seq s) q := by
      intro q
      have hq : prsBit (boundary .seq s).prs q = true := by rw [k.prs]; exact prsBit_prsAll q
      rw [line_of_held hq, line_of_held (by exact hq)]
      show ((padOf (setPad _ _ (boundary .seq s)) ((boundary .seq s).pinreg.get q)).map Pad.drv).getD .z = _
      rw [padOf_setPad]
      by_cases hqr : q = r
      · simp [hqr, hp]
      · have hne : (boundary .seq s).pinreg.get q ≠ (boundary .seq s).pinreg.get r := fun he =>
          hqr (k.distinct q r he)
        simp [hqr, hne]
    exact .ok ⟨by rw [hline, if_pos rfl], fun q hq => by rw [hline, if_neg hq, hb.lines]⟩
  · rw [askOracle_never k.oracle] at hf
    cases hf
  · rw [hd]
    exact .fault f

/-- A write to any line but RST stays inside the transaction. -/
theorem pinWrite_inFrame {s : State} (h : InFrame s) {r : Role} (hr : r ≠ .rst) (v : Level) :
    (pinWrite r v s).Runs InFrame := by
  refine (pinWrite_runs h.toSteady r v).mono fun t ⟨⟨hself, hother⟩, hw⟩ =>
    ⟨hw.steady h.toSteady, fun q => ?_, (hother .rst hr.symm).trans h.rst⟩
  by_cases hq : q = r
  · exact ⟨v, hq ▸ hself⟩
  · rw [hother q hq]
    exact h.driven q

theorem delay_inFrame {s : State} (h : InFrame s) : (delay s).Runs InFrame :=
  (wait_quietly _ s).mono fun _ k => k.inFrame h

theorem update_inFrame {f : State → State} (hf : ∀ u, WorksQuietly u (f u)) {s : State} (h : InFrame s) :
    (update f s).Runs InFrame := .ok ((hf s).inFrame h)

/-- One bit cell ends with the clock high (R83). -/
theorem bitCell_runs {s : State} (h : InFrame s) (i : Nat) :
    (bitCell i s).Runs fun t => InFrame t ∧ line t .clk = .driven true := by
  have hsplit : bitCell i s = (runAll [update (setBitcnt i), pinWrite .clk false, delay, dataWrite, delay] s).andThen
      (runAll [pinWrite .clk true, delay, update shiftSr]) :=
    runAll_append [update (setBitcnt i), pinWrite .clk false, delay, dataWrite, delay] _ s
  rw [hsplit]
  have hfront : (runAll [update (setBitcnt i), pinWrite .clk false, delay, dataWrite, delay] s).Runs InFrame := by
    refine runAll_runs (fun p hp u hu => ?_) h
    simp only [List.mem_cons, List.not_mem_nil, or_false] at hp
    rcases hp with rfl | rfl | rfl | rfl | rfl
    · exact update_inFrame (fun u => setSeqr_quietly _ u) hu
    · exact pinWrite_inFrame hu (by decide) false
    · exact delay_inFrame hu
    · exact pinWrite_inFrame hu (by decide) _
    · exact delay_inFrame hu
  refine hfront.andThen fun t ht => ?_
  have hclock : (pinWrite .clk true t).Runs fun u => InFrame u ∧ line u .clk = .driven true :=
    ⟨fun u hu => ⟨(pinWrite_inFrame ht (by decide) true).goesOn u hu,
      ((pinWrite_runs ht.toSteady .clk true).goesOn u hu).1.1⟩, (pinWrite_inFrame ht (by decide) true).raises⟩
  refine hclock.andThen fun u ⟨hu, hclk⟩ => (wait_quietly _ u).andThen fun w hw => .ok ?_
  have hq := hw.trans (setSeqr_quietly { w.seqr with sr := w.seqr.sr <<< 1 } w)
  exact ⟨hq.inFrame hu, (hq.lines _).trans hclk⟩

/-- A transaction, once begun with the pads driven, ends at the idle levels (R87, R27). -/
theorem sendByte_runs {s : State} (h : InFrame s) (b : Byte) (isData : Bool) :
    (sendByte b isData s).Runs BusIdle := by
  have hsplit : sendByte b isData s = (runAll (selectWrite isData :: delay :: update (loadSr b) ::
      [7, 6, 5, 4, 3, 2, 1].map bitCell) s).andThen (runAll [bitCell 0, selectWrite true, delay]) :=
    runAll_append (selectWrite isData :: delay :: update (loadSr b) :: [7, 6, 5, 4, 3, 2, 1].map bitCell) _ s
  rw [hsplit]
  have hfront : (runAll (selectWrite isData :: delay :: update (loadSr b) ::
      [7, 6, 5, 4, 3, 2, 1].map bitCell) s).Runs InFrame := by
    refine runAll_runs (fun p hp u hu => ?_) h
    simp only [List.mem_cons, List.mem_map] at hp
    rcases hp with rfl | rfl | rfl | ⟨i, -, rfl⟩
    · exact pinWrite_inFrame hu (by decide) _
    · exact delay_inFrame hu
    · exact update_inFrame (fun u => setSeqr_quietly _ u) hu
    · exact (bitCell_runs hu i).mono fun _ k => k.1
  refine hfront.andThen fun t ht => (bitCell_runs ht 0).andThen fun u ⟨hu, hclk⟩ => ?_
  refine (pinWrite_runs hu.toSteady .dc (selectLevel u.params true)).andThen fun w ⟨⟨hdc, hother⟩, hw⟩ => ?_
  have hidle : BusIdle w :=
    { toSteady := hw.steady hu.toSteady
      clk := (hother _ (by decide)).trans hclk
      dout := by rw [hother _ (by decide)]; exact hu.driven .dout
      dc := by rw [hdc, hw.params]; rfl
      rst := (hother _ (by decide)).trans hu.rst }
  exact (wait_quietly _ w).andThen fun x hx => .ok (hx.busIdle hidle)

theorem sendSeqFrom_runs {s : State} (h : BusIdle s) (isData : Bool) (k : Nat) (bytes : List Byte) :
    (sendSeqFrom isData k bytes s).Runs BusIdle := by
  induction bytes generalizing k s with
  | nil => exact .ok h
  | cons b bs ih =>
    have hidx := (setSeqr_quietly { s.seqr with idx := BitVec.ofNat 8 k } s).busIdle h
    exact (sendByte_runs hidx.inFrame b isData).andThen fun t ht => ih ht (k + 1)

theorem sendSeq_runs {s : State} (h : BusIdle s) (isData : Bool) (bytes : List Byte) :
    (sendSeq bytes isData s).Runs BusIdle := sendSeqFrom_runs h isData 0 bytes

theorem refreshColumn_runs {s : State} (h : BusIdle s) (q col : Nat) : (refreshColumn q col s).Runs BusIdle := by
  have hcol := (setSeqr_quietly { s.seqr with col := BitVec.ofNat 7 col } s).busIdle h
  unfold refreshColumn
  rcases seqRead_cases (q * width + col) (fun v => sendByte v true) (setCol col s) with ⟨v, t, hr, hq⟩ | ⟨f, hr⟩ <;>
    rw [hr]
  · exact sendByte_runs (hq.busIdle hcol).inFrame v true
  · exact .fault f

theorem refreshPage_runs {s : State} (h : BusIdle s) (pg : Nat) : (refreshPage pg s).Runs BusIdle := by
  have hpg := (setSeqr_quietly { s.seqr with pg := BitVec.ofNat 3 pg } s).busIdle h
  unfold refreshPage
  simp only
  split
  · exact .ok hpg
  · refine (sendSeq_runs hpg false _).andThen fun t ht => runAll_runs (fun p hp u hu => ?_) ht
    obtain ⟨col, -, rfl⟩ := List.mem_map.1 hp
    exact refreshColumn_runs hu _ col

theorem refreshBody_runs {s : State} (h : BusIdle s) : (refreshBody s).Runs BusIdle := by
  refine runAll_runs (fun p hp u hu => ?_) h
  obtain ⟨pg, -, rfl⟩ := List.mem_map.1 hp
  exact refreshPage_runs hu pg

theorem clearBody_runs {s : State} (h : BusIdle s) : (clearBody s).Runs BusIdle := by
  unfold clearBody
  rw [runAll_cons]
  exact (seqZero_quietly s).andThen fun t ht => (refreshBody_runs (ht.busIdle h)).andThen fun _ => .ok

/-- `IdleLevels()` brings the lines to their idle levels from any (R135). -/
theorem idleLevels_runs {s : State} (h : Steady s) : (idleLevels s).Runs BusIdle := by
  refine (pinWrite_runs h .clk true).andThen fun t ⟨⟨hclk, _⟩, ht⟩ => ?_
  have kt := ht.steady h
  refine (pinWrite_runs kt .dout true).andThen fun u ⟨⟨hdout, hu'⟩, hu⟩ => ?_
  have ku := hu.steady kt
  refine (pinWrite_runs ku .rst true).andThen fun w ⟨⟨hrst, hw'⟩, hw⟩ => ?_
  have kw := hw.steady ku
  refine (pinWrite_runs kw .dc (selectLevel w.params true)).andThen fun x ⟨⟨hdc, hx'⟩, hx⟩ => .ok ?_
  exact
    { toSteady := hx.steady kw
      clk := by rw [hx' _ (by decide), hw' _ (by decide), hu' _ (by decide), hclk]
      dout := ⟨true, by rw [hx' _ (by decide), hw' _ (by decide), hdout]⟩
      dc := by rw [hdc, hx.params]; rfl
      rst := by rw [hx' _ (by decide), hrst] }

/-- The lines do not look at CFG and LC. -/
theorem BusIdle.setCfgLc {s : State} (h : BusIdle s) (c : Bool) (l : Lifecycle) :
    BusIdle { s with cfg := c, lc := l } :=
  ⟨⟨⟨⟨h.prs, h.named, h.distinct⟩, h.oracle⟩, h.clk, h.dout, h.dc⟩, h.rst⟩

/-! ## Bring-up -/

/-- The requests of a list of roles: where none is refused, all are granted (R133). -/
theorem acquireRoles_ends (rs : List Role) (s : State) : (runAll (rs.map acquireRole) s).Ends
    (fun t => WorksInSession s t ∧ t.pinreg = s.pinreg ∧
      ∀ q, q ∈ rs ∨ prsBit s.prs q = true → prsBit t.prs q = true) fun _ => True := by
  induction rs generalizing s with
  | nil => exact .ok ⟨.refl s, rfl, fun q hq => hq.resolve_left (by simp)⟩
  | cons r rs ih =>
    have hfirst : (acquireRole r s).Ends (fun t => WorksInSession s t ∧ t.pinreg = s.pinreg ∧
        ∀ q, q = r ∨ prsBit s.prs q = true → prsBit t.prs q = true) fun _ => True := by
      refine ⟨fun t ht => ⟨(acquireRole_inSession r s).goesOn t ht, ?_⟩, fun _ _ _ => trivial⟩
      have hb := boundary_quietly .seq s
      unfold acquireRole at ht
      simp only at ht
      split at ht
      · cases ht
      · split at ht
        · cases ht
          refine ⟨hb.pinreg, fun q hq => ?_⟩
          show prsBit (prsSet (boundary .seq s).prs r) q = true
          rw [prsBit_prsSet, hb.prs]
          simpa using hq
        · cases ht
    refine hfirst.andThen fun t ⟨hst, hreg, hbits⟩ =>
      ⟨fun u hu => ?_, fun _ _ _ => trivial⟩
    obtain ⟨htu, hreg', hbits'⟩ := (ih t).goesOn u hu
    refine ⟨hst.trans htu, hreg'.trans hreg, fun q hq => hbits' q ?_⟩
    rcases hq with hq | hq
    · exact (List.mem_cons.1 hq).symm.imp id fun h => hbits q (.inl h)
    · exact .inr (hbits q (.inr hq))

/-- `AcquirePins()`, where no request is refused (R133, R135). -/
theorem acquirePins_ends {s : State} (hnamed : ∀ r, s.pinreg.get r ≠ pinNone)
    (hdistinct : ∀ r q, s.pinreg.get r = s.pinreg.get q → r = q) (ho : s.inp.pinFault = []) :
    (acquirePins s).Ends (fun t => BusIdle t ∧ t.pinreg = s.pinreg) fun _ => True := by
  have hsplit : acquirePins s = (runAll (([.clk, .dout, .rst, .dc] : List Role).map acquireRole) s).andThen
      (runAll [idleLevels, update (setLc .pinsAcquired)]) :=
    runAll_append (([.clk, .dout, .rst, .dc] : List Role).map acquireRole) _ s
  rw [hsplit]
  refine (acquireRoles_ends [.clk, .dout, .rst, .dc] s).andThen fun t ⟨hw, hreg, hbits⟩ => ?_
  have hprs : t.prs = prsAll := prs_ext fun r =>
    (hbits r (.inl (by cases r <;> simp))).trans (prsBit_prsAll r).symm
  have hsteady : Steady t := ⟨⟨hprs, hreg ▸ hnamed, hreg ▸ hdistinct⟩, hw.oracle ho⟩
  have hidle : (idleLevels t).Runs fun u => BusIdle u ∧ WorksOnBus t u :=
    (idleLevels_runs hsteady).and (idleLevels_onBus t)
  refine Res.Ends.andThen (P := fun u => BusIdle u ∧ WorksOnBus t u)
    ⟨hidle.goesOn, fun _ _ _ => trivial⟩ fun u ⟨hu, hwu⟩ => .ok ?_
  exact ⟨hu.setCfgLc u.cfg .pinsAcquired, hwu.pinreg.trans hreg⟩

theorem resetAndInit_runs {s : State} (h : BusIdle s) : (resetAndInit s).Runs BusIdle := by
  refine (pinWrite_runs h.toSteady .rst false).andThen fun t ⟨⟨_, hother⟩, hw⟩ => ?_
  have ht : ClockIdle t :=
    { toSteady := hw.steady h.toSteady
      clk := (hother _ (by decide)).trans h.clk
      dout := by rw [hother _ (by decide)]; exact h.dout
      dc := by rw [hother _ (by decide), hw.params]; exact h.dc }
  refine (wait_quietly t.params.tResetLow t).andThen fun u hu => ?_
  have ku := hu.clockIdle ht
  refine (pinWrite_runs ku.toSteady .rst true).andThen fun v ⟨⟨hrst, hother'⟩, hv⟩ => ?_
  have kv : BusIdle v :=
    { toSteady := hv.steady ku.toSteady
      clk := (hother' _ (by decide)).trans ku.clk
      dout := by rw [hother' _ (by decide)]; exact ku.dout
      dc := by rw [hother' _ (by decide), hv.params]; exact ku.dc
      rst := hrst }
  refine (wait_quietly v.params.tResetHigh v).andThen fun w hw' => ?_
  exact (sendSeq_runs (hw'.busIdle kv) false _).andThen fun _ => .ok

/-- `PowerOn()` (R137). -/
theorem powerOn_runs {s : State} (h : BusIdle s) : (powerOn s).Runs fun t =>
    BusIdle t ∧ t.lc = .initialized ∧ t.pinreg = s.pinreg := by
  rw [powerOn_eq]
  refine ((resetAndInit_runs h).and (resetAndInit_onBus s)).andThen fun t ⟨ht, hw⟩ => .ok ?_
  exact ⟨ht.setCfgLc t.cfg .initialized, rfl, hw.pinreg⟩

/-- The bring-up, where no request is refused (R160). -/
theorem bringUp_ends {s : State} (hnamed : ∀ r, s.pinreg.get r ≠ pinNone)
    (hdistinct : ∀ r q, s.pinreg.get r = s.pinreg.get q → r = q) (ho : s.inp.pinFault = []) :
    (bringUp s).Ends (fun t => BusIdle t ∧ t.cfg = true ∧ t.lc = .initialized ∧ t.pinreg = s.pinreg)
      fun _ => True := by
  unfold bringUp
  rw [runAll_cons]
  refine (acquirePins_ends hnamed hdistinct ho).andThen fun t ⟨ht, hreg⟩ => ?_
  rw [runAll_cons]
  refine Res.Ends.andThen ⟨(powerOn_runs ht).goesOn, fun _ _ _ => trivial⟩ fun u ⟨hu, hlc, hreg'⟩ => ?_
  rw [runAll_cons, update_apply, Res.andThen_ok, runAll_cons]
  have hclear := (clearBody_runs (hu.setCfgLc true u.lc)).and (clearBody_onBus { u with cfg := true })
  refine Res.Ends.andThen ⟨hclear.goesOn, fun _ _ _ => trivial⟩ fun v ⟨hv, hw⟩ => .ok ?_
  exact ⟨hv, hw.cfg, hw.lc.trans hlc, hw.pinreg.trans (hreg'.trans hreg)⟩

end Sys2Proof.Machine

/-! The invariant of a block between commands: each body comes back to registers, lines and a session that agree,
and every step keeps `Inv` and `DrivesOnlyHeld`. -/

namespace Sys2Proof.Machine

/-! ## What a block says of itself between the parts of a command -/

/-- The clauses of `Inv` that a part of a command may break: those about the registers, the lines and the session. -/
structure Standing (s : State) : Prop where
  registers : registersAgree s
  idle : s.prs = prsAll → linesIdle s
  session : s.cfg = true ∨ s.mapped = true → s.slock = true

theorem Inv.standing {s : State} (h : Inv s) : Standing s := ⟨h.registers, h.idle, h.session⟩

/-- With four pads acquired the bus is idle (R15, R27). -/
theorem Standing.busIdle {s : State} (h : Standing s) (ho : s.inp.pinFault = []) (hprs : s.prs = prsAll) :
    BusIdle s := by
  obtain ⟨-, -, -, hvalid⟩ := h.registers.configured (by rw [hprs]; decide)
  obtain ⟨hnamed, hdistinct⟩ := validatePins_spec hvalid
  exact .of_linesIdle ⟨⟨hprs, hnamed, hdistinct⟩, ho⟩ (h.idle hprs)

/-- Validation looks at the parameters only (R140). -/
theorem validatePins_of_params {s t : State} (h : t.params = s.params) (clk dout rst dc : PinId) :
    validatePins clk dout rst dc t = validatePins clk dout rst dc s := by
  simp only [validatePins, validId, h]

/-- A part on the bus that leaves the lines idle. -/
theorem WorksOnBus.standing {s t : State} (h : WorksOnBus s t) (k : Standing s)
    (hidle : t.prs = prsAll → linesIdle t) : Standing t := by
  refine ⟨?_, hidle, ?_⟩
  · unfold registersAgree
    rw [h.cfg, h.prs, h.lc, h.pinreg, validatePins_of_params h.params]
    exact k.registers
  · rw [h.cfg, h.mapped, h.slock]
    exact k.session

theorem WorksQuietly.standing {s t : State} (h : WorksQuietly s t) (k : Standing s) : Standing t := by
  refine h.toWorksOnBus.standing k fun hprs => ?_
  unfold linesIdle
  rw [h.lines, h.lines, h.lines, h.lines, h.params]
  exact k.idle (h.prs ▸ hprs)

/-- A part on the bus of a standing block that runs to idle lines. -/
theorem Standing.runs {s : State} (k : Standing s) {r : Res} (hr : r.Runs BusIdle)
    (hw : r.Always (WorksOnBus s)) : r.Runs fun t => Standing t ∧ t.prs = prsAll :=
  (hr.and hw).mono fun _ ⟨hidle, hbus⟩ => ⟨hbus.standing k fun _ => hidle.lines_idle, hidle.prs⟩

/-- DISPLAY_ON and DISPLAY_OFF move LC of a configured block (R139). -/
theorem Standing.after_setLc {s : State} (k : Standing s) (hprs : s.prs = prsAll) {l : Lifecycle}
    (hl : l = .opened ∨ l = .closed) : Standing (setLc l s) := by
  obtain ⟨hcfg, -, -, hvalid⟩ := k.registers.configured (by rw [hprs]; decide)
  refine ⟨?_, k.idle, k.session⟩
  unfold registersAgree
  rw [setLc_cfg, if_pos hcfg]
  exact ⟨hprs, .inr hl, hvalid⟩

/-- A block with no pad acquired and none named, not configured, in a lifecycle state that R15 allows there. -/
theorem Standing.of_unconfigured {s : State} (hcfg : s.cfg = false) (hprs : s.prs = 0)
    (hlc : s.lc = .unbound ∨ s.lc = .released) (hreg : s.pinreg = ⟨pinNone, pinNone, pinNone, pinNone⟩)
    (hsession : s.mapped = true → s.slock = true) : Standing s := by
  refine ⟨?_, fun h => ?_, fun h => hsession (h.resolve_left (by simp [hcfg]))⟩
  · unfold registersAgree
    rw [if_neg (by simp [hcfg])]
    exact ⟨hprs, hlc, hreg⟩
  · rw [hprs] at h
    cases h

/-- CLOSE and TEARDOWN come to an unconfigured, unmapped block (R182, R187). -/
theorem closeBody_standing {s : State} (k : Standing s) (ho : s.inp.pinFault = []) :
    (closeBody s).Runs Standing := by
  have hdown : (powerDown s).Runs fun _ => True := by
    unfold powerDown
    split
    · rename_i hguard
      simp only [guardOk, Bool.and_eq_true, beq_iff_eq] at hguard
      exact (sendSeq_runs (k.busIdle ho hguard.1) false _).mono fun _ _ => trivial
    · exact .ok trivial
  refine hdown.andThen fun t _ => (releasePins_runs t).andThen fun u ⟨_, hprs, hreg⟩ => .ok ?_
  have hb := boundary_quietly .seq { u with cfg := false, lc := .released }
  exact .of_unconfigured hb.cfg (hb.prs.trans hprs) (.inr hb.lc) (hb.pinreg.trans hreg) fun h => by cases h

theorem teardownBody_standing {s : State} (k : Standing s) (ho : s.inp.pinFault = []) :
    (teardownBody s).Runs Standing := by
  have hreq : Standing { s with tdreq := false } := ⟨k.registers, k.idle, k.session⟩
  exact (closeBody_standing hreq ho).andThen fun t ht => .ok ⟨ht.registers, ht.idle, ht.session⟩

/-- CONFIGURE comes to a configured block, or back to the registers it found (R133, R136, R160). -/
theorem configureBody_standing {s : State} (k : Standing s) (ho : s.inp.pinFault = []) (hslock : s.slock = true)
    (clk dout rst dc : PinId) : (configureBody clk dout rst dc s).Always Standing := by
  unfold configureBody
  split
  · exact .ok k
  · rename_i hcfg
    have hlc := (k.registers.unconfigured (by simpa using hcfg)).2.1
    split
    · exact .raise k
    · rename_i hvalid
      simp only [Bool.not_eq_true', Bool.not_eq_false] at hvalid
      obtain ⟨hnamed, hdistinct⟩ := validatePins_spec hvalid
      have hends := bringUp_ends (s := { s with pinreg := ⟨clk, dout, rst, dc⟩ }) hnamed hdistinct ho
      have hin := bringUp_inSession { s with pinreg := ⟨clk, dout, rst, dc⟩ }
      split
      · rename_i t ht
        obtain ⟨hidle, hcfg', hlc', hreg⟩ := hends.goesOn t ht
        have hw := hin.goesOn t ht
        refine .ok ⟨?_, fun _ => hidle.lines_idle, fun _ => hw.slock.trans hslock⟩
        unfold registersAgree
        rw [if_pos hcfg', hreg, validatePins_of_params hw.params]
        exact ⟨hidle.prs, .inl hlc', hvalid⟩
      · rename_i c t ht
        have hw := hin.raises c t ht
        refine Res.Ends.andThen (P := Standing) ?_ fun u hu => .raise hu
        refine (rollback_runs s.lc t).always.mono fun u ⟨hu, hprs, hreg, hcfg', hlc'⟩ => ?_
        exact .of_unconfigured hcfg' hprs (hlc' ▸ hlc) hreg fun _ => hu.slock.trans (hw.slock.trans hslock)
      · exact .fault _

/-- A guarded body meets an idle bus (R138). -/
theorem guarded_standing {body : State → Res} {s : State} (k : Standing s) (ho : s.inp.pinFault = [])
    (hbody : BusIdle s → (body s).Runs Standing) : (guarded body s).Always Standing := by
  unfold guarded
  split
  · rename_i hguard
    exact (hbody (k.busIdle ho (by simpa [guardOk] using hguard))).always
  · exact .raise k

theorem sendThenSetLc_standing {s : State} (k : Standing s) (h : BusIdle s) (bytes : Config.Params → List Byte)
    {l : Lifecycle} (hl : l = .opened ∨ l = .closed) :
    (runAll [fun t => sendSeq (bytes t.params) false t, update (setLc l)] s).Runs Standing :=
  (k.runs (sendSeq_runs h false _) (sendSeq_onBus _ false s)).andThen fun _ ⟨ht, hprs⟩ => .ok (ht.after_setLc hprs hl)

/-- Every body comes, by going on or by raising an error, to a block whose registers, lines and session agree. -/
theorem controlBody_standing (i : Instr) {s : State} (k : Standing s) (ho : s.inp.pinFault = [])
    (hslock : needsSession i = true → s.slock = true) : (controlBody i s).Always Standing := by
  cases i with
  | sessionOpen =>
    show (openBody s).Always _
    unfold openBody
    split
    · exact .raise k
    · exact .ok ⟨k.registers, k.idle, fun _ => rfl⟩
  | sessionClose =>
    show (sessionCloseBody s).Always _
    unfold sessionCloseBody
    split
    · exact (closeBody_standing k ho).always
    · exact .ok k
  | configure clk dout rst dc => exact configureBody_standing k ho (hslock rfl) clk dout rst dc
  | displayOn =>
    exact guarded_standing k ho fun h => sendThenSetLc_standing k h (fun p => p.onSeq.toList) (.inl rfl)
  | displayOff =>
    exact guarded_standing k ho fun h => sendThenSetLc_standing k h (fun p => p.offSeq.toList) (.inr rfl)
  | refresh =>
    exact guarded_standing k ho fun h => (k.runs (refreshBody_runs h) (refreshBody_onBus s)).mono fun _ ht => ht.1
  | clear =>
    exact guarded_standing k ho fun h => (k.runs (clearBody_runs h) (clearBody_onBus s)).mono fun _ ht => ht.1
  | mapFb size =>
    show (mapBody size s).Always _
    unfold mapBody
    split
    · exact .raise k
    · split
      · exact .raise k
      · exact .ok ⟨k.registers, k.idle, fun _ => hslock rfl⟩
  | bulkWrite off len payload =>
    show (bulkBody off len payload s).Always _
    unfold bulkBody
    split
    · exact .raise k
    · exact (writeBytes_quietly _ payload s).always.mono fun _ ht => ht.standing k
  | queryInfo => exact .ok ⟨k.registers, k.idle, k.session⟩
  | teardown => exact (teardownBody_standing k ho).always
  | _ => exact .ok k

/-! ## The invariant -/

/-- The clauses of `Inv` from what every part keeps and from those it may break. -/
theorem Inv.of_safely {s t : State} (h : Inv s) (hw : WorksSafely s t) (k : Standing t) (hbusy : t.busy = false) :
    Inv t :=
  { memory := hw.memory h.memory, notBusy := hbusy, rasterFlag := hw.rasterFlag h.rasterFlag
    oracle := hw.oracle h.oracle, registers := k.registers, owners := (hw.held h.padsHeld).owners
    undriven := (hw.held h.padsHeld).undriven, idle := k.idle, session := k.session }

theorem Inv.of_quietly {s t : State} (h : Inv s) (hw : WorksQuietly s t) : Inv t :=
  h.of_safely hw.toWorksSafely (hw.standing h.standing) (hw.busy.trans h.notBusy)

/-- The end of a control command that has come to `u` (R165). -/
theorem Inv.of_finish {s u : State} (h : Inv s) (hw : WorksSafely s u) (k : Standing u) (op : Byte) (c : Code) :
    Inv (finish op c u) := by
  have hb := boundary_quietly .seq u
  have hend : WorksSafely (boundary .seq u) { boundary .seq u with busy := false } := .of_same rfl id
  have kb := hb.standing k
  have hinv : Inv { boundary .seq u with busy := false } :=
    h.of_safely (hw.trans (hb.toWorksSafely.trans hend)) ⟨kb.registers, kb.idle, kb.session⟩ rfl
  exact ⟨hinv.memory, rfl, hinv.rasterFlag, hinv.oracle, hinv.registers, hinv.owners, hinv.undriven, hinv.idle,
    hinv.session⟩

/-- No pad is acquired while CFG = 0 (R15). -/
theorem Inv.prs_of_unconfigured {s : State} (h : Inv s) (hcfg : s.cfg = false) : s.prs = 0 :=
  (h.registers.unconfigured hcfg).1

theorem begin_standing {s : State} (k : Standing s) : Standing (begin s) := ⟨k.registers, k.idle, k.session⟩

/-- Every instruction keeps the invariant. -/
theorem exec_keeps_inv {i : Instr} {s t : State} (h : Inv s) (hexec : exec i s = .next t) : Inv t := by
  have hbegin := begin_standing h.standing
  cases hport : i.port with
  | control =>
    obtain ⟨c, u, ⟨hw, k⟩, rfl⟩ := exec_control_next (P := fun u => WorksSafely s u ∧ Standing u) hport hexec
      ⟨begin_safely s, hbegin⟩ fun hslock => by
        have hbody := controlBody_safely i (begin s) fun _ _ _ _ _ => h.prs_of_unconfigured
        have hstand := controlBody_standing i hbegin h.oracle hslock
        exact ⟨fun u hu => ⟨(begin_safely s).trans (hbody.goesOn u hu), hstand.goesOn u hu⟩,
          fun c u hu => ⟨(begin_safely s).trans (hbody.raises c u hu), hstand.raises c u hu⟩⟩
    exact h.of_finish hw k _ _
  | raster => exact h.of_quietly (exec_raster_next hport hexec)
  | phy =>
    have hw := exec_phy_next hport hexec
    obtain ⟨b, isData, heq⟩ := exec_eq_phyFrame hport
    by_cases hprs : s.prs = prsAll
    · have hruns := sendByte_runs (h.standing.busIdle h.oracle hprs).inFrame b isData
      rcases phyFrame_next ((heq s).symm.trans hexec) with ht | ⟨c, ht⟩
      · have k := hw.standing h.standing fun _ => (hruns.goesOn t ht).lines_idle
        exact h.of_safely hw.toWorksSafely k (hw.busy.trans h.notBusy)
      · exact (hruns.raises c t ht).elim
    · have k := hw.standing h.standing fun ht => absurd (hw.prs ▸ ht) hprs
      exact h.of_safely hw.toWorksSafely k (hw.busy.trans h.notBusy)

/-- Settles O51: other agents and words taken off the ports disturb no clause, a reserved word only answers, and
every instruction keeps the invariant. -/
theorem everyStepKeepsTheInvariant : Obligations.EveryStepKeepsTheInvariant := by
  intro s t h hstep
  obtain ⟨u, hu, hcase⟩ := step_next hstep
  have hinv := h.of_quietly hu
  rcases hcase with rfl | ⟨op, hi⟩ | ⟨i, hi⟩
  · exact hinv
  · rw [illegal_next hi]
    exact hinv.of_finish (begin_safely u) (begin_standing hinv.standing) op .illegal
  · exact exec_keeps_inv hinv hi

/-- Settles O53: every part of a command drives only pads that PRS marks, which are those TRACE says are held. -/
theorem onlyHeldPadsAreDriven : Obligations.OnlyHeldPadsAreDriven := by
  intro s t h hdrives hstep
  obtain ⟨u, hu, ht⟩ := step_safely h.prs_of_unconfigured hstep
  have hdrives' := hu.drives h.padsHeld hdrives
  rcases ht with rfl | ⟨op, c, rfl⟩
  · exact hdrives'
  · exact ⟨hdrives'.owned, hdrives'.pins⟩

end Sys2Proof.Machine

/-! A dead block, a held control word, pads under the other agents, and what is read off `step_works`. -/

namespace Sys2Proof.Machine

/-! ## A dead block -/

theorem exec_dead {s : State} (h : s.dead = true) (i : Instr) : exec i s = .fault .dead := by
  cases hport : i.port with
  | control => rw [exec_eq_controlFrame hport, controlFrame, if_pos h]
  | raster => rw [exec_eq_rasterFrame hport, rasterFrame, if_pos h]
  | phy =>
    obtain ⟨b, isData, hexec⟩ := exec_eq_phyFrame hport
    rw [hexec, phyFrame, if_pos h]

/-- Settles O13: every step and the frame of every instruction test DEAD first. -/
theorem deadBlockAcceptsNothing : Obligations.DeadBlockAcceptsNothing :=
  fun _ h => ⟨by rw [step, if_pos h], exec_dead h⟩

/-! ## The control port's turn -/

/-- A control word whose payload is not all there is not yet offered (R68). -/
theorem offeredControl_incomplete {s : State} {o : CtlOffer} {os : List CtlOffer} (hp : s.inp.ctlPort = o :: os)
    (hport : portOfWord o.word = .control) (hl : s.inp.ctlPayload.length < payloadCount o.word) :
    offeredControl s = .nothing := by
  have hn : payloadOn .control o.word = payloadCount o.word := by rw [payloadOn, if_pos hport]
  unfold offeredControl
  rw [hp]
  simp only [hn, if_pos hl]

/-- The control port holds its word while BUSY = 1 and while nothing is offered (R19, R68). -/
theorem serveControl_holds {s : State} (h : s.busy = true ∨ offeredControl s = .nothing) :
    serveControl s = .next s := by
  unfold serveControl
  split
  · rfl
  · rename_i hb
    rw [h.resolve_left hb]

/-- Settles O11: on its turn the port holds the word, and no teardown request is taken ahead of it. -/
theorem controlWordIsHeldNotDropped : Obligations.ControlWordIsHeldNotDropped := by
  intro s b o os ts hdead hb hturns hport hheld
  have hfirst : (b.tdreq && !b.busy) = false := by
    rcases hheld with h | ⟨h, -⟩ <;> simp [h]
  have hserve : step s = serveControl { b with inp := { b.inp with turns := ts } } := by
    simp only [step, hdead, ← hb, serve, hfirst, hturns, Bool.false_eq_true, if_false]
  rw [hserve]
  refine serveControl_holds (hheld.imp id fun ⟨_, hw, hl⟩ => ?_)
  exact offeredControl_incomplete (o := o) (os := os) hport hw hl

/-! ## The other agents -/

/-- Settles O30: a boundary keeps every pad's drive and whether it is the block's. -/
theorem otherAgentsNeverTouchOwnedPads : Obligations.OtherAgentsNeverTouchOwnedPads := by
  intro s g id d hp
  obtain ⟨q, hq, hdrv, howner⟩ := (boundary_elsewhere g s).pad hp
  have hself : q.owner = .self := howner.2 rfl
  cases q
  simp_all

/-! ## What every step keeps -/

/-- Settles O54: every part of a command leaves the parameters alone, and so does a response. -/
theorem parametersNeverChange : Obligations.ParametersNeverChange := by
  intro s t h
  obtain ⟨u, hu, rfl | ⟨op, c, rfl⟩⟩ := step_works h
  · exact ⟨hu.params, hu.dlyCfg⟩
  · exact ⟨hu.params, hu.dlyCfg⟩

/-- A part of a command adds its events at the end of TRACE, none of them a response. -/
theorem Works.trace_grows {s t : State} (h : Works s t) :
    ∃ es, t.trace = s.trace ++ es ∧ ∀ e ∈ es, ∀ op code, e ≠ .resp op code := by
  obtain ⟨es, he, hes⟩ := h.trace
  exact ⟨es.reverse, by simp [State.trace, he], fun e hm => hes e (List.mem_reverse.1 hm)⟩

/-- A response is the newest event of TRACE. -/
theorem respond_trace (op : Byte) (c : Code) (s : State) :
    (respond op c s).trace = s.trace ++ [.resp op c.byte] := by
  simp [State.trace]

/-- Settles O55: a step is a part that adds to TRACE, and the response adds one event more. -/
theorem traceOnlyGrows : Obligations.TraceOnlyGrows := by
  intro s t h
  obtain ⟨u, hu, ht⟩ := step_works h
  obtain ⟨es, he, -⟩ := hu.trace_grows
  rcases ht with rfl | ⟨op, c, rfl⟩
  · exact ⟨es, he.symm⟩
  · exact ⟨es ++ [.resp op c.byte], by rw [respond_trace, he, List.append_assoc]⟩

/-- Settles O58: the frame of R165 ends in one response, and no part of a body records another. -/
theorem everyControlCommandResponds : Obligations.EveryControlCommandResponds := by
  intro i s t hport h
  have hbegin : Works s (begin s) := (begin_safely s).toWorks
  obtain ⟨c, u, hu, rfl⟩ := exec_control_next (P := Works s) hport h hbegin fun _ =>
    (controlBody_works i (begin s)).mono fun _ => hbegin.trans
  obtain ⟨es, he, hes⟩ := (hu.trans (boundary_quietly .seq u).toWorks).trace_grows
  exact ⟨rfl, es, by rw [finish, respond_trace, he, respond_status], hes⟩

end Sys2Proof.Machine

/-! The state right after reset (R30). -/

namespace Sys2Proof.Machine

/-! ## Reset -/

/-- A platform's parameters made legal meet the constraints of 00_scope.md section 4 and R3. -/
theorem legalise_legal (p : Config.Params) : p.legalise.legal = true := by
  have hflip : ∀ b : Byte, b ^^^ 1 ≠ b := by decide
  have hseq : p.legalise.onSeq ≠ p.legalise.offSeq := by
    show p.onSeq ≠ if p.offSeq = p.onSeq then p.offSeq.set 0 (p.offSeq[0] ^^^ 1) else p.offSeq
    split
    · rename_i heq
      intro h
      have h0 : p.onSeq[0] = (p.offSeq.set 0 (p.offSeq[0] ^^^ 1))[0] := by rw [← h]
      rw [Vector.getElem_set_self, heq] at h0
      exact hflip _ h0.symm
    · exact fun h => absurd h.symm ‹_›
  have hgranule : 0 < p.legalise.mapGranule := Nat.lt_of_lt_of_le Nat.one_pos (Nat.le_max_left 1 p.mapGranule)
  have hpads : p.legalise.validPads.contains pinNone = false := by
    simp [Config.Params.legalise]
  rw [Config.Params.legal, hpads]
  simp [hseq, hgranule]

theorem params_legal : Config.params.legal = true := legalise_legal Config.rawParams

/-- Every pad is free and not driven at reset (log 6). -/
theorem padOf_reset {id : PinId} {p : Pad} (h : padOf State.reset id = some p) : p = ⟨.free, .z⟩ := by
  simp only [padOf, State.reset, Vector.getElem?_replicate] at h
  split at h
  · exact (Option.some.inj h).symm
  · cases h

theorem not_ownsPad_reset (id : PinId) : ¬ ownsPad State.reset id := by
  intro h
  obtain ⟨p, hp, ho⟩ := Option.map_eq_some_iff.1 h
  rw [padOf_reset hp] at ho
  cases ho

theorem prsBit_reset (r : Role) : prsBit State.reset.prs r = false := by cases r <;> rfl

theorem inv_reset : Inv State.reset where
  memory := Memory.wf_nil
  notBusy := rfl
  rasterFlag := rfl
  oracle := rfl
  registers := by
    unfold registersAgree
    exact ⟨rfl, .inl rfl, rfl⟩
  owners := fun id => iff_of_false (not_ownsPad_reset id) fun ⟨r, hr, _⟩ => by
    rw [prsBit_reset] at hr
    cases hr
  undriven := fun _ _ hp _ => by rw [padOf_reset hp]
  idle := fun h => by cases h
  session := fun h => by rcases h with h | h <;> cases h

theorem drivesOnlyHeld_reset : DrivesOnlyHeld State.reset :=
  ⟨fun id => ⟨fun h => absurd h (not_ownsPad_reset id), fun h => by cases h⟩, trivial⟩

/-- Settles O50: the invariants hold of free pads, an empty framebuffer and an empty TRACE; the other values are
those of `State.reset`. -/
theorem resetStateIsTheSpecs : Obligations.ResetStateIsTheSpecs :=
  ⟨params_legal, inv_reset, ⟨fun _ => rfl, trivial⟩, drivesOnlyHeld_reset, rfl, rfl, rfl, rfl, rfl, rfl, rfl, rfl,
    rfl, rfl, rfl, rfl, fun _ => rfl, fun r => by rw [line, prsBit_reset]; rfl⟩

end Sys2Proof.Machine

/-! The framebuffer memory (20_memory.md): the single copy under every step, EXT's accesses at a boundary, a
DRAW_POINT with another agent between its two micro-steps, and a command moved as bytes. -/

namespace Sys2Proof.Machine

open Sys2Proof.Config (width height fbSize)

/-! ## A single-copy memory -/

/-- A response says nothing of the framebuffer. -/
theorem SingleCopy.respond {s : State} (h : SingleCopy s) (op : Byte) (c : Code) :
    SingleCopy (respond op c s) := ⟨h.contents, h.reads⟩

/-- Settles O52: every part of a command keeps the single copy while the block lives, and so does the response that
may end the step. -/
theorem everyReadReturnsTheLatestWrite : Obligations.EveryReadReturnsTheLatestWrite := by
  intro s t h hstep halive
  obtain ⟨u, hu, rfl | ⟨op, c, rfl⟩⟩ := step_works hstep
  · exact hu.single halive h
  · exact (hu.single halive h).respond op c

/-! ## A command moved as bytes -/

/-- The eight bytes of a word, most significant first, make up the word (R51). -/
theorem wordOfBytes_bytes (w : CmdWord) :
    wordOfBytes (w.extractLsb' 56 8) (w.extractLsb' 48 8) (w.extractLsb' 40 8) (w.extractLsb' 32 8)
      (w.extractLsb' 24 8) (w.extractLsb' 16 8) (w.extractLsb' 8 8) (w.extractLsb' 0 8) = w := by
  have hjoin : ∀ hi lo n, hi = lo + 8 → w.extractLsb' hi n ++ w.extractLsb' lo 8 = w.extractLsb' lo (n + 8) :=
    fun _ _ _ h => BitVec.extractLsb'_append_extractLsb'_eq_extractLsb' h
  rw [wordOfBytes, hjoin 56 48 _ rfl, hjoin 48 40 _ rfl, hjoin 40 32 _ rfl, hjoin 32 24 _ rfl, hjoin 24 16 _ rfl,
    hjoin 16 8 _ rfl, hjoin 8 0 _ rfl]
  exact BitVec.extractLsb'_eq_self

/-- Settles O4: the eight bytes make up the word again, whose count splits the rest of the stream into the payload
and the further bytes. -/
theorem byteStreamDecodesMostSignificantFirst : Obligations.ByteStreamDecodesMostSignificantFirst := by
  intro w payload rest i h
  have hlen := length_of_decodeCommand h
  simp only [List.cons_append, List.nil_append, decodeBytes, wordOfBytes_bytes, ← hlen, List.length_append,
    List.take_left', List.drop_left', h]
  rw [if_neg (by omega)]

/-! ## EXT at a boundary -/

/-- The state with the coming acts of the other agents replaced (log 7). -/
def setAgenda (acts : List (List Act)) (s : State) : State := { s with inp := { s.inp with agenda := acts } }

/-- A boundary at which nothing happens uses up its entry of the agenda. -/
theorem boundary_of_noAct {s : State} (g : Agent) {rest : List (List Act)} (h : s.inp.agenda = [] :: rest) :
    boundary g s = setAgenda rest s := by
  rw [boundary, h]
  rfl

/-- A boundary at which one act happens. -/
theorem boundary_of_act {s : State} (g : Agent) {a : Act} {rest : List (List Act)}
    (h : s.inp.agenda = [a] :: rest) : boundary g s = doAct g a (setAgenda rest s) := by
  rw [boundary, h]
  rfl

/-- Through the mapping EXT writes the framebuffer (R49). -/
theorem extWrite_mapped {s : State} {k : Nat} (v : Byte) (hm : s.mapped = true) (hk : k < fbSize) :
    extWrite k v s = memWrite .ext k v s := by
  rw [extWrite, hm, decide_eq_true hk]
  rfl

/-- Without the mapping, and beyond the framebuffer, EXT's write has no effect (R49, R50). -/
theorem extWrite_noEffect {s : State} {k : Nat} (v : Byte) (h : s.mapped = false ∨ fbSize ≤ k) :
    extWrite k v s = s := by
  rw [extWrite, if_neg]
  rcases h with hm | hk
  · simp [hm]
  · simp [Nat.not_lt.2 hk]

/-- Through the mapping EXT reads a byte that has been written (R49). -/
theorem extRead_written {s : State} {k : Nat} {v : Byte} (hm : s.mapped = true) (hk : k < fbSize)
    (hv : Memory.read s.fb k = some v) : extRead k s = { emit (.fbRead k v) s with extByte := v } := by
  rw [extRead, if_pos hm, if_pos hk, memRead_written hv]

/-- EXT's read of a byte nothing has written is a draw, and is recorded (R47, R49, log 4). -/
theorem extRead_unwritten {s : State} {k : Nat} (hm : s.mapped = true) (hk : k < fbSize)
    (hv : Memory.read s.fb k = none) :
    ∃ v n, extRead k s = { emit (.fbRead k v) s with extByte := v, draws := n } := by
  rw [extRead, if_pos hm, if_pos hk, memRead_unwritten hv]
  exact ⟨_, _, rfl⟩

/-- EXT's read of the padding is a draw, and leaves TRACE alone (R50, log 16). -/
theorem extRead_padding {s : State} {k : Nat} (hm : s.mapped = true) (hk : fbSize ≤ k)
    (hsize : k < s.params.mapSize) : ∃ v n, extRead k s = { s with extByte := v, draws := n } := by
  rw [extRead, if_pos hm, if_neg (Nat.not_lt.2 hk), if_pos hsize]
  exact ⟨_, _, rfl⟩

/-- Without the mapping, and beyond it, EXT's read is no step (R49, R50). -/
theorem extRead_noEffect {s : State} {k : Nat} (h : s.mapped = false ∨ fbSize ≤ k ∧ s.params.mapSize ≤ k) :
    extRead k s = s := by
  rw [extRead]
  rcases h with hm | ⟨hk, hsize⟩
  · rw [hm, if_neg Bool.false_ne_true]
  · rw [if_neg (Nat.not_lt.2 hk), if_neg (Nat.not_lt.2 hsize), ite_self]

/-- Settles O28: the boundary is EXT's one act, which is a write of the framebuffer or nothing. -/
theorem extWritesOnlyWhileMapped : Obligations.ExtWritesOnlyWhileMapped := by
  intro s g k v rest h
  rw [boundary_of_act g h]
  refine ⟨fun ⟨hm, hk⟩ => ?_, fun hno => ?_⟩
  · exact extWrite_mapped v hm hk
  · exact extWrite_noEffect v hno

/-- Settles O29: the boundary is EXT's one act, which is a read of a written or an unwritten byte, a draw for the
padding, or nothing. -/
theorem extReadsOnlyWhileMapped : Obligations.ExtReadsOnlyWhileMapped := by
  intro s g k rest h
  rw [boundary_of_act g h]
  refine ⟨fun v hm hk hv => ?_, fun hm hk hv => ?_, fun hm hk hsize => ?_, fun hno => ?_⟩
  · exact extRead_written hm hk hv
  · exact extRead_unwritten hm hk hv
  · exact extRead_padding hm hk hsize
  · exact extRead_noEffect hno

/-! ## DRAW_POINT with another agent between its micro-steps -/

/-- The micro-steps of an on-screen point: the read and the write back of its byte (R101). -/
theorem pointOps_onScreen {x y : Nat} (h : onScreen x y) (v : Bool) :
    ∃ a : Fin fbSize, a.val = y / 8 * width + x ∧ pointOps x y v = [.fetch a, .store a (pixelMask y) v] := by
  rw [pointOps, pixelAddr, dif_pos h]
  exact ⟨_, rfl, rfl⟩

/-- An access of the operation in flight, after a boundary that leaves the operation as it is (R47, R53). -/
theorem rasDrain_access {op : RasOp} {ops : List RasOp} {s t : State} (hop : op.isAccess = true)
    (hb : boundary .ras (inFlight (op :: ops) s) = inFlight (op :: ops) t) (n : Nat) :
    rasDrain (n + 1) (inFlight (op :: ops) s) = rasDrain n (inFlight ops (rasDo op t)) := by
  show rasDrain n (rasTick (if op.isAccess then _ else _)) = _
  rw [if_pos hop, hb, rasTick_inFlight]

/-- The state after the rasteriser's read of `v` at `a` (R101). -/
def fetched (a : Nat) (v : Byte) (s : State) : State :=
  { emit (.fbRead a v) s with ras := { s.ras with tmp := v } }

theorem rasDo_fetch_written {a : Fin fbSize} {v : Byte} {s : State} (hv : Memory.read s.fb a.val = some v) :
    rasDo (.fetch a) s = fetched a.val v s := by
  rw [rasDo, memRead_written hv, fetched]

/-- The read of a written byte, nothing happening before it (R101). -/
theorem rasDrain_fetch {a : Fin fbSize} {v : Byte} {s : State} {rest : List (List Act)}
    (hag : s.inp.agenda = [] :: rest) (hv : Memory.read s.fb a.val = some v) (ops : List RasOp) (n : Nat) :
    rasDrain (n + 1) (inFlight (.fetch a :: ops) s) =
      rasDrain n (inFlight ops (fetched a.val v (setAgenda rest s))) := by
  have hb : boundary .ras (inFlight (.fetch a :: ops) s) = inFlight (.fetch a :: ops) (setAgenda rest s) :=
    boundary_of_noAct .ras hag
  rw [rasDrain_access rfl hb, rasDo_fetch_written (s := setAgenda rest s) hv]

/-- The write back, EXT writing the byte before it (R53). -/
theorem rasDrain_store_after_extWrite {a : Fin fbSize} {w : Byte} {s : State} {rest : List (List Act)}
    (hag : s.inp.agenda = [.extWrite a.val w] :: rest) (hm : s.mapped = true) (m : Byte) (set : Bool)
    (ops : List RasOp) (n : Nat) :
    rasDrain (n + 1) (inFlight (.store a m set :: ops) s) =
      rasDrain n (inFlight ops
        (memWrite .ras a.val (applyMask s.ras.tmp m set) (memWrite .ext a.val w (setAgenda rest s)))) := by
  have hb : boundary .ras (inFlight (.store a m set :: ops) s) =
      inFlight (.store a m set :: ops) (memWrite .ext a.val w (setAgenda rest s)) :=
    (boundary_of_act (s := inFlight _ s) .ras hag).trans (extWrite_mapped w hm a.isLt)
  exact rasDrain_access rfl hb n

/-- Settles O27: the write back is computed from the byte of DRAW_POINT's own read, and comes after EXT's write. -/
theorem extWriteBetweenReadAndWriteIsLost : Obligations.ExtWriteBetweenReadAndWriteIsLost := by
  intro s x y set a v w halive hidle hm ha hx hy hv hag
  obtain ⟨b, hb, hops⟩ := pointOps_onScreen ⟨hx, hy⟩ set
  obtain rfl : b.val = a := hb.trans ha.symm
  have hexec : exec (.drawPoint x y set) s =
      .next (rasDrain 2 (inFlight [.fetch b, .store b (pixelMask y.toNat) set] s)) := by
    rw [exec_eq_rasterFrame rfl, rasterProgram, drawPointProgram, hops, rasterFrame, halive, rasFinish_idle hidle]
    rfl
  rw [rasDrain_fetch hag hv,
    rasDrain_store_after_extWrite (s := fetched b.val v (setAgenda [[.extWrite b.val w]] s)) rfl hm] at hexec
  refine ⟨_, hexec, Memory.read_write_same _ _ _, ?_⟩
  show List.reverse (_ :: _ :: _ :: s.traceRev) = _
  simp only [List.reverse_cons, List.append_assoc]
  rfl

end Sys2Proof.Machine

/-! The encoder and the decoder (30_encoding.md) through the fields of a word: a word of a sub-format is what its
fields say, so decoding and encoding undo each other, and a row of the opcode table tests an opcode and the fields
that must be zero. -/

namespace Sys2Proof.Machine

/-! ## Fields of a concatenation -/

theorem append_eq_append_iff {m n : Nat} {a c : BitVec m} {b d : BitVec n} :
    a ++ b = c ++ d ↔ a = c ∧ b = d := by
  refine ⟨fun h => ⟨?_, ?_⟩, fun ⟨ha, hb⟩ => ha ▸ hb ▸ rfl⟩
  · simpa [BitVec.extractLsb'_append_eq_of_le] using congrArg (BitVec.extractLsb' n m) h
  · simpa [BitVec.extractLsb'_append_eq_of_add_le] using congrArg (BitVec.extractLsb' 0 n) h

/-- A field is a concatenation exactly when its two parts are. -/
theorem extractLsb'_eq_append_iff {k m n lo : Nat} {a : BitVec m} {b : BitVec n} {w : BitVec k} :
    w.extractLsb' lo (m + n) = a ++ b ↔ w.extractLsb' (lo + n) m = a ∧ w.extractLsb' lo n = b := by
  rw [← BitVec.extractLsb'_append_extractLsb'_eq_extractLsb' rfl, append_eq_append_iff]

theorem append_eq_iff {m n : Nat} {a : BitVec m} {b : BitVec n} {w : BitVec (m + n)} :
    a ++ b = w ↔ w.extractLsb' (0 + n) m = a ∧ w.extractLsb' 0 n = b := by
  rw [← extractLsb'_eq_append_iff, BitVec.extractLsb'_eq_self, eq_comm]

theorem extractLsb'_eq_ofBool_iff {k i : Nat} {w : BitVec k} {v : Bool} :
    w.extractLsb' i 1 = BitVec.ofBool v ↔ w.getLsbD i = v := by
  have hbit : (w.extractLsb' i 1).getLsbD 0 = w.getLsbD i := by simp
  rw [← hbit]
  generalize w.extractLsb' i 1 = x
  revert x v
  decide

/-! ## The sub-formats: a word is what its fields say (R61, R66) -/

theorem wordC0_eq_iff {w : CmdWord} {op : Byte} :
    wordC0 op = w ↔ (opcode w).toNat = op.toNat ∧ field w 0 56 = 0#56 := by
  rw [wordC0, append_eq_iff, ← BitVec.toNat_inj]
  rfl

theorem wordC1_eq_iff {w : CmdWord} {op clk dout rst dc : Byte} :
    wordC1 op clk dout rst dc = w ↔ (opcode w).toNat = op.toNat ∧ field w 48 8 = clk ∧ field w 40 8 = dout ∧
      field w 32 8 = rst ∧ field w 24 8 = dc ∧ field w 0 24 = 0#24 := by
  rw [wordC1, append_eq_iff]
  simp only [extractLsb'_eq_append_iff, and_assoc]
  rw [← BitVec.toNat_inj]
  rfl

theorem wordC2_eq_iff {w : CmdWord} {op : Byte} {size : BitVec 32} :
    wordC2 op size = w ↔ (opcode w).toNat = op.toNat ∧ field w 32 24 = 0#24 ∧ field w 0 32 = size := by
  rw [wordC2, append_eq_iff]
  simp only [extractLsb'_eq_append_iff, and_assoc]
  rw [← BitVec.toNat_inj]
  rfl

theorem wordC3_eq_iff {w : CmdWord} {op : Byte} {off len : BitVec 16} :
    wordC3 op off len = w ↔ (opcode w).toNat = op.toNat ∧ field w 32 24 = 0#24 ∧ field w 16 16 = off ∧
      field w 0 16 = len := by
  rw [wordC3, append_eq_iff]
  simp only [extractLsb'_eq_append_iff, and_assoc]
  rw [← BitVec.toNat_inj]
  rfl

theorem wordC4_eq_iff {w : CmdWord} {op a b c d : Byte} {idx : BitVec 16} {wide set : Bool} :
    wordC4 op a b c d idx wide set = w ↔ (opcode w).toNat = op.toNat ∧ field w 48 8 = a ∧ field w 40 8 = b ∧
      field w 32 8 = c ∧ field w 24 8 = d ∧ field w 8 16 = idx ∧ field w 2 6 = 0#6 ∧ flag w 1 = wide ∧
      flag w 0 = set := by
  rw [wordC4, append_eq_iff]
  simp only [extractLsb'_eq_append_iff, extractLsb'_eq_ofBool_iff, and_assoc]
  rw [← BitVec.toNat_inj]
  rfl

theorem wordP_eq_iff {r : BitVec 9} {isData : Bool} {byte : Byte} :
    wordP isData byte = r ↔ r.getLsbD 8 = isData ∧ r.extractLsb' 0 8 = byte := by
  rw [wordP, append_eq_iff, extractLsb'_eq_ofBool_iff]

/-! ## Must-be-zero fields (R61, R63) -/

theorem zeroField_iff {w : CmdWord} {lo n : Nat} : zeroField w lo n = true ↔ field w lo n = 0#n := by
  rw [zeroField, beq_iff_eq]
  rfl

theorem field_add_eq_zero_iff {w : CmdWord} {lo m n : Nat} :
    field w lo (m + n) = 0#(m + n) ↔ field w (lo + n) m = 0#m ∧ field w lo n = 0#n := by
  rw [← BitVec.zero_append_zero]
  exact extractLsb'_eq_append_iff

theorem field_one_eq_zero_iff {w : CmdWord} {i : Nat} : field w i 1 = 0#1 ↔ flag w i = false :=
  extractLsb'_eq_ofBool_iff (v := false)

/-- The lowest byte of sub-format C4 is `wide` and `set` below six bits that are always zero. -/
theorem lowByte_eq_zero_iff {w : CmdWord} :
    field w 0 8 = 0#8 ↔ field w 2 6 = 0#6 ∧ flag w 1 = false ∧ flag w 0 = false := by
  rw [field_add_eq_zero_iff (m := 7) (n := 1), field_add_eq_zero_iff (m := 6) (n := 1), field_one_eq_zero_iff,
    field_one_eq_zero_iff, and_assoc]

/-- What FILL_REGION leaves zero: `idx`, the six bits below it and `wide`. -/
theorem fillUnused_eq_zero_iff {w : CmdWord} :
    field w 1 23 = 0#23 ↔ field w 8 16 = 0#16 ∧ field w 2 6 = 0#6 ∧ flag w 1 = false := by
  rw [field_add_eq_zero_iff (m := 16) (n := 7), field_add_eq_zero_iff (m := 6) (n := 1), field_one_eq_zero_iff]

/-- What DRAW_POINT leaves zero: `c`, `d` and what FILL_REGION leaves zero. -/
theorem pointUnused_eq_zero_iff {w : CmdWord} :
    field w 1 39 = 0#39 ↔ field w 32 8 = 0#8 ∧ field w 24 8 = 0#8 ∧ field w 8 16 = 0#16 ∧ field w 2 6 = 0#6 ∧
      flag w 1 = false := by
  rw [field_add_eq_zero_iff (m := 8) (n := 31), field_add_eq_zero_iff (m := 8) (n := 23), fillUnused_eq_zero_iff]

/-! ## Decoding and encoding -/

theorem accept?_ok_iff {op : Byte} {zeros : Bool} {i j : Instr} :
    accept? op zeros i = .ok j ↔ zeros = true ∧ i = j := by
  cases zeros <;> simp [accept?]

theorem decodeCommand_ok_iff {w : CmdWord} {payload : List Byte} {i : Instr} :
    decodeCommand w payload = .ok i ↔ payload.length = payloadCount w ∧ decodeWord w payload = .ok i := by
  unfold decodeCommand
  split <;> simp_all

theorem decodePhy_wordP (isData : Bool) (byte : Byte) :
    decodePhy (wordP isData byte) = if isData then .phyData byte else .phyCmd byte := by
  obtain ⟨hbit, hbyte⟩ := wordP_eq_iff.1 (rfl : wordP isData byte = _)
  rw [decodePhy, hbit, hbyte]

theorem encode_decodePhy (r : BitVec 9) : encode (decodePhy r) = .request r := by
  unfold decodePhy
  split
  · rename_i h
    exact congrArg _ (wordP_eq_iff.2 ⟨h, rfl⟩)
  · rename_i h
    exact congrArg _ (wordP_eq_iff.2 ⟨eq_false_of_ne_true h, rfl⟩)

/-- An instruction is decoded from the word and the payload it is encoded as, sub-format by sub-format. -/
theorem decodeCommand_of_encode {w : CmdWord} {payload : List Byte} {i : Instr} (hwf : i.wellFormed = true)
    (h : encode i = .command w payload) : decodeCommand w payload = .ok i := by
  rw [decodeCommand_ok_iff]
  cases i
  case phyCmd | phyData => cases h
  all_goals obtain ⟨hw, rfl⟩ := Words.command.inj h
  case configure =>
    obtain ⟨hop, rfl, rfl, rfl, rfl, hz⟩ := wordC1_eq_iff.1 hw
    simp [decodeWord, payloadCount, hop, accept?_ok_iff, zeroField_iff, hz]
  case mapFb =>
    obtain ⟨hop, hz, rfl⟩ := wordC2_eq_iff.1 hw
    simp [decodeWord, payloadCount, hop, accept?_ok_iff, zeroField_iff, hz]
  case bulkWrite =>
    obtain ⟨hop, hz, rfl, rfl⟩ := wordC3_eq_iff.1 hw
    simpa [decodeWord, payloadCount, hop, accept?_ok_iff, zeroField_iff, hz, Instr.wellFormed] using hwf
  case drawString =>
    obtain ⟨hop, rfl, rfl, rfl, hz, rfl, hlow⟩ := wordC4_eq_iff.1 hw
    simpa [decodeWord, payloadCount, hop, accept?_ok_iff, zeroField_iff, hz, lowByte_eq_zero_iff, hlow,
      Instr.wellFormed] using hwf
  case drawPoint | drawChar | drawBitmap | fillRegion =>
    have hfields := wordC4_eq_iff.1 hw
    simp [decodeWord, payloadCount, hfields, accept?_ok_iff, zeroField_iff, lowByte_eq_zero_iff,
      fillUnused_eq_zero_iff, pointUnused_eq_zero_iff]
  -- the commands without operands
  all_goals
    obtain ⟨hop, hz⟩ := wordC0_eq_iff.1 hw
    simp [decodeWord, payloadCount, hop, accept?_ok_iff, zeroField_iff, hz]

/-- A command word that decodes is rebuilt from its fields, opcode by opcode, and carries the payload it names. -/
theorem encode_of_decodeCommand {w : CmdWord} {payload : List Byte} {i : Instr}
    (h : decodeCommand w payload = .ok i) : encode i = .command w payload ∧ i.wellFormed = true := by
  obtain ⟨hl, h⟩ := decodeCommand_ok_iff.1 h
  unfold payloadCount at hl
  unfold decodeWord at h
  simp only at h
  split at h <;> rename_i ho <;>
    simp only [ho, accept?_ok_iff, zeroField_iff, Bool.and_eq_true, reduceCtorEq] at h hl
  all_goals obtain ⟨hz, rfl⟩ := h
  -- 0x09 BULK_WRITE and 0x14 DRAW_STRING carry a payload
  case h_9 => simp [encode, wordC3_eq_iff, ho, hz, Instr.wellFormed, hl]
  case h_16 => simp [encode, wordC4_eq_iff, ho, hz, lowByte_eq_zero_iff.1 hz.2, Instr.wellFormed, hl]
  all_goals obtain rfl : payload = [] := List.length_eq_zero_iff.1 hl
  -- 0x03 CONFIGURE, 0x08 MAP_FB, and 0x12, 0x13, 0x15, 0x16 of sub-format C4
  case h_3 => simp [encode, wordC1_eq_iff, ho, hz, Instr.wellFormed]
  case h_8 => simp [encode, wordC2_eq_iff, ho, hz, Instr.wellFormed]
  case h_14 => simp [encode, wordC4_eq_iff, ho, pointUnused_eq_zero_iff.1 hz, Instr.wellFormed]
  case h_15 => simp [encode, wordC4_eq_iff, ho, hz, Instr.wellFormed]
  case h_17 => simp [encode, wordC4_eq_iff, ho, lowByte_eq_zero_iff.1 hz, Instr.wellFormed]
  case h_18 => simp [encode, wordC4_eq_iff, ho, fillUnused_eq_zero_iff.1 hz, Instr.wellFormed]
  -- the commands without operands
  all_goals simp [encode, wordC0_eq_iff, ho, hz, Instr.wellFormed]

/-- Settles O1: a command word by its fields, a request by its bit 8. -/
theorem decodeOfEncodeIsTheInstruction : Obligations.DecodeOfEncodeIsTheInstruction := by
  intro i hwf
  cases h : encode i with
  | command w payload => exact decodeCommand_of_encode hwf h
  | request r =>
    cases i <;> cases h
    · exact congrArg _ (decodePhy_wordP false _)
    · exact congrArg _ (decodePhy_wordP true _)

/-- Settles O2: a command word by its fields; every request is an encoding (R66). -/
theorem decodableWordsAreEncodings : Obligations.DecodableWordsAreEncodings := by
  intro ws i h
  cases ws with
  | command w payload => exact encode_of_decodeCommand h
  | request r =>
    obtain rfl := Except.ok.inj h
    refine ⟨encode_decodePhy r, ?_⟩
    unfold decodePhy
    split <;> rfl

/-- Settles O5: the words of the vectors are decoded by evaluation. -/
theorem printedWordsDecodeAsPrinted : Obligations.PrintedWordsDecodeAsPrinted :=
  ⟨by decide, by decide, by decide, by decide, by decide, by decide, by decide⟩

/-! ## The rows of the opcode table (R63) -/

/-- The opcodes of format C, in the order of the table. -/
def opcodes : List Byte :=
  [0x01, 0x02, 0x03, 0x04, 0x05, 0x06, 0x07, 0x08, 0x09, 0x0A, 0x0B, 0x10, 0x11, 0x12, 0x13, 0x14, 0x15, 0x16]

/-- Column "Unused, must be 0" of R63: the lowest bit and the width of each such field. -/
def unusedFields : Nat → List (Nat × Nat)
  | 0x03 => [(0, 24)]
  | 0x08 => [(32, 24)]
  | 0x09 => [(32, 24)]
  | 0x12 => [(1, 39)]
  | 0x13 => [(24, 8), (2, 6)]
  | 0x14 => [(24, 8), (0, 8)]
  | 0x15 => [(0, 8)]
  | 0x16 => [(1, 23)]
  | _ => [(0, 56)]

/-- The `n` bits from bit `lo` up, below the opcode. -/
def fieldMask (lo n : Nat) : BitVec 56 := (BitVec.allOnes n).setWidth 56 <<< lo

/-- The bits of all the listed fields. -/
def unusedMask (zs : List (Nat × Nat)) : BitVec 56 := zs.foldr (fun z m => fieldMask z.1 z.2 ||| m) 0#56

/-- The row of an opcode: it tests the opcode and the unused fields. -/
def rowOf (op : Byte) : Row := ⟨0xFF#8 ++ unusedMask (unusedFields op.toNat), wordC0 op⟩

/-- The printed table is the rows of the opcodes. -/
theorem opcodeRows_eq : opcodeRows = opcodes.map rowOf := rfl

theorem exists_accept?_ok_iff {op : Byte} {zeros : Bool} {i : Instr} :
    (∃ j, accept? op zeros i = .ok j) ↔ zeros = true := by
  simp [accept?_ok_iff]

theorem decodeWord_ok_iff {w : CmdWord} {payload : List Byte} :
    (∃ i, decodeWord w payload = .ok i) ↔
      opcode w ∈ opcodes ∧ ∀ z ∈ unusedFields (opcode w).toNat, zeroField w z.1 z.2 = true := by
  unfold decodeWord
  simp only [opcodes, List.mem_cons, ← BitVec.toNat_inj, List.not_mem_nil]
  split <;> rename_i ho
  case h_19 => simp_all
  all_goals
    rw [ho, exists_accept?_ok_iff]
    simp [unusedFields, -Prod.forall]

theorem getLsbD_and_fieldMask (w : CmdWord) {lo n k : Nat} (hk : k < 56) :
    (field w 0 56 &&& fieldMask lo n).getLsbD k = (decide (lo ≤ k ∧ k < lo + n) && w.getLsbD k) := by
  simp only [field, fieldMask, BitVec.getLsbD_and, BitVec.getLsbD_extractLsb', BitVec.getLsbD_shiftLeft,
    BitVec.getLsbD_setWidth, BitVec.getLsbD_allOnes, Nat.zero_add]
  grind

theorem and_fieldMask_iff {w : CmdWord} {lo n : Nat} (h : lo + n ≤ 56) :
    field w 0 56 &&& fieldMask lo n = 0#56 ↔ field w lo n = 0#n := by
  rw [BitVec.eq_of_getLsbD_eq_iff, BitVec.eq_of_getLsbD_eq_iff]
  constructor
  · intro hz k hk
    have hbit := hz (lo + k) (by omega)
    rw [getLsbD_and_fieldMask w (by omega)] at hbit
    simpa [field, hk] using hbit
  · intro hz k hk
    rw [getLsbD_and_fieldMask w hk]
    by_cases hin : lo ≤ k ∧ k < lo + n
    · obtain ⟨j, rfl⟩ := Nat.exists_eq_add_of_le hin.1
      have hj : j < n := by omega
      simpa [field, hj] using hz j hj
    · simp [hin]

theorem and_unusedMask_iff {w : CmdWord} {zs : List (Nat × Nat)} (h : ∀ z ∈ zs, z.1 + z.2 ≤ 56) :
    field w 0 56 &&& unusedMask zs = 0#56 ↔ ∀ z ∈ zs, zeroField w z.1 z.2 = true := by
  induction zs with
  | nil => simp [unusedMask]
  | cons z zs ih =>
    rw [List.forall_mem_cons] at h ⊢
    rw [zeroField_iff, ← and_fieldMask_iff h.1, ← ih h.2, ← BitVec.or_eq_zero_iff, ← BitVec.and_or_distrib_left]
    rfl

theorem unusedFields_below_opcode (op : Nat) : ∀ z ∈ unusedFields op, z.1 + z.2 ≤ 56 := by
  unfold unusedFields
  split <;> decide

/-- A row's pattern is its opcode's word of sub-format C0, so a row selects by the opcode and the unused fields. -/
theorem rowOf_selects_iff {op : Byte} {w : CmdWord} :
    (rowOf op).selects w = true ↔ op = opcode w ∧ ∀ z ∈ unusedFields op.toNat, zeroField w z.1 z.2 = true := by
  obtain ⟨hop, hunused⟩ := append_eq_iff.1 (rfl : _ = (rowOf op).mask)
  have hopcode : opcode (w &&& (rowOf op).mask) = opcode w := by
    rw [opcode, BitVec.extractLsb'_and, hop]
    exact BitVec.and_allOnes
  have hfield : field (w &&& (rowOf op).mask) 0 56 = field w 0 56 &&& unusedMask (unusedFields op.toNat) := by
    rw [field, BitVec.extractLsb'_and, hunused, field]
  rw [Row.selects, beq_iff_eq, eq_comm]
  show wordC0 op = _ ↔ _
  rw [wordC0_eq_iff, hopcode, hfield, BitVec.toNat_inj, and_unusedMask_iff (unusedFields_below_opcode _), eq_comm]

/-- Settles O3: decoding and the selecting row test the same opcode and the same unused fields, and the row's opcode is
the word's. -/
theorem commandDecodesIffOpcodeRowSelects : Obligations.CommandDecodesIffOpcodeRowSelects := by
  rw [Obligations.CommandDecodesIffOpcodeRowSelects, opcodeRows_eq]
  constructor
  · intro w payload hl
    simp only [decodeCommand_ok_iff, hl, true_and, decodeWord_ok_iff, List.mem_map]
    constructor
    · rintro ⟨hop, hz⟩
      exact ⟨_, ⟨_, hop, rfl⟩, rowOf_selects_iff.2 ⟨rfl, hz⟩⟩
    · rintro ⟨_, ⟨op, hop, rfl⟩, hsel⟩
      obtain ⟨rfl, hz⟩ := rowOf_selects_iff.1 hsel
      exact ⟨hop, hz⟩
  · intro w r q hr hq hrw hqw
    obtain ⟨a, -, rfl⟩ := List.mem_map.1 hr
    obtain ⟨b, -, rfl⟩ := List.mem_map.1 hq
    rw [(rowOf_selects_iff.1 hrw).1, (rowOf_selects_iff.1 hqw).1]

end Sys2Proof.Machine

/-! The step by the port it serves (R64, R65, R66; log 8), and what stands at the head of that port. -/

namespace Sys2Proof.Machine

/-! ## What a word meets at its port (R64, R65) -/

/-- An empty control port offers nothing. -/
theorem offeredControl_empty {s : State} (h : s.inp.ctlPort = []) : offeredControl s = .nothing := by
  rw [offeredControl, h]

/-- The head of the control port is a word the port does not accept, which takes no payload (R64, R65). -/
theorem offeredControl_reserved {s : State} {o : CtlOffer} {os : List CtlOffer} (hp : s.inp.ctlPort = o :: os)
    (hno : ∀ payload i, decodeCommand o.word payload = .ok i → i.port ≠ .control) :
    offeredControl s = .reserved (opcode o.word) { s with inp := { s.inp with cid := o.cid, ctlPort := os } } := by
  obtain ⟨hn, hd⟩ := decodeOn_none hno
  rw [offeredControl, hp]
  simp only [hn, hd, Nat.not_lt_zero, if_false, List.drop_zero]

/-- The head of the raster port is a word the port does not accept, which takes no payload (R64, R65). -/
theorem offeredRaster_reserved {s : State} {w : CmdWord} {ws : List CmdWord} (hp : s.inp.rasPort = w :: ws)
    (hno : ∀ payload i, decodeCommand w payload = .ok i → i.port ≠ .raster) :
    offeredRaster s = .reserved (opcode w) { s with inp := { s.inp with rasPort := ws } } := by
  obtain ⟨hn, hd⟩ := decodeOn_none hno
  rw [offeredRaster, hp]
  simp only [hn, hd, Nat.not_lt_zero, if_false, List.drop_zero]

theorem serveControl_command {s t : State} {i : Instr} (hbusy : s.busy = false)
    (h : offeredControl s = .command i t) : serveControl s = exec i t := by
  rw [serveControl, hbusy, h]
  rfl

theorem serveControl_reserved {s t : State} {op : Byte} (hbusy : s.busy = false)
    (h : offeredControl s = .reserved op t) : serveControl s = illegal op t := by
  rw [serveControl, hbusy, h]
  rfl

theorem serveRaster_command {s r t : State} {i : Instr} (hr : r = rasFinish s)
    (h : offeredRaster r = .command i t) : serveRaster s = exec i t := by
  subst hr
  simp only [serveRaster, h]

theorem serveRaster_reserved {s t : State} {op : Byte} (hidle : s.ras.ops = [])
    (h : offeredRaster s = .reserved op t) : serveRaster s = .next t := by
  simp only [serveRaster, rasFinish_idle hidle, h]

theorem servePhy_request {s : State} {q : BitVec 9} {qs : List (BitVec 9)} (h : s.inp.phyPort = q :: qs) :
    servePhy s = exec (decodePhy q) { s with inp := { s.inp with phyPort := qs } } := by
  rw [servePhy, h]

/-- The answer to a reserved word on a live block (R64). -/
theorem illegal_alive {s : State} (op : Byte) (h : s.dead = false) :
    illegal op s = .next (answered op 0x0A (begin s)) := by
  rw [illegal, h]
  rfl

/-! ## The port a step serves (log 8) -/

/-- The state with its next turns replaced. -/
def setTurns (ts : List Port) (s : State) : State := { s with inp := { s.inp with turns := ts } }

theorem setTurns_self {s : State} {ts : List Port} (h : s.inp.turns = ts) : setTurns ts s = s := by
  rw [← h]
  rfl

theorem controlReady_of_offered {s : State} (hbusy : s.busy = false) (h : offeredControl s ≠ .nothing) :
    controlReady s = true := by
  rw [controlReady, hbusy]
  split
  · contradiction
  · rfl
  · rfl

theorem controlReady_empty {s : State} (h : s.inp.ctlPort = []) : controlReady s = false := by
  rw [controlReady, offeredControl_empty h, Bool.and_false]

/-- No teardown request is taken when there is none, or while BUSY = 1 (R210). -/
theorem teardown_notTaken {s : State} (h : s.tdreq = false ∨ s.busy = true) : (s.tdreq && !s.busy) = false := by
  rcases h with h | h <;> simp [h]

section
variable {s b : State} {ts : List Port} (hdead : s.dead = false) (hb : b = boundary .env s)
  (hfirst : b.tdreq = false ∨ b.busy = true)
include hdead hb

/-- A live block acts on the state its agenda's acts leave. -/
theorem step_eq_serve : step s = serve b := by
  rw [step, hdead, hb]
  rfl

include hfirst

/-- A step on the control port's turn, or with no turn given and something at the control port. -/
theorem step_control (hturns : b.inp.turns = .control :: ts ∨
    b.inp.turns = [] ∧ ts = [] ∧ controlReady b = true) : step s = serveControl (setTurns ts b) := by
  rw [step_eq_serve hdead hb, serve, teardown_notTaken hfirst]
  rcases hturns with h | ⟨h, rfl, hready⟩
  · simp [h, setTurns]
  · simp [h, hready, setTurns_self h]

/-- A step on the raster port's turn, or with no turn given and nothing at the other ports. -/
theorem step_raster (hturns : b.inp.turns = .raster :: ts ∨
    b.inp.turns = [] ∧ ts = [] ∧ b.inp.ctlPort = [] ∧ b.inp.phyPort = []) :
    step s = serveRaster (setTurns ts b) := by
  rw [step_eq_serve hdead hb, serve, teardown_notTaken hfirst]
  rcases hturns with h | ⟨h, rfl, hctl, hphy⟩
  · simp [h, setTurns]
  · simp [h, controlReady_empty hctl, hphy, setTurns_self h]

/-- A step on the PHY input's turn, or with no turn given, nothing at the control port and a request there. -/
theorem step_phy (hturns : b.inp.turns = .phy :: ts ∨
    b.inp.turns = [] ∧ ts = [] ∧ b.inp.ctlPort = [] ∧ b.inp.phyPort ≠ []) :
    step s = servePhy (setTurns ts b) := by
  rw [step_eq_serve hdead hb, serve, teardown_notTaken hfirst]
  rcases hturns with h | ⟨h, rfl, hctl, hphy⟩
  · simp [h, setTurns]
  · simp [h, controlReady_empty hctl, hphy, setTurns_self h]

end

/-- Settles O9: on the port's turn the word is offered as reserved, and answered. -/
theorem reservedControlWordAnswersIllegal : Obligations.ReservedControlWordAnswersIllegal := by
  intro s b o os ts hdead hb halive htd hbusy hturns hport hno
  have hready : controlReady b = true :=
    controlReady_of_offered hbusy (by simp [offeredControl_reserved hport hno])
  have hoff := offeredControl_reserved (s := setTurns ts b) hport hno
  rw [step_control hdead hb (.inl htd) (hturns.imp_right fun ⟨h, hts⟩ => ⟨h, hts, hready⟩)]
  exact (serveControl_reserved (s := setTurns ts b) hbusy hoff).trans (illegal_alive _ halive)

/-- Settles O10: on the port's turn the word is offered as reserved, and dropped. -/
theorem reservedRasterWordIsDropped : Obligations.ReservedRasterWordIsDropped := by
  intro s b w ws ts hdead hb hfirst hturns hidle hport hno
  rw [step_raster hdead hb hfirst (.inl hturns)]
  exact serveRaster_reserved hidle (offeredRaster_reserved (s := setTurns ts b) hport hno)

/-- Settles O6: on the port's turn the word is offered as a command. -/
theorem stepRunsTheControlCommand : Obligations.StepRunsTheControlCommand := by
  intro s b o os ts i hdead hb htd hbusy hturns hport hlen hdec hi
  have hready : controlReady b = true :=
    controlReady_of_offered hbusy (by simp [offeredControl_command hport hlen hdec hi])
  rw [step_control hdead hb (.inl htd) (hturns.imp_right fun ⟨h, hts⟩ => ⟨h, hts, hready⟩)]
  exact serveControl_command hbusy (offeredControl_command (s := setTurns ts b) hport hlen hdec hi)

/-- Settles O7: on the port's turn the word is offered once the operation in flight has ended. -/
theorem stepRunsTheRasterOperation : Obligations.StepRunsTheRasterOperation := by
  intro s b r w ws ts i hdead hb hfirst hturns hr hport hlen hdec hi
  rw [step_raster hdead hb hfirst hturns]
  exact serveRaster_command hr (offeredRaster_command hport hlen hdec hi)

/-- Settles O8: on the PHY input's turn its request is decoded by bit 8. -/
theorem stepRunsThePhyRequest : Obligations.StepRunsThePhyRequest := by
  intro s b q qs ts hdead hb hfirst hturns hport
  have hreq : b.inp.phyPort ≠ [] := by simp [hport]
  rw [step_phy hdead hb hfirst (hturns.imp_right fun ⟨h, hts, hctl⟩ => ⟨h, hts, hctl, hreq⟩)]
  exact servePhy_request (s := setTurns ts b) hport

end Sys2Proof.Machine

/-! The serial PHY with no other agent acting (40_serial_phy.md): what a run of transactions leaves behind and what it
records, and the two ways a pin write does not happen, without the pads (R80, R241) and by the oracle (R90). -/

namespace Sys2Proof.Machine

/-! ## What a run of transactions leaves behind (R87, R91) -/

/-- `t` is `s` after transactions of `bytes` that recorded `es`: the lines are as the last byte left them, and nothing
but SR to IDX and the draws may differ besides. -/
def Streamed (bytes : List Byte) (es : List Event) (s t : State) : Prop :=
  t = { s with
    seqr := t.seqr
    pads := padsAfter s.params s.pinreg bytes s.pads
    traceRev := es.reverse ++ s.traceRev
    draws := t.draws }

theorem sendByte_streamed {s : State} (h : Ready s) (b : Byte) (isData : Bool) :
    ∃ t, sendByte b isData s = .ok t ∧
      Streamed [b] (byteEvents s.params s.pinreg s.dlyCfg.toNat b isData) s t ∧ t.draws = s.draws :=
  ⟨_, sendByte_ready h b isData, rfl, rfl⟩

theorem sendSeq_streamed {s : State} (h : Ready s) (bytes : List Byte) (isData : Bool) :
    ∃ t, sendSeq bytes isData s = .ok t ∧
      Streamed bytes (bytesEvents s.params s.pinreg s.dlyCfg.toNat bytes isData) s t ∧ t.draws = s.draws := by
  obtain ⟨q, hq, -, -⟩ := sendSeqFrom_ready h isData 0 bytes
  exact ⟨_, hq, rfl, rfl⟩

theorem Streamed.trace_eq {bytes : List Byte} {es : List Event} {s t : State} (h : Streamed bytes es s t) :
    t.trace = s.trace ++ es := by
  rw [h]
  simp [State.trace]

/-- A pad no role names is as before. -/
theorem getElem?_padsAfter_other (p : Config.Params) {g : PinGroup} (bytes : List Byte) (P : Pads) {id : PinId}
    (h : ∀ r, g.get r ≠ id) : (padsAfter p g bytes P)[id.toNat]? = P[id.toNat]? := by
  have hclk : id ≠ g.clk := (h .clk).symm
  have hdout : id ≠ g.dout := (h .dout).symm
  have hdc : id ≠ g.dc := (h .dc).symm
  unfold padsAfter
  split
  · rfl
  · simp only [getElem?_drivePad, hclk, hdout, hdc, if_false]

theorem owner_drivePad (P : Pads) (id j : PinId) (v : Level) :
    ((drivePad P id v)[j.toNat]?).map Pad.owner = (P[j.toNat]?).map Pad.owner := by
  rw [getElem?_drivePad]
  split
  · cases P[j.toNat]? <;> rfl
  · rfl

theorem owner_padsAfter (p : Config.Params) (g : PinGroup) (bytes : List Byte) (P : Pads) (id : PinId) :
    ((padsAfter p g bytes P)[id.toNat]?).map Pad.owner = (P[id.toNat]?).map Pad.owner := by
  unfold padsAfter
  split
  · rfl
  · simp only [owner_drivePad]

theorem Streamed.busFrame {bytes : List Byte} {es : List Event} {s t : State} (h : Streamed bytes es s t) :
    BusFrame s t := by
  rw [h]
  exact ⟨rfl, rfl, rfl, rfl, rfl, rfl, rfl, rfl, rfl, rfl, rfl, rfl, rfl, rfl,
    fun _ hid => getElem?_padsAfter_other _ _ _ hid, owner_padsAfter _ _ _ _⟩

/-- The lines are those the last byte left (R87). -/
theorem Streamed.sentLast {bytes : List Byte} {es : List Event} {s t : State} {last : Byte}
    (h : Streamed bytes es s t) (hs : OwnsPins s) (hlast : bytes.getLast? = some last) : SentLast s t last := by
  have hheld : ∀ r, prsBit s.prs r = true := fun r => by rw [hs.prs]; exact prsBit_prsAll r
  have hpad : ∀ r, ∃ p, s.pads[(s.pinreg.get r).toNat]? = some p := fun r => padOf_isSome (hs.named r)
  have hne : ∀ {r q : Role}, r ≠ q → s.pinreg.get r ≠ s.pinreg.get q := fun hrq he => hrq (hs.distinct _ _ he)
  have hline : ∀ r, line t r = (((drivePad (drivePad (drivePad s.pads (s.pinreg.get .clk) true)
      (s.pinreg.get .dout) (last.getLsbD 0)) (s.pinreg.get .dc) s.params.dcData)[(s.pinreg.get r).toNat]?).map
        Pad.drv).getD .z := by
    intro r
    rw [h, line_of_held (by exact hheld r)]
    simp only [padOf, padsAfter, hlast]
    rfl
  constructor
  · obtain ⟨p, hp⟩ := hpad .dc
    simp [hline, getElem?_drivePad, hp, hne]
  · obtain ⟨p, hp⟩ := hpad .clk
    simp [hline, getElem?_drivePad, hp, hne]
  · obtain ⟨p, hp⟩ := hpad .dout
    simp [hline, getElem?_drivePad, hp, hne]
  · rw [hline, line_of_held (hheld .rst)]
    simp [getElem?_drivePad, hne, padOf]

/-! ## A PHY request (R83 to R87) -/

theorem phyFrame_ready {s : State} (hdead : s.dead = false) (h : Ready s) (b : Byte) (isData : Bool) :
    phyFrame b isData s = .next (sent b isData s) := by
  rw [phyFrame, hdead, sendByte_ready h]
  rfl

theorem exec_phyRequest (b : Byte) (isData : Bool) (s : State) :
    exec (if isData then .phyData b else .phyCmd b) s = phyFrame b isData s := by
  cases isData <;> rfl

/-- Settles O14: the request is one transaction, whose closed form is `sent`. -/
theorem phyTransactionWritesTheFrame : Obligations.PhyTransactionWritesTheFrame := by
  intro s b isData hdead halone howns
  have hsent : Streamed [b] (byteEvents s.params s.pinreg s.dlyCfg.toNat b isData) s (sent b isData s) := rfl
  exact ⟨_, (exec_phyRequest b isData s).trans (phyFrame_ready hdead ⟨halone, howns⟩ b isData), hsent.trace_eq,
    hsent.sentLast howns rfl, hsent.busFrame, rfl, rfl, rfl, rfl, rfl, rfl, rfl⟩

/-! ## The writes of a transaction and their delays (R83, R86) -/

/-- The pin writes of `SendByte(b, s)` in order (R83). -/
def byteWrites (p : Config.Params) (b : Byte) (isData : Bool) : List (Role × Level) :=
  (.dc, if isData then p.dcData else !p.dcData) ::
    ([7, 6, 5, 4, 3, 2, 1, 0].flatMap fun i => [(.clk, false), (.dout, b.getLsbD i), (.clk, true)]) ++
    [(.dc, p.dcData)]

theorem length_byteWrites (p : Config.Params) (b : Byte) (isData : Bool) : (byteWrites p b isData).length = 26 := rfl

/-- A transaction's events are its writes, each with its delay. -/
theorem byteEvents_eq_flatMap (p : Config.Params) (g : PinGroup) (d : Nat) (b : Byte) (isData : Bool) :
    byteEvents p g d b isData = (byteWrites p b isData).flatMap fun w => writeEvents g d w.1 w.2 := by
  simp [byteEvents, cellEvents, byteWrites]

section
variable {isPin : Event → Bool} (hpin : ∀ r id v, isPin (.pin r id v) = true) (hwait : ∀ t, isPin (.wait t) = false)
include hpin hwait

theorem filter_writeEvents (g : PinGroup) (d : Nat) (r : Role) (v : Level) :
    (writeEvents g d r v).filter isPin = [.pin r (g.get r) v] := by
  unfold writeEvents delayEvents
  split <;> simp [hpin, hwait]

/-- The pin events among the writes with their delays are the writes. -/
theorem filter_writes (g : PinGroup) (d : Nat) (ws : List (Role × Level)) :
    (ws.flatMap fun w => writeEvents g d w.1 w.2).filter isPin = ws.map fun w => .pin w.1 (g.get w.1) w.2 := by
  induction ws with
  | nil => rfl
  | cons w ws ih => rw [List.flatMap_cons, List.filter_append, filter_writeEvents hpin hwait, ih]; rfl

end

/-- Pairs in a row stand at an even place and the odd one after it. -/
theorem getElem?_flatMap_pair {α β : Type} (f k : α → β) (l : List α) (n : Nat) :
    (l.flatMap fun x => [f x, k x])[2 * n]? = l[n]?.map f ∧
      (l.flatMap fun x => [f x, k x])[2 * n + 1]? = l[n]?.map k := by
  induction l generalizing n with
  | nil => simp
  | cons x l ih =>
    cases n with
    | zero => simp
    | succ n => simpa [Nat.mul_succ] using ih n

/-- Settles O16: the 26 writes of `byteWrites`, alone or each before its wait. -/
theorem transactionIs26WritesEachDelayed : Obligations.TransactionIs26WritesEachDelayed := by
  intro s b i hi hdead halone howns
  obtain ⟨isData, rfl⟩ : ∃ isData : Bool, i = if isData then .phyData b else .phyCmd b :=
    hi.elim (⟨false, ·⟩) (⟨true, ·⟩)
  have hsent : Streamed [b] (byteEvents s.params s.pinreg s.dlyCfg.toNat b isData) s (sent b isData s) := rfl
  refine ⟨_, _, (exec_phyRequest b isData s).trans (phyFrame_ready hdead ⟨halone, howns⟩ b isData),
    hsent.trace_eq, ?_, ?_, ?_⟩ <;> rw [byteEvents_eq_flatMap]
  · rw [filter_writes (fun _ _ _ => rfl) (fun _ => rfl), List.length_map, length_byteWrites]
  · intro hdly
    simp [writeEvents, delayEvents, hdly, length_byteWrites]
  · intro hdly
    have hne : s.dlyCfg.toNat ≠ 0 := fun h => hdly (BitVec.eq_of_toNat_eq h)
    simp only [writeEvents, delayEvents, if_neg hne]
    refine ⟨by simp [length_byteWrites], fun k hk => ?_⟩
    obtain ⟨heven, hodd⟩ := getElem?_flatMap_pair (fun w : Role × Level => Event.pin w.1 (s.pinreg.get w.1) w.2)
      (fun _ => .wait s.dlyCfg.toNat) (byteWrites s.params b isData) k
    have hw : (byteWrites s.params b isData)[k]? = some ((byteWrites s.params b isData)[k]'hk) :=
      List.getElem?_eq_getElem hk
    rw [hw] at heven hodd
    exact ⟨⟨_, _, _, heven⟩, hodd⟩

/-! ## Without all four pads (R80, R138, R241) -/

theorem pinWrite_unowned {s : State} {r : Role} (v : Level) (h : prsBit (boundary .seq s).prs r = false) :
    pinWrite r v s = .fault (.pinNotOwned r) := pinDrive_unowned v h

theorem pinWrite_partial (r : Role) (v : Level) {s : State} (h : (boundary .seq s).prs ≠ prsAll) :
    ∃ f, pinWrite r v s = .fault f := by
  by_cases hbit : prsBit (boundary .seq s).prs r = false
  · exact ⟨_, pinWrite_unowned v hbit⟩
  · exact ⟨.groupNotOwned, by rw [pinWrite, pinDrive, if_neg hbit, if_pos h]⟩

/-- A PHY request without the select pad stops at its first pin write. -/
theorem phyFrame_unowned {s : State} (hdead : s.dead = false) (hag : s.inp.agenda = [])
    (hdc : prsBit s.prs .dc = false) (b : Byte) (isData : Bool) :
    phyFrame b isData s = .fault (.pinNotOwned .dc) := by
  have hfirst : selectWrite isData s = .fault (.pinNotOwned .dc) :=
    pinWrite_unowned _ (by rw [boundary_of_nil .seq hag]; exact hdc)
  have hsend : sendByte b isData s = .fault (.pinNotOwned .dc) := by
    rw [sendByte, runAll_cons, hfirst, Res.andThen_fault]
  rw [phyFrame, hdead, hsend]
  rfl

/-- The guard comes before anything a guarded command does (R138). -/
theorem controlBody_notReady {i : Instr} (hi : isGuarded i = true) {s : State} (hprs : s.prs ≠ prsAll) :
    controlBody i s = .raise .notReady s := by
  have hguard : guardOk s = false := by simpa [guardOk] using hprs
  have hrejects : ∀ body, guarded body s = .raise .notReady s := fun body => by
    rw [guarded, hguard]
    rfl
  cases i <;> simp only [isGuarded, reduceCtorEq] at hi <;> exact hrejects _

theorem isGuarded_control {i : Instr} (hi : isGuarded i = true) : i.port = .control := by
  cases i <;> simp only [isGuarded, reduceCtorEq] at hi <;> rfl

/-- A command of the owner is its body and the response (R165, R205). -/
theorem exec_of_owner {i : Instr} (hport : i.port = .control) {s : State} (h : OwnerMayIssue s) :
    exec i s = conclude (controlOpcode i) (controlBody i (begin s)) :=
  (exec_eq_controlFrame hport s).trans (controlFrame_runs h.alive fun _ => h.session)

/-- The other agents drive no pad (R23). -/
theorem Elsewhere.drives {s t : State} (h : Elsewhere s t) (id : PinId) :
    (padOf t id).map Pad.drv = (padOf s id).map Pad.drv := by
  simpa [Option.map_map, Function.comp_def] using congrArg (Option.map Prod.fst) (h.pads id)

/-- Settles O15: a pin write tests PRS first, and a guarded command tests it before its first pin write. -/
theorem pinWriteWithoutAllPadsIsAFault : Obligations.PinWriteWithoutAllPadsIsAFault := by
  refine ⟨fun r v s h => pinWrite_unowned v h, fun r v s h => pinWrite_partial r v h,
    fun s b hdead hag hdc => ⟨phyFrame_unowned hdead hag hdc b false, phyFrame_unowned hdead hag hdc b true⟩, ?_⟩
  intro s t i hmay hi hprs hexec
  rw [exec_of_owner (isGuarded_control hi) hmay, controlBody_notReady hi (by exact hprs)] at hexec
  cases hexec
  have hb := boundary_elsewhere .seq (begin s)
  obtain ⟨es, he, hes⟩ := hb.trace
  refine ⟨rfl, fun id => hb.drives id, es.reverse ++ [.resp (controlOpcode i) 0x04], ?_, ?_⟩
  · show (respond _ _ _).trace = _
    rw [respond_trace, State.trace, he]
    simp [State.trace, Code.byte]
  · intro e hm r id v
    rcases List.mem_append.1 hm with hm | hm
    · rcases hes e (List.mem_reverse.1 hm) with ⟨a, w, rfl⟩ | ⟨g, a, w, -, rfl⟩ <;> simp
    · rw [List.mem_singleton.1 hm]
      simp

/-! ## A failing pin write (R90) -/

/-- The state with the oracle's coming answers replaced. -/
def setOracle (answers : List Bool) (s : State) : State := { s with inp := { s.inp with pinFault := answers } }

theorem pinWrite_fails {s : State} {rest : List Bool} (r : Role) (v : Level) (h : OwnsPins s)
    (hag : s.inp.agenda = []) (ho : s.inp.pinFault = true :: rest) :
    pinWrite r v s = .raise .io (setOracle rest s) := by
  obtain ⟨p, hp⟩ := padOf_isSome (s := s) (h.named r)
  simp [pinWrite, boundary_of_nil .seq hag, pinDrive, h.prs, hp, askOracle, ho, setOracle]

theorem sendSeq_fails {s : State} {rest : List Bool} {bytes : List Byte} (isData : Bool) (h : OwnsPins s)
    (hag : s.inp.agenda = []) (ho : s.inp.pinFault = true :: rest) (hbytes : bytes ≠ []) :
    sendSeq bytes isData s = .raise .io (setOracle rest (setIdx 0 s)) := by
  obtain ⟨b, bs, rfl⟩ := List.exists_cons_of_ne_nil hbytes
  have hfirst : selectWrite isData (setIdx 0 s) = .raise .io (setOracle rest (setIdx 0 s)) :=
    pinWrite_fails _ _ ⟨h.prs, h.named, h.distinct⟩ hag ho
  rw [sendSeq, sendSeqFrom, sendByte, runAll_cons, hfirst, Res.andThen_raise, Res.andThen_raise]

/-- A guarded command that begins with a sequence answers ERR_IO at its first pin write (R161, R162). -/
theorem exec_guardedSend_fails {i : Instr} {bytes : Config.Params → List Byte} {parts : List (State → Res)}
    (hport : i.port = .control)
    (hbody : controlBody i = guarded (runAll ((fun t => sendSeq (bytes t.params) false t) :: parts)))
    {s : State} {rest : List Bool} (hmay : OwnerMayIssue s) (h : OwnsPins s) (hag : s.inp.agenda = [])
    (ho : s.inp.pinFault = true :: rest) (hbytes : bytes s.params ≠ []) :
    exec i s = .next (respond (controlOpcode i) .io (setOracle rest (setIdx 0 (begin s)))) := by
  have hguard : guardOk (begin s) = true := by simp [guardOk, h.prs]
  have hsend := sendSeq_fails (s := begin s) false ⟨h.prs, h.named, h.distinct⟩ hag ho hbytes
  rw [exec_of_owner hport hmay, hbody, guarded, if_pos hguard, runAll_cons]
  simp only [begin_params, hsend, Res.andThen_raise, conclude]
  rw [finish_alone _ _ (by exact hag)]

/-- Settles O49: the first pin write raises ERR_IO, which is answered at once. -/
theorem failingPinWriteEndsTheCommand : Obligations.FailingPinWriteEndsTheCommand := by
  intro s rest hmay howns hag ho
  have hne : ∀ v : Vector Byte 3, v.toList ≠ [] := fun v hv => by simpa [hv] using v.length_toList
  have hon := exec_guardedSend_fails (i := .displayOn) (bytes := fun p => p.onSeq.toList)
    (parts := [update (setLc .opened)]) rfl rfl hmay howns hag ho (hne _)
  have hoff := exec_guardedSend_fails (i := .displayOff) (bytes := fun p => p.offSeq.toList)
    (parts := [update (setLc .closed)]) rfl rfl hmay howns hag ho (hne _)
  constructor
  · rw [hon]
    rfl
  · rw [hoff]
    rfl

end Sys2Proof.Machine

/-! The receiver on the four lines (40_serial_phy.md section 7): through one bit cell, one transaction and a run of
them (R88). -/

namespace Sys2Proof.Machine

/-! ## The receiver through a list of events -/

@[simp] theorem Rx.run_nil (p : Config.Params) (x : Rx) : x.run p [] = x := rfl

@[simp] theorem Rx.run_append (p : Config.Params) (x : Rx) (es fs : List Event) :
    x.run p (es ++ fs) = (x.run p es).run p fs := List.foldl_append

/-- A pin write with its delay is one observation. -/
theorem Rx.run_writeEvents (p : Config.Params) (x : Rx) (g : PinGroup) (d : Nat) (r : Role) (v : Level) :
    x.run p (writeEvents g d r v) = x.observe p (.pin r (g.get r) v) := by
  unfold writeEvents delayEvents
  split <;> rfl

/-- A receiver with the clock and the reset line high: the select and the data line, the bits since the last byte, and
the bytes received. -/
def Rx.high (dc dout : Level) (bits : List Level) (out : List (Byte × Bool)) : Rx :=
  ⟨true, dout, true, dc, bits, out⟩

/-- One bit cell: its rising edge shifts the data bit in (R88 (b)). -/
theorem Rx.run_cellEvents (p : Config.Params) (g : PinGroup) (d : Nat) (dc u v : Level) (bits : List Level)
    (out : List (Byte × Bool)) :
    (Rx.high dc u bits out).run p (cellEvents g d v) =
      if (bits ++ [v]).length = 8 then Rx.high dc v [] (out ++ [(byteOfBits (bits ++ [v]), dc == p.dcData)])
      else Rx.high dc v (bits ++ [v]) out := by
  rw [cellEvents, Rx.run_append, Rx.run_append, Rx.run_writeEvents, Rx.run_writeEvents, Rx.run_writeEvents]
  rfl

/-- The eight bits of a byte, the most significant first, are the byte (R88 (e)). -/
theorem byteOfBits_bits (b : Byte) : byteOfBits (([7, 6, 5, 4, 3, 2, 1, 0] : List Nat).map b.getLsbD) = b := by
  refine BitVec.eq_of_getLsbD_eq fun i hi => ?_
  interval_cases i <;> simp [byteOfBits]

/-- Between two bytes the lines idle (R27): `v` is the level of the data line. -/
def Rx.between (p : Config.Params) (v : Level) (out : List (Byte × Bool)) : Rx := Rx.high p.dcData v [] out

/-- A transaction is received as its byte with its selector (R88 (e)). -/
theorem Rx.run_byteEvents (p : Config.Params) (g : PinGroup) (d : Nat) (v : Level) (out : List (Byte × Bool)) (b : Byte)
    (isData : Bool) : (Rx.between p v out).run p (byteEvents p g d b isData) =
      Rx.between p (b.getLsbD 0) (out ++ [(b, isData)]) := by
  have hselect : ((if isData then p.dcData else !p.dcData) == p.dcData) = isData := by
    cases isData <;> cases p.dcData <;> rfl
  have hdc : ∀ dc, (Rx.between p v out).observe p (.pin .dc (g.get .dc) dc) = Rx.high dc v [] out := fun _ => rfl
  have hbits := byteOfBits_bits b
  simp only [List.map_cons, List.map_nil] at hbits
  rw [byteEvents, Rx.run_append, Rx.run_append, Rx.run_writeEvents, Rx.run_writeEvents, hdc]
  simp only [List.flatMap_cons, List.flatMap_nil, Rx.run_append, Rx.run_cellEvents, Rx.run_nil, List.nil_append,
    List.cons_append, List.length_cons, List.length_nil, Nat.reduceAdd, Nat.reduceEqDiff, if_false, if_true, hbits,
    hselect]
  rfl

/-! ## Streams -/

/-- The level of the data line after the bytes of a stream. -/
def lastBit (v : Level) (stream : List (Byte × Bool)) : Level := stream.foldl (fun _ c => c.1.getLsbD 0) v

/-- The events are received as the stream, from between two bytes to between two bytes. -/
def Carries (p : Config.Params) (stream : List (Byte × Bool)) (es : List Event) : Prop :=
  ∀ v out, (Rx.between p v out).run p es = Rx.between p (lastBit v stream) (out ++ stream)

theorem Carries.nil (p : Config.Params) : Carries p [] [] := fun v out => by rw [List.append_nil]; rfl

theorem Carries.append {p : Config.Params} {a b : List (Byte × Bool)} {es fs : List Event} (h : Carries p a es)
    (k : Carries p b fs) : Carries p (a ++ b) (es ++ fs) := fun v out => by
  rw [Rx.run_append, h, k, List.append_assoc, lastBit, lastBit, lastBit, List.foldl_append]

theorem Carries.flatMap {p : Config.Params} {α : Type} {l : List α} {f : α → List (Byte × Bool)}
    {k : α → List Event} (h : ∀ x, Carries p (f x) (k x)) : Carries p (l.flatMap f) (l.flatMap k) := by
  induction l with
  | nil => exact .nil p
  | cons x l ih => exact (h x).append ih

theorem byteEvents_carries (p : Config.Params) (g : PinGroup) (d : Nat) (b : Byte) (isData : Bool) :
    Carries p [(b, isData)] (byteEvents p g d b isData) := fun v out => Rx.run_byteEvents p g d v out b isData

theorem bytesEvents_carries (p : Config.Params) (g : PinGroup) (d : Nat) (bytes : List Byte) (isData : Bool) :
    Carries p (bytes.map fun b => (b, isData)) (bytesEvents p g d bytes isData) := by
  rw [List.map_eq_flatMap]
  exact .flatMap fun b => byteEvents_carries p g d b isData

theorem lastBit_of_getLast? {bytes : List Byte} {last : Byte} (h : bytes.getLast? = some last) (isData : Bool)
    (v : Level) : lastBit v (bytes.map fun b => (b, isData)) = last.getLsbD 0 := by
  obtain ⟨init, rfl⟩ := List.getLast?_eq_some_iff.1 h
  simp [lastBit]

/-- The lines idle after a run of transactions from idle lines, the data line at the last bit sent (R87, R91). -/
theorem Streamed.lines_idle {bytes : List Byte} {es : List Event} {s t : State} (h : Streamed bytes es s t)
    (hs : OwnsPins s) (hidle : linesIdle s) {v : Level} (hv : line s .dout = .driven v) (isData : Bool) :
    linesIdle t ∧ line t .dout = .driven (lastBit v (bytes.map fun b => (b, isData))) := by
  cases hlast : bytes.getLast? with
  | none =>
    obtain rfl := List.getLast?_eq_none_iff.1 hlast
    have hline : ∀ r, line t r = line s r := fun r => by rw [h]; rfl
    have hparams : t.params = s.params := by rw [h]
    simpa only [linesIdle, hline, hparams] using ⟨hidle, hv⟩
  | some last =>
    obtain ⟨hdc, hclk, hdout, hrst⟩ := h.sentLast hs hlast
    rw [lastBit_of_getLast? hlast]
    refine ⟨⟨hclk, hrst.trans hidle.2.1, by rw [hdc, h], ?_⟩, hdout⟩
    rw [hdout]
    cases last.getLsbD 0 <;> simp

/-- Settles O17: what SendSeq records carries its bytes, and its pads are those of the last byte. -/
theorem receiverRecoversTheSequence : Obligations.ReceiverRecoversTheSequence := by
  intro s bytes isData v halone howns hidle hv
  obtain ⟨t, hsend, hst, -⟩ := sendSeq_streamed ⟨halone, howns⟩ bytes isData
  obtain ⟨hidle', hdout⟩ := hst.lines_idle howns hidle hv isData
  exact ⟨t, _, _, hsend, hst.trace_eq, hidle', hdout,
    bytesEvents_carries s.params s.pinreg s.dlyCfg.toNat bytes isData v []⟩

end Sys2Proof.Machine

/-! REFRESH with no other agent acting (R163, R166): its reads go up the framebuffer, its transactions follow them, and
what it records carries the stream of R166. -/

namespace Sys2Proof.Machine

open Sys2Proof.Config (width height npages fbSize)

/-! ## Runs of transactions one after another -/

theorem Streamed.refl (s : State) : Streamed [] [] s s := rfl

/-- Only the last byte of a run shows on the pads. -/
theorem padsAfter_append {s : State} (h : Ready s) (bs cs : List Byte) :
    padsAfter s.params s.pinreg cs (padsAfter s.params s.pinreg bs s.pads) =
      padsAfter s.params s.pinreg (bs ++ cs) s.pads := by
  induction bs generalizing s with
  | nil => rfl
  | cons b bs ih =>
    rw [← padsAfter_cons h, List.cons_append, ← padsAfter_cons h]
    exact ih (h.sent b true)

theorem Streamed.trans {bs cs : List Byte} {es fs : List Event} {s t u : State} (hs : Ready s)
    (h : Streamed bs es s t) (k : Streamed cs fs t u) : Streamed (bs ++ cs) (es ++ fs) s u := by
  unfold Streamed at k
  rw [h] at k
  simp only [padsAfter_append hs] at k
  rw [Streamed, List.reverse_append, List.append_assoc]
  exact k

theorem Streamed.ready {bytes : List Byte} {es : List Event} {s t : State} (h : Streamed bytes es s t) (hs : Ready s) :
    Ready t := by
  rw [h]
  exact ⟨⟨hs.agenda, hs.oracle⟩, ⟨hs.prs, hs.named, hs.distinct⟩⟩

/-! ## Reads in ascending order (R44, R47) -/

/-- How many bytes below `a` hold no value. -/
def unwritten (m : Memory) (a : Nat) : Nat := (List.range a).countP fun k => (Memory.read m k).isNone

/-- What a read of `a` returns where every byte below it was read before and `n` free bytes had been drawn then. -/
def readInTurn (m : Memory) (n a : Nat) : Byte := (Memory.read m a).getD (Config.freeByte (n + unwritten m a))

/-- Every byte below `a` has been read since `n` free bytes had been drawn. -/
def ReadBelow (n a : Nat) (s : State) : Prop := s.draws = n + unwritten s.fb a

theorem unwritten_succ (m : Memory) (a : Nat) :
    unwritten m (a + 1) = unwritten m a + if (Memory.read m a).isNone then 1 else 0 := by
  simp [unwritten, List.range_succ, List.countP_append, List.countP_cons]

/-- The next read in ascending order. -/
theorem seqRead_inTurn {s : State} (hs : Ready s) {n a : Nat} (ha : a < fbSize) (hn : ReadBelow n a s)
    (k : Byte → State → Res) : ∃ t, seqRead a k s = k (readInTurn s.fb n a) t ∧
      Streamed [] [.fbRead a (readInTurn s.fb n a)] s t ∧ ReadBelow n (a + 1) t := by
  rw [seqRead_alone k hs.agenda ha]
  unfold ReadBelow at hn ⊢
  cases hr : Memory.read s.fb a with
  | some v =>
    have hv : readInTurn s.fb n a = v := by simp [readInTurn, hr]
    refine ⟨_, by rw [memRead_written hr, hv], by rw [hv]; rfl, ?_⟩
    simp [unwritten_succ, hr, hn]
  | none =>
    have hv : readInTurn s.fb n a = Config.freeByte s.draws := by simp [readInTurn, hr, hn]
    refine ⟨_, by rw [memRead_unwritten hr, hv], by rw [hv]; rfl, ?_⟩
    simp [unwritten_succ, hr, hn, Nat.add_assoc]

/-! ## The stream of REFRESH (R163, R166) -/

/-- The bytes of one hardware page with their selectors (R166). -/
def pageStream (p : Config.Params) (v : Nat → Byte) (pg : Nat) : List (Byte × Bool) :=
  [(p.pageCmd[pg]?.getD 0, false), (p.colLoCmd, false), (p.colHiCmd, false)] ++
    (List.range width).map fun col => (v ((npages - 1 - pg) * width + col), true)

theorem Streamed.fb_eq {bytes : List Byte} {es : List Event} {s t : State} (h : Streamed bytes es s t) :
    t.fb = s.fb := by rw [h]

theorem ReadBelow.of_streamed {bytes : List Byte} {es : List Event} {s t : State} {n a : Nat} (hn : ReadBelow n a s)
    (h : Streamed bytes es s t) (hd : t.draws = s.draws) : ReadBelow n a t := by
  rw [ReadBelow, hd, h.fb_eq]
  exact hn

/-- A write of the sequencer's counters. -/
theorem setSeqr_streamed (q : SeqRegs) (s : State) : Streamed [] [] s { s with seqr := q } := rfl

/-- One column: the read, then its byte as data (R163). -/
theorem refreshColumn_streamed {s : State} (hs : Ready s) {n q col : Nat} (ha : q * width + col < fbSize)
    (hn : ReadBelow n (q * width + col) s) : ∃ t, refreshColumn q col s = .ok t ∧
      Streamed [readInTurn s.fb n (q * width + col)]
        (.fbRead (q * width + col) (readInTurn s.fb n (q * width + col)) ::
          byteEvents s.params s.pinreg s.dlyCfg.toNat (readInTurn s.fb n (q * width + col)) true) s t ∧
      ReadBelow n (q * width + col + 1) t := by
  have h0 : Streamed [] [] s (setCol col s) := setSeqr_streamed _ s
  obtain ⟨t, ht, h1, hn1⟩ := seqRead_inTurn (h0.ready hs) ha hn fun v => sendByte v true
  have h1 := h0.trans hs h1
  obtain ⟨u, hu, h2, hd⟩ := sendByte_streamed (h1.ready hs) (readInTurn s.fb n (q * width + col)) true
  refine ⟨u, ht.trans hu, ?_, hn1.of_streamed h2 hd⟩
  have hframe := h1.busFrame
  rw [hframe.params, hframe.pinreg, hframe.dlyCfg] at h2
  exact h1.trans hs h2

/-- The first `c` columns of a page. -/
theorem refreshColumns_streamed {s : State} (hs : Ready s) {n q : Nat} (c : Nat) (hc : q * width + c ≤ fbSize)
    (hn : ReadBelow n (q * width) s) :
    ∃ t, runAll ((List.range c).map fun col => refreshColumn q col) s = .ok t ∧
      Streamed ((List.range c).map fun col => readInTurn s.fb n (q * width + col))
        ((List.range c).flatMap fun col => .fbRead (q * width + col) (readInTurn s.fb n (q * width + col)) ::
          byteEvents s.params s.pinreg s.dlyCfg.toNat (readInTurn s.fb n (q * width + col)) true) s t ∧
      ReadBelow n (q * width + c) t := by
  induction c with
  | zero => exact ⟨s, rfl, .refl s, hn⟩
  | succ c ih =>
    obtain ⟨t, ht, h1, hn1⟩ := ih (by omega)
    obtain ⟨u, hu, h2, hn2⟩ := refreshColumn_streamed (h1.ready hs) (by omega) hn1
    have hframe := h1.busFrame
    rw [hframe.params, hframe.pinreg, hframe.dlyCfg, h1.fb_eq] at h2
    refine ⟨u, ?_, ?_, hn2⟩
    · rw [List.range_succ, List.map_append, runAll_append, ht, Res.andThen_ok, List.map_singleton, runAll_step hu,
        runAll_nil]
    · simpa [List.range_succ] using h1.trans hs h2

/-- One hardware page: its addressing triple, then its columns (R163). -/
theorem refreshPage_streamed {s : State} (hs : Ready s) {n pg : Nat} (hpg : pg < npages)
    (hn : ReadBelow n ((npages - 1 - pg) * width) s) : ∃ t, refreshPage pg s = .ok t ∧
      Streamed ((pageStream s.params (readInTurn s.fb n) pg).map Prod.fst)
        (pageEvents s.params s.pinreg s.dlyCfg.toNat (readInTurn s.fb n) pg) s t ∧
      ReadBelow n ((npages - 1 - pg) * width + width) t := by
  have h0 : Streamed [] [] s (setPg pg s) := setSeqr_streamed _ s
  obtain ⟨t, ht, h1, hd⟩ := sendSeq_streamed (h0.ready hs) (addressing s.params pg) false
  have h1' := h0.trans hs h1
  have hroom : (npages - 1 - pg) * width + width ≤ fbSize := by
    simp only [npages, height, width, fbSize] at hpg ⊢
    omega
  obtain ⟨u, hu, h2, hn2⟩ := refreshColumns_streamed (h1'.ready hs) width hroom
    (ReadBelow.of_streamed (s := setPg pg s) hn h1 hd)
  have hframe := h1'.busFrame
  rw [hframe.params, hframe.pinreg, hframe.dlyCfg, h1'.fb_eq] at h2
  refine ⟨u, by rw [refreshPage_eq hpg, ht, Res.andThen_ok, hu], ?_, hn2⟩
  have h := h1'.trans hs h2
  simpa [pageStream, pageEvents, addressing, Function.comp_def] using h

/-- The hardware pages k-1 down to 0, which show the framebuffer from page npages-k on (R54, R163). -/
theorem refreshPages_streamed {s : State} (hs : Ready s) {n : Nat} (k : Nat) (hk : k ≤ npages)
    (hn : ReadBelow n ((npages - k) * width) s) :
    ∃ t, runAll ((List.range k).reverse.map refreshPage) s = .ok t ∧
      Streamed (((List.range k).reverse.flatMap (pageStream s.params (readInTurn s.fb n))).map Prod.fst)
        ((List.range k).reverse.flatMap (pageEvents s.params s.pinreg s.dlyCfg.toNat (readInTurn s.fb n))) s t := by
  induction k generalizing s with
  | zero => exact ⟨s, rfl, .refl s⟩
  | succ k ih =>
    have hfrom : npages - 1 - k = npages - (k + 1) := by omega
    have hnext : (npages - 1 - k) * width + width = (npages - k) * width := by
      rw [← Nat.succ_mul]
      congr 1
      omega
    obtain ⟨t, ht, h1, hn1⟩ := refreshPage_streamed hs hk (by rw [hfrom]; exact hn)
    obtain ⟨u, hu, h2⟩ := ih (h1.ready hs) (by omega) (hnext ▸ hn1)
    have hframe := h1.busFrame
    rw [hframe.params, hframe.pinreg, hframe.dlyCfg, h1.fb_eq] at h2
    refine ⟨u, ?_, ?_⟩
    · rw [List.range_succ, List.reverse_append, List.reverse_singleton, List.map_append, List.map_singleton,
        List.singleton_append, runAll_step ht, hu]
    · simpa [List.range_succ] using h1.trans hs h2

theorem readInTurn_written {m : Memory} {a : Nat} {w : Byte} (n : Nat) (h : Memory.read m a = some w) :
    readInTurn m n a = w := by simp [readInTurn, h]

/-- `RefreshBody()` alone (R163, R166): its bytes are those of the stream, the data bytes what its reads returned. -/
theorem refreshBody_streamed {s : State} (hs : Ready s) : ∃ t, refreshBody s = .ok t ∧
    Streamed ((refreshStream s.params (readInTurn s.fb s.draws)).map Prod.fst)
      (refreshEvents s.params s.pinreg s.dlyCfg.toNat (readInTurn s.fb s.draws)) s t :=
  refreshPages_streamed hs npages (Nat.le_refl _) rfl

/-! ## What the receiver makes of it -/

theorem fbRead_carries (p : Config.Params) (a : Nat) (w : Byte) : Carries p [] [.fbRead a w] := fun v out => by
  rw [List.append_nil]
  rfl

theorem pageEvents_carries (p : Config.Params) (g : PinGroup) (d : Nat) (v : Nat → Byte) (pg : Nat) :
    Carries p (pageStream p v pg) (pageEvents p g d v pg) := by
  refine (bytesEvents_carries p g d [p.pageCmd[pg]?.getD 0, p.colLoCmd, p.colHiCmd] false).append ?_
  rw [List.map_eq_flatMap]
  exact .flatMap fun col => (fbRead_carries p _ _).append (byteEvents_carries p g d _ true)

theorem refreshEvents_carries (p : Config.Params) (g : PinGroup) (d : Nat) (v : Nat → Byte) :
    Carries p (refreshStream p v) (refreshEvents p g d v) := .flatMap fun pg => pageEvents_carries p g d v pg

/-! ## The pages in the order of the framebuffer (R54) -/

/-- Rows of equal length one after another count up. -/
theorem range_flatMap_rows {α : Type} (f : Nat → α) (n w : Nat) :
    ((List.range n).flatMap fun q => (List.range w).map fun c => f (q * w + c)) = (List.range (n * w)).map f := by
  induction n with
  | zero => simp
  | succ n ih => rw [List.range_succ, List.flatMap_append, ih, Nat.succ_mul, List.range_add]; simp

/-- The hardware pages from the last to the first are the framebuffer in ascending order. -/
theorem pages_flatMap_columns {α : Type} (f : Nat → α) :
    ((List.range npages).reverse.flatMap fun pg => (List.range width).map fun c => f ((npages - 1 - pg) * width + c)) =
      (List.range fbSize).map f := by
  have hpages : (List.range npages).reverse.map (fun pg => npages - 1 - pg) = List.range npages := by decide
  have h := range_flatMap_rows f npages width
  rw [← hpages, List.flatMap_map] at h
  exact h

section
variable {isRead : Event → Bool} (hread : ∀ a w, isRead (.fbRead a w) = true)
  (hpin : ∀ r id v, isRead (.pin r id v) = false) (hwait : ∀ t, isRead (.wait t) = false)
include hpin hwait

/-- A transaction reads nothing. -/
theorem filter_byteEvents (p : Config.Params) (g : PinGroup) (d : Nat) (b : Byte) (isData : Bool) :
    (byteEvents p g d b isData).filter isRead = [] := by
  rw [byteEvents_eq_flatMap, List.filter_flatMap, List.flatMap_eq_nil_iff]
  intro w _
  unfold writeEvents delayEvents
  split <;> simp [hpin, hwait]

include hread

/-- The reads of REFRESH are those of the framebuffer in ascending order (R163). -/
theorem filter_refreshEvents (p : Config.Params) (g : PinGroup) (d : Nat) (v : Nat → Byte) :
    (refreshEvents p g d v).filter isRead = (List.range fbSize).map fun a => .fbRead a (v a) := by
  have hbytes : ∀ bytes isData, (bytesEvents p g d bytes isData).filter isRead = [] := fun bytes isData => by
    simp [bytesEvents, List.filter_flatMap, filter_byteEvents hpin hwait]
  have hpage : ∀ pg, (pageEvents p g d v pg).filter isRead = (List.range width).map fun c =>
      .fbRead ((npages - 1 - pg) * width + c) (v ((npages - 1 - pg) * width + c)) := fun pg => by
    simp [pageEvents, hbytes, List.filter_flatMap, hread, filter_byteEvents hpin hwait, ← List.map_eq_flatMap]
  rw [refreshEvents, List.filter_flatMap]
  simp only [hpage]
  exact pages_flatMap_columns fun a => Event.fbRead a (v a)

end

/-- The data bytes of the stream are the framebuffer's in ascending order (R166). -/
theorem refreshStream_data (p : Config.Params) (v : Nat → Byte) :
    ((refreshStream p v).filter (·.2)).map (·.1) = (List.range fbSize).map v := by
  rw [← pages_flatMap_columns v, refreshStream, List.filter_flatMap, List.map_flatMap]
  simp [List.filter_map, Function.comp_def]

/-- Three bytes of each page are commands (R166). -/
theorem refreshStream_commands (p : Config.Params) (v : Nat → Byte) :
    ((refreshStream p v).filter (!·.2)).length = 3 * npages := by
  rw [refreshStream, List.filter_flatMap, List.length_flatMap]
  simp [List.filter_map, Function.comp_def, Nat.mul_comm]

/-- Settles O48: what REFRESH records carries its stream, and the response is nothing to the receiver. -/
theorem receiverRecoversTheFramebuffer : Obligations.ReceiverRecoversTheFramebuffer := by
  intro s hmay halone howns hidle
  have hready : Ready (begin s) := ⟨⟨halone.agenda, halone.oracle⟩, ⟨howns.prs, howns.named, howns.distinct⟩⟩
  obtain ⟨t, ht, hst⟩ := refreshBody_streamed hready
  obtain ⟨d, hd⟩ : ∃ d, line s .dout = .driven d := hidle.2.2.2.elim (⟨_, ·⟩) (⟨_, ·⟩)
  have hexec : exec .refresh s = .next (respond 0x06 .ok t) := by
    rw [exec_of_owner rfl hmay, controlBody, guarded, if_pos (by simp [guardOk, howns.prs]), ht, conclude,
      finish_alone _ _ (hst.ready hready).agenda]
    rfl
  have htrace : (respond 0x06 .ok t).trace = s.trace ++
      (refreshEvents s.params s.pinreg s.dlyCfg.toNat (readInTurn s.fb s.draws) ++ [.resp 0x06 0x00]) := by
    rw [respond_trace, hst.trace_eq, List.append_assoc]
    rfl
  have hrun := refreshEvents_carries s.params s.pinreg s.dlyCfg.toNat (readInTurn s.fb s.draws) d []
  refine ⟨_, d, readInTurn s.fb s.draws, hexec, hd, ?_, fun a w _ hw => readInTurn_written _ hw, ?_⟩ <;>
    rw [htrace, List.drop_left]
  · rw [List.filter_append, filter_refreshEvents (fun _ _ => rfl) (fun _ _ _ => rfl) fun _ => rfl]
    exact List.append_nil _
  · have hstream : (Rx.run s.params (Rx.idle s.params d) (refreshEvents s.params s.pinreg s.dlyCfg.toNat
        (readInTurn s.fb s.draws) ++ [.resp 0x06 0x00])).out = refreshStream s.params (readInTurn s.fb s.draws) := by
      rw [Rx.run_append]
      exact congrArg Rx.out hrun
    simp only [hstream]
    exact ⟨trivial, refreshStream_data _ _, refreshStream_commands _ _⟩

end Sys2Proof.Machine

/-! The rasteriser with no other agent acting (41_framebuffer_raster.md): what its steps leave alone, the pixels its
programs draw, the fills, and a string as its glyphs one after another. -/

namespace Sys2Proof.Machine

open Sys2Proof.Config (width height fbSize)

/-! ## What the rasteriser touches (R100) -/

/-- The steps of a raster operation, alone: nothing but FB, TRACE, the rasteriser's registers, RBUSY and the draws
changes, and the events are framebuffer accesses of RAS. -/
structure RasTouches (s t : State) : Prop where
  same : t = { s with fb := t.fb, traceRev := t.traceRev, ras := t.ras, rbusy := t.rbusy, draws := t.draws }
  events : ∃ es, t.traceRev = es ++ s.traceRev ∧
    ∀ e ∈ es, (∃ a v, e = .fbRead a v) ∨ ∃ a v, e = .fbWrite .ras a v

theorem RasTouches.of_noEvent {s t : State}
    (h : t = { s with ras := t.ras, rbusy := t.rbusy }) : RasTouches s t := by
  rw [h]
  exact ⟨rfl, [], rfl, by simp⟩

theorem RasTouches.trans {s t u : State} (h : RasTouches s t) (k : RasTouches t u) : RasTouches s u := by
  obtain ⟨es, he, hes⟩ := h.events
  obtain ⟨fs, hf, hfs⟩ := k.events
  refine ⟨k.same.trans (by rw [h.same]), fs ++ es, by rw [hf, he, List.append_assoc], fun e hm => ?_⟩
  exact (List.mem_append.1 hm).elim (hfs e) (hes e)

theorem RasTouches.inp {s t : State} (h : RasTouches s t) : t.inp = s.inp := by rw [h.same]

theorem RasTouches.dead {s t : State} (h : RasTouches s t) : t.dead = s.dead := by rw [h.same]

/-- Once the operation is over, this is the frame of R100. -/
theorem RasTouches.frame {s t : State} (h : RasTouches s t) (hbusy : t.rbusy = false) (hops : t.ras.ops = []) :
    RasterFrame s t := by
  obtain ⟨es, he, hes⟩ := h.events
  have htrace : t.trace = s.trace ++ es.reverse := by simp [State.trace, he]
  constructor
  case completed => exact ⟨hbusy, hops⟩
  case events => exact ⟨_, htrace, fun e hm => hes e (List.mem_reverse.1 hm)⟩
  all_goals rw [h.same]

theorem rasDo_touches (op : RasOp) (s : State) : RasTouches s (rasDo op s) := by
  cases op with
  | ctr c v => exact .of_noEvent rfl
  | fill a v => exact ⟨rfl, [_], rfl, by simp⟩
  | store a m set => exact ⟨rfl, [_], rfl, by simp⟩
  | fetch a =>
    cases hr : Memory.read s.fb a.val with
    | some v =>
      rw [rasDo, memRead_written hr]
      exact ⟨rfl, [_], rfl, by simp⟩
    | none =>
      rw [rasDo, memRead_unwritten hr]
      exact ⟨rfl, [_], rfl, by simp⟩

theorem rasRun_touches (ops : List RasOp) (s : State) : RasTouches s (rasRun ops s) := by
  induction ops generalizing s with
  | nil => exact .of_noEvent rfl
  | cons op ops ih => exact (rasDo_touches op s).trans (ih _)

theorem inFlight_touches (ops : List RasOp) (s : State) : RasTouches s (inFlight ops s) := .of_noEvent rfl

theorem rasTick_touches (s : State) : RasTouches s (rasTick s) := by
  unfold rasTick
  split
  · exact .of_noEvent rfl
  · exact (inFlight_touches _ s).trans (rasDo_touches _ _)

theorem rasDrain_touches (n : Nat) {s : State} (h : s.inp.agenda = []) : RasTouches s (rasDrain n s) := by
  induction n generalizing s with
  | zero => exact .of_noEvent rfl
  | succ n ih =>
    unfold rasDrain
    split
    · exact .of_noEvent rfl
    · rw [boundary_of_nil .ras h, ite_self]
      have hstep := rasTick_touches s
      exact hstep.trans (ih (by rw [hstep.inp, h]))

/-- The frame of R100 after a finished run of steps. -/
theorem rasRun_rasterFrame (ops : List RasOp) (s : State) : RasterFrame s (inFlight [] (rasRun ops s)) :=
  ((rasRun_touches ops s).trans (inFlight_touches [] _)).frame rfl rfl

/-- Settles O18: the operation in flight and the new one are steps of the rasteriser to the last. -/
theorem rasterOperationsTouchOnlyTheFramebuffer : Obligations.RasterOperationsTouchOnlyTheFramebuffer := by
  intro i s hport halive hagenda
  have hfirst : RasTouches s (rasFinish s) := rasDrain_touches _ hagenda
  have hthen := rasDrain_alone (rasterProgram i) (s := rasFinish s) (by rw [hfirst.inp, hagenda])
  refine ⟨inFlight [] (rasRun (rasterProgram i) (rasFinish s)), ?_, ?_⟩
  · rw [exec_eq_rasterFrame hport, rasterFrame, halive, if_neg Bool.false_ne_true]
    exact congrArg _ hthen
  · exact (hfirst.trans ((rasRun_touches _ _).trans (inFlight_touches [] _))).frame rfl rfl

/-! ## An operation of a rasteriser that runs alone -/

theorem exec_raster_alone {i : Instr} {s : State} (hport : i.port = .raster) (h : RasterAlone s) :
    exec i s = .next (inFlight [] (rasRun (rasterProgram i) s)) := by
  rw [exec_eq_rasterFrame hport, rasterFrame_alone _ h]

@[simp] theorem inFlight_fb (ops : List RasOp) (s : State) : (inFlight ops s).fb = s.fb := rfl

@[simp] theorem inFlight_trace (ops : List RasOp) (s : State) : (inFlight ops s).trace = s.trace := rfl

/-- After an operation the rasteriser runs alone again. -/
theorem RasterAlone.afterRun {s : State} (h : RasterAlone s) (ops : List RasOp) :
    RasterAlone (inFlight [] (rasRun ops s)) := by
  have ht := rasRun_touches ops s
  exact ⟨ht.dead.trans h.alive, (congrArg Inputs.agenda ht.inp).trans h.agenda, rfl⟩

/-- An operation without a step changes nothing but RBUSY (R19). -/
theorem exec_raster_noStep {i : Instr} {s : State} (hport : i.port = .raster) (h : RasterAlone s)
    (hops : rasterProgram i = []) : exec i s = .next { s with rbusy := false } := by
  have hidle : { s.ras with ops := [] } = s.ras := by rw [← h.idle]
  rw [exec_raster_alone hport h, hops, rasRun_nil, inFlight, hidle]
  rfl

/-! ## Addresses and bits of pixels (R41, R42) -/

/-- A pixel has an address exactly on the screen, and it is that of R41 and R42. -/
theorem pixelAddr_eq_some_iff {x y : Nat} {a : Fin fbSize} :
    pixelAddr x y = some a ↔ onScreen x y ∧ a.val = y / 8 * width + x := by
  unfold pixelAddr byteIndex
  split
  · rename_i h
    simp only [Option.some.injEq, Fin.ext_iff]
    exact ⟨fun e => ⟨h, e.symm⟩, fun e => e.2.symm⟩
  · rename_i h
    simp [h]

/-- A byte and a bit of it are one pixel. -/
theorem pixel_unique {x y px py : Nat} {a : Fin fbSize} (h : pixelAddr x y = some a) (k : pixelAddr px py = some a)
    (hbit : pixelBit py = pixelBit y) : px = x ∧ py = y := by
  obtain ⟨⟨hx, hy⟩, ha⟩ := pixelAddr_eq_some_iff.1 h
  obtain ⟨⟨hpx, hpy⟩, hk⟩ := pixelAddr_eq_some_iff.1 k
  simp only [pixelBit, width] at *
  omega

theorem pixelOf_of_addr {m : Memory} {x y : Nat} {a : Fin fbSize} (h : pixelAddr x y = some a) :
    pixelOf m x y = (Memory.read m a.val).map fun b => b.getLsbD (pixelBit y) := by rw [pixelOf, h]

/-- A written pixel has a byte. -/
theorem pixelOf_eq_some_iff {m : Memory} {x y : Nat} {b : Bool} :
    pixelOf m x y = some b ↔
      ∃ a v, pixelAddr x y = some a ∧ Memory.read m a.val = some v ∧ v.getLsbD (pixelBit y) = b := by
  unfold pixelOf
  cases pixelAddr x y <;> simp

theorem pixelBit_lt (y : Nat) : pixelBit y < 8 := by unfold pixelBit; omega

/-- The mask of a pixel is its bit and no other (R101). -/
theorem getLsbD_pixelMask (y : Nat) {k : Nat} (hk : k < 8) :
    (pixelMask y).getLsbD k = decide (k = pixelBit y) := by
  have hbits : ∀ j < 8, ∀ i < 8, BitVec.getLsbD (w := 8) (1 <<< j) i = decide (i = j) := by decide
  exact hbits _ (pixelBit_lt y) k hk

theorem getLsbD_applyMask (t : Byte) (y : Nat) (set : Bool) {k : Nat} (hk : k < 8) :
    (applyMask t (pixelMask y) set).getLsbD k = if k = pixelBit y then set else t.getLsbD k := by
  have hmask := getLsbD_pixelMask y hk
  cases set <;> by_cases h : k = pixelBit y <;> simp_all [applyMask]

/-! ## Drawing, pixel by pixel -/

/-- Whatever the framebuffer holds, the steps draw `f` on the area and nothing else (R101, R104). -/
def Draws (ops : List RasOp) (area : Nat → Nat → Prop) (f : Nat → Nat → Bool) : Prop :=
  ∀ s, Drawn s.fb (rasRun ops s).fb area f

theorem Drawn.refl (m : Memory) {area : Nat → Nat → Prop} (f : Nat → Nat → Bool)
    (h : ∀ x y, onScreen x y → ¬ area x y) : Drawn m m area f :=
  ⟨fun x y hs ha => absurd ha (h x y hs), fun _ _ _ _ hb => hb, fun _ _ => rfl⟩

theorem Drawn.trans {m n k : Memory} {A B : Nat → Nat → Prop} {f : Nat → Nat → Bool} (h : Drawn m n A f)
    (h' : Drawn n k B f) : Drawn m k (fun x y => A x y ∨ B x y) f := by
  constructor
  case inside =>
    intro x y hs hab
    by_cases hb : B x y
    · exact h'.inside x y hs hb
    · exact h'.outside x y _ hb (h.inside x y hs (hab.resolve_right hb))
  case outside =>
    intro x y b hno hm
    exact h'.outside x y b (fun hb => hno (.inr hb)) (h.outside x y b (fun ha => hno (.inl ha)) hm)
  case bytes =>
    intro a hno
    exact (h'.bytes a fun x y hb => hno x y (.inr hb)).trans (h.bytes a fun x y ha => hno x y (.inl ha))

theorem Draws.congr {ops : List RasOp} {A B : Nat → Nat → Prop} {f : Nat → Nat → Bool} (h : Draws ops A f)
    (hab : ∀ x y, A x y ↔ B x y) : Draws ops B f := by
  rwa [← funext fun x => funext fun y => propext (hab x y)]

/-- A loop counter is no part of the picture. -/
theorem Draws.ctr {ops : List RasOp} {A : Nat → Nat → Prop} {f : Nat → Nat → Bool} (h : Draws ops A f)
    (c : RasCounter) (v : Nat) : Draws (.ctr c v :: ops) A f := fun s => h (rasDo (.ctr c v) s)

/-- The parts of a loop draw the union of their areas. -/
theorem Draws.flatMap {α : Type} {l : List α} {g : α → List RasOp} {A : α → Nat → Nat → Prop}
    {f : Nat → Nat → Bool} (h : ∀ i ∈ l, Draws (g i) (A i) f) :
    Draws (l.flatMap g) (fun x y => ∃ i ∈ l, A i x y) f := by
  induction l with
  | nil => exact fun s => .refl _ f (by simp)
  | cons i l ih =>
    have hrest := ih fun j hj => h j (List.mem_cons_of_mem _ hj)
    have hboth : Draws ((i :: l).flatMap g) (fun x y => A i x y ∨ ∃ j ∈ l, A j x y) f := fun s => by
      rw [List.flatMap_cons, rasRun_append]
      exact (h i List.mem_cons_self s).trans (hrest _)
    exact hboth.congr (by simp)

/-! ## One point (R101) -/

theorem pointOps_offScreen {x y : Nat} (h : ¬ onScreen x y) (v : Bool) : pointOps x y v = [] := by
  rw [pointOps, pixelAddr, dif_neg h]

/-- The byte that the read and the write back leave. -/
theorem rasRun_point_fb (a : Fin fbSize) (m : Byte) (v : Bool) (s : State) :
    (rasRun [.fetch a, .store a m v] s).fb = Memory.write s.fb a.val (applyMask (memRead a.val s).1 m v) := by
  simp [rasDo]

/-- The two accesses in TRACE. -/
theorem rasRun_point_trace (a : Fin fbSize) (m : Byte) (v : Bool) (s : State) :
    (rasRun [.fetch a, .store a m v] s).trace = s.trace ++
      [.fbRead a.val (memRead a.val s).1, .fbWrite .ras a.val (applyMask (memRead a.val s).1 m v)] := by
  simp [rasDo, State.trace, memRead_traceRev]

/-- A write with a pixel's mask of the byte the address holds, or of any byte where it holds none, sets that pixel
and no other. -/
theorem drawn_write {m : Memory} {x y : Nat} {a : Fin fbSize} (ha : pixelAddr x y = some a) {t : Byte}
    (ht : ∀ w, Memory.read m a.val = some w → t = w) (f : Nat → Nat → Bool) :
    Drawn m (Memory.write m a.val (applyMask t (pixelMask y) (f x y))) (fun px py => px = x ∧ py = y) f := by
  constructor
  case inside =>
    rintro px py - ⟨rfl, rfl⟩
    rw [pixelOf_of_addr ha, Memory.read_write_same, Option.map_some, getLsbD_applyMask _ _ _ (pixelBit_lt _),
      if_pos rfl]
  case outside =>
    intro px py b hno hb
    obtain ⟨c, v, hc, hv, hbit⟩ := pixelOf_eq_some_iff.1 hb
    rw [pixelOf_of_addr hc]
    by_cases hca : c = a
    · subst hca
      have hne : pixelBit py ≠ pixelBit y := fun h => hno (pixel_unique ha hc h)
      rw [Memory.read_write_same, Option.map_some, getLsbD_applyMask _ _ _ (pixelBit_lt _),
        if_neg hne, ht v hv, hbit]
    · rw [Memory.read_write_other _ _ fun h => hca (Fin.ext h), hv, Option.map_some, hbit]
  case bytes =>
    intro b hno
    refine Memory.read_write_other _ _ fun hba => hno x y ⟨rfl, rfl⟩ ?_
    rw [ha, hba, Option.map_some]

/-- A point draws its pixel, if there is one. -/
theorem pointOps_draws {x y : Nat} {v : Bool} {f : Nat → Nat → Bool} (hv : f x y = v) :
    Draws (pointOps x y v) (fun px py => px = x ∧ py = y) f := by
  intro s
  subst hv
  by_cases hon : onScreen x y
  · obtain ⟨a, ha, hops⟩ := pointOps_onScreen hon (f x y)
    rw [hops, rasRun_point_fb]
    exact drawn_write (pixelAddr_eq_some_iff.2 ⟨hon, ha⟩) (fun w hw => memRead_value hw) f
  · rw [pointOps_offScreen hon]
    refine .refl _ f ?_
    rintro px py hs ⟨rfl, rfl⟩
    exact hon hs

/-- The word of DRAW_POINT (R61, R63). -/
theorem decode_drawPoint (x y : Byte) (set : Bool) :
    decode (.command (0x12#8 ++ x ++ y ++ 0#39 ++ BitVec.ofBool set) []) = .ok (.drawPoint x y set) := by
  have hword : encode (.drawPoint x y set) = .command (0x12#8 ++ x ++ y ++ 0#39 ++ BitVec.ofBool set) [] := by
    have hfields := (append_eq_iff (w := 0x12#8 ++ x ++ y ++ 0#39 ++ BitVec.ofBool set)).1 rfl
    simp only [extractLsb'_eq_append_iff, extractLsb'_eq_ofBool_iff] at hfields
    obtain ⟨⟨⟨⟨hop, hx⟩, hy⟩, hz⟩, hset⟩ := hfields
    obtain ⟨hc, hd, hidx, hlow, hwide⟩ := pointUnused_eq_zero_iff.1 hz
    exact congrArg (Words.command · []) (wordC4_eq_iff.2 ⟨congrArg _ hop, hx, hy, hc, hd, hidx, hlow, hwide, hset⟩)
  rw [← hword]
  exact decodeOfEncodeIsTheInstruction _ rfl

/-- Settles O19: on-screen the two accesses of the pixel's byte, off-screen no step at all. -/
theorem drawPointReadsAndWritesOneByte : Obligations.DrawPointReadsAndWritesOneByte := by
  refine ⟨decode_drawPoint, fun s x y set h => ⟨fun hon => ?_, fun hoff => ?_⟩⟩
  · obtain ⟨a, ha, hops⟩ := pointOps_onScreen hon set
    have hexec := exec_raster_alone (i := .drawPoint x y set) rfl h
    rw [rasterProgram, drawPointProgram, hops] at hexec
    have hfb := rasRun_point_fb a (pixelMask y.toNat) set s
    rw [← ha]
    refine ⟨_, _, hexec, rasRun_rasterFrame _ s, fun w hw => memRead_value hw, ?_, fun b hb => ?_, ?_⟩
    · exact (congrArg (Memory.read · _) hfb).trans (Memory.read_write_same _ _ _)
    · exact (congrArg (Memory.read · _) hfb).trans (Memory.read_write_other _ _ hb)
    · exact rasRun_point_trace _ _ _ _
  · exact exec_raster_noStep rfl h (pointOps_offScreen (by unfold onScreen; omega) set)

/-- Settles O20: the two accesses draw one pixel, and off-screen there are none. -/
theorem drawPointReadsBack : Obligations.DrawPointReadsBack := by
  intro s x y set h
  refine ⟨_, exec_raster_alone rfl h, pointOps_draws (f := fun _ _ => set) rfl s, fun hoff => ?_⟩
  show (rasRun (pointOps x.toNat y.toNat set) s).fb = s.fb
  rw [pointOps_offScreen hoff, rasRun_nil]

/-! ## The fills (R102, R103) -/

theorem rasRun_fill_trace (l : List (Fin fbSize)) (v : Byte) (s : State) :
    (rasRun (l.map (.fill · v)) s).trace = s.trace ++ l.map fun a => .fbWrite .ras a.val v := by
  induction l generalizing s with
  | nil => simp
  | cons a l ih =>
    rw [List.map_cons, rasRun_cons, ih]
    simp [rasDo, State.trace]

theorem rasRun_fill_read (l : List (Fin fbSize)) (v : Byte) (s : State) (b : Nat) :
    Memory.read (rasRun (l.map (.fill · v)) s).fb b =
      if b ∈ l.map Fin.val then some v else Memory.read s.fb b := by
  induction l generalizing s with
  | nil => simp
  | cons a l ih =>
    rw [List.map_cons, rasRun_cons, ih, rasDo, memWrite_fb, Memory.read_write, List.map_cons]
    by_cases hl : b ∈ l.map Fin.val <;> simp [hl]

/-- Every byte is written, and none beyond the framebuffer. -/
theorem rasRun_fillAll_read (v : Byte) (s : State) (b : Nat) :
    Memory.read (rasRun (fillAllOps v) s).fb b = if b < fbSize then some v else Memory.read s.fb b := by
  rw [fillAllOps, rasRun_fill_read, List.map_coe_finRange_eq_range]
  simp only [List.mem_range]

theorem rasRun_fillAll_trace (v : Byte) (s : State) :
    (rasRun (fillAllOps v) s).trace = s.trace ++ fillEvents .ras v := by
  rw [fillAllOps, rasRun_fill_trace, fillEvents, ← List.map_coe_finRange_eq_range, List.map_map]
  rfl

/-- Settles O21: either operation is the fill of every byte in ascending order. -/
theorem fillsWriteEveryByteAscending : Obligations.FillsWriteEveryByteAscending := by
  refine ⟨by decide, by decide, fun s i v h hi => ?_⟩
  have hport : i.port = .raster := by rcases hi with ⟨rfl, -⟩ | ⟨rfl, -⟩ <;> rfl
  have hprogram : rasterProgram i = fillAllOps v := by rcases hi with ⟨rfl, rfl⟩ | ⟨rfl, rfl⟩ <;> rfl
  have hread := rasRun_fillAll_read v s
  have hexec := exec_raster_alone hport h
  rw [hprogram] at hexec
  refine ⟨_, hexec, rasRun_rasterFrame _ s, fun a ha => ?_, fun a ha => ?_, ?_⟩
  · rw [inFlight_fb, hread, if_pos ha]
  · rw [inFlight_fb, hread, if_neg (Nat.not_lt.2 ha)]
  · rw [inFlight_trace, rasRun_fillAll_trace]

/-! ## Pictures and regions (R104, R105, R107, R108) -/

/-- A picture draws its bits on its columns and rows (R104). -/
theorem blitOps_draws (x0 y0 rows cols : Nat) (src : Nat → Byte) (set : Bool) :
    Draws (blitOps x0 y0 rows cols src set) (inPicture x0 y0 rows cols)
      fun px py => pictureBit rows src (px - x0) (py - y0) == set := by
  have hcell : ∀ c r, Draws (pointOps (x0 + c) (y0 + r)
      ((src (c * bytesPerColumn rows + r / 8)).getLsbD (7 - r % 8) == set))
      (fun px py => px = x0 + c ∧ py = y0 + r) fun px py => pictureBit rows src (px - x0) (py - y0) == set :=
    fun c r => pointOps_draws (by simp only [Nat.add_sub_cancel_left]; rfl)
  have hcells : Draws (blitOps x0 y0 rows cols src set)
      (fun px py => ∃ c ∈ List.range cols, ∃ r ∈ List.range rows, px = x0 + c ∧ py = y0 + r) _ :=
    .flatMap fun c _ => .ctr (.flatMap fun r _ => .ctr (hcell c r) .rr r) .rc c
  refine hcells.congr fun px py => ?_
  simp only [List.mem_range, inPicture]
  constructor
  · rintro ⟨c, hc, r, hr, rfl, rfl⟩
    omega
  · rintro ⟨hx, hx', hy, hy'⟩
    exact ⟨px - x0, by omega, py - y0, by omega, by omega, by omega⟩

theorem mem_upTo {a lo hi : Nat} : a ∈ upTo lo hi ↔ lo ≤ a ∧ a ≤ hi := by
  simp only [upTo, List.mem_map, List.mem_range]
  constructor
  · rintro ⟨k, hk, rfl⟩
    omega
  · intro h
    exact ⟨a - lo, by omega, by omega⟩

/-- A region is drawn from corner to corner (R108). -/
theorem regionOps_draws (x1 y1 x2 y2 : Nat) (set : Bool) :
    Draws (regionOps x1 y1 x2 y2 set) (fun px py => x1 ≤ px ∧ px ≤ x2 ∧ y1 ≤ py ∧ py ≤ y2) fun _ _ => set := by
  have hpoints : Draws (regionOps x1 y1 x2 y2 set)
      (fun px py => ∃ x ∈ upTo x1 x2, ∃ y ∈ upTo y1 y2, px = x ∧ py = y) fun _ _ => set :=
    .flatMap fun x _ => .ctr (.flatMap fun y _ => .ctr (pointOps_draws (f := fun _ _ => set) rfl) .ry y) .rx x
  refine hpoints.congr fun px py => ?_
  simp only [mem_upTo]
  constructor
  · rintro ⟨x, hx, y, hy, rfl, rfl⟩
    exact ⟨hx.1, hx.2, hy⟩
  · rintro ⟨hx, hx', hy⟩
    exact ⟨px, ⟨hx, hx'⟩, py, hy, rfl, rfl⟩

theorem isFontSize_iff {fs : Nat} : isFontSize fs = true ↔ fs ∈ [12, 16, 24] := List.contains_iff_mem

theorem charOps_of_fontSize {fs : Nat} (h : fs ∈ [12, 16, 24]) (x y g : Nat) (wide set : Bool) :
    charOps x y g fs wide set = blitOps x y fs (glyphColumns fs wide) (Config.font fs wide g) set :=
  if_pos (isFontSize_iff.2 h)

/-- Settles O22: a glyph of a known size is a picture, one of another size has no step. -/
theorem drawCharWritesTheWholeCell : Obligations.DrawCharWritesTheWholeCell := by
  intro s x y fs g wide set h
  refine ⟨fun hfs => ⟨_, exec_raster_alone rfl h, ?_⟩, fun hfs => exec_raster_noStep rfl h ?_⟩
  · rw [rasterProgram, drawCharProgram, charOps_of_fontSize hfs]
    exact blitOps_draws _ _ _ _ _ _ s
  · exact if_neg (mt isFontSize_iff.1 hfs)

/-- Settles O23: a frame is a picture drawn with `set`. -/
theorem drawBitmapWritesTheFrame : Obligations.DrawBitmapWritesTheFrame := by
  intro s x y w h f halone
  have hdraws := blitOps_draws x.toNat y.toNat h.toNat w.toNat (Config.bitmap f.toNat) true
  simp only [beq_true] at hdraws
  exact ⟨_, exec_raster_alone rfl halone, hdraws s⟩

/-- Settles O24: reversed corners leave no column or no row to draw. -/
theorem fillRegionFillsInclusively : Obligations.FillRegionFillsInclusively := by
  intro s x1 y1 x2 y2 set h
  exact ⟨_, exec_raster_alone rfl h, regionOps_draws _ _ _ _ set s⟩

/-! ## What a program draws with, and its pen (R106) -/

/-- All that the accesses of a program read or change: FB, TRACE, the draws and t. -/
def canvas (s : State) : Memory × List Event × Nat × Byte := (s.fb, s.traceRev, s.draws, s.ras.tmp)

/-- The pen of DRAW_STRING: RX and RY. -/
def pen (s : State) : Nat × Nat := (s.ras.rx, s.ras.ry)

theorem canvas_eq_iff {s t : State} : canvas s = canvas t ↔
    s.fb = t.fb ∧ s.traceRev = t.traceRev ∧ s.draws = t.draws ∧ s.ras.tmp = t.ras.tmp := by
  simp only [canvas, Prod.mk.injEq]

@[simp] theorem canvas_inFlight (ops : List RasOp) (s : State) : canvas (inFlight ops s) = canvas s := rfl

@[simp] theorem canvas_ctr (c : RasCounter) (v : Nat) (s : State) : canvas (rasDo (.ctr c v) s) = canvas s := by
  cases c <;> rfl

@[simp] theorem pen_rx (v : Nat) (s : State) : pen (rasDo (.ctr .rx v) s) = (v, (pen s).2) := rfl

@[simp] theorem pen_ry (v : Nat) (s : State) : pen (rasDo (.ctr .ry v) s) = ((pen s).1, v) := rfl

/-- A step's effect on the canvas is a matter of the canvas. -/
theorem canvas_rasDo_congr (op : RasOp) {s t : State} (h : canvas s = canvas t) :
    canvas (rasDo op s) = canvas (rasDo op t) := by
  obtain ⟨hfb, htrace, hdraws, htmp⟩ := canvas_eq_iff.1 h
  cases op with
  | ctr c v => rwa [canvas_ctr, canvas_ctr]
  | fill a v => simp [canvas, rasDo, hfb, htrace, hdraws, htmp]
  | store a m set => simp [canvas, rasDo, hfb, htrace, hdraws, htmp]
  | fetch a =>
    cases hs : Memory.read s.fb a.val with
    | some v =>
      have ht : Memory.read t.fb a.val = some v := hfb ▸ hs
      simp [canvas, rasDo, memRead_written hs, memRead_written ht, hfb, htrace, hdraws]
    | none =>
      have ht : Memory.read t.fb a.val = none := hfb ▸ hs
      simp [canvas, rasDo, memRead_unwritten hs, memRead_unwritten ht, hfb, htrace, hdraws]

theorem canvas_rasRun_congr (ops : List RasOp) {s t : State} (h : canvas s = canvas t) :
    canvas (rasRun ops s) = canvas (rasRun ops t) := by
  induction ops generalizing s t with
  | nil => exact h
  | cons op ops ih => exact ih (canvas_rasDo_congr op h)

/-- Whether a step leaves RX and RY alone. -/
def RasOp.keepsPen : RasOp → Bool
  | .ctr .rx _ | .ctr .ry _ => false
  | .ctr .rc _ | .ctr .rr _ | .ctr .rk _ | .fill _ _ | .fetch _ | .store _ _ _ => true

theorem pen_rasDo {op : RasOp} (h : op.keepsPen = true) (s : State) : pen (rasDo op s) = pen s := by
  cases op with
  | ctr c v =>
    cases c with
    | rx | ry => cases h
    | rc | rr | rk => rfl
  | fill a v => rfl
  | fetch a => simp [pen, rasDo]
  | store a m set => rfl

theorem pen_rasRun {ops : List RasOp} (h : ∀ op ∈ ops, op.keepsPen = true) (s : State) :
    pen (rasRun ops s) = pen s := by
  induction ops generalizing s with
  | nil => rfl
  | cons op ops ih =>
    rw [rasRun_cons, ih fun o ho => h o (List.mem_cons_of_mem _ ho), pen_rasDo (h op List.mem_cons_self)]

theorem pointOps_keepsPen (x y : Nat) (v : Bool) : ∀ op ∈ pointOps x y v, op.keepsPen = true := by
  unfold pointOps
  cases pixelAddr x y <;> simp [RasOp.keepsPen]

theorem charOps_keepsPen (x y g fs : Nat) (wide set : Bool) :
    ∀ op ∈ charOps x y g fs wide set, op.keepsPen = true := by
  intro op hop
  unfold charOps at hop
  split at hop
  · simp only [blitOps, List.mem_flatMap, List.mem_cons] at hop
    obtain ⟨c, -, rfl | ⟨r, -, rfl | hpoint⟩⟩ := hop
    · rfl
    · rfl
    · exact pointOps_keepsPen _ _ _ op hpoint
  · cases hop

theorem fbClearProgram_keepsPen : ∀ op ∈ fbClearProgram, op.keepsPen = true := by
  simp [fbClearProgram, fillAllOps, RasOp.keepsPen]

theorem pen_rasDo_congr (op : RasOp) {s t : State} (h : pen s = pen t) : pen (rasDo op s) = pen (rasDo op t) := by
  cases op with
  | ctr c v =>
    cases c with
    | rx => rw [pen_rx, pen_rx, h]
    | ry => rw [pen_ry, pen_ry, h]
    | rc | rr | rk => exact h
  | fill | fetch | store => rwa [pen_rasDo rfl, pen_rasDo rfl]

/-- Two states that go on drawing alike: they may differ in RC, RR, RK and outside the rasteriser. -/
structure DrawAlike (s t : State) : Prop where
  canvas : canvas s = canvas t
  pen : pen s = pen t

theorem DrawAlike.step {s t : State} (h : DrawAlike s t) (op : RasOp) : DrawAlike (rasDo op s) (rasDo op t) :=
  ⟨canvas_rasDo_congr op h.canvas, pen_rasDo_congr op h.pen⟩

theorem DrawAlike.run {s t : State} (h : DrawAlike s t) (ops : List RasOp) :
    DrawAlike (rasRun ops s) (rasRun ops t) := by
  induction ops generalizing s t with
  | nil => exact h
  | cons op ops ih => exact ih (h.step op)

/-- The number of the glyph is nothing that is drawn with. -/
theorem DrawAlike.ctr_rk {s t : State} (h : DrawAlike s t) (k k' : Nat) :
    DrawAlike (rasDo (.ctr .rk k) s) (rasDo (.ctr .rk k') t) := ⟨h.canvas, h.pen⟩

/-! ## A string, glyph after glyph (R106) -/

/-- The pen after the line test. -/
def linePen (fs x y : Nat) : Nat × Nat :=
  (if x > width - fs / 2 then 0 else x, if x > width - fs / 2 then y + fs else y)

/-- The pen after the page test. -/
def pagePen (fs x y : Nat) : Nat × Nat :=
  (if y > height - fs then 0 else x, if y > height - fs then 0 else y)

/-- The steps of the line test. -/
def lineOps (fs x y : Nat) : List RasOp :=
  if x > width - fs / 2 then [.ctr .rx 0, .ctr .ry (y + fs)] else []

/-- The steps of the page test. -/
def pageOps (fs y : Nat) : List RasOp :=
  if y > height - fs then .ctr .rx 0 :: .ctr .ry 0 :: fbClearProgram else []

/-- Where the next glyph of a string at the pen (x, y) goes. -/
def glyphPen (fs x y : Nat) : Nat × Nat := pagePen fs (linePen fs x y).1 (linePen fs x y).2

theorem stringLoopOps_cons (fs x y k : Nat) (g : Byte) (gs : List Byte) :
    stringLoopOps fs x y k (g :: gs) =
      .ctr .rk k :: (lineOps fs x y ++ pageOps fs (linePen fs x y).2 ++
        charOps (glyphPen fs x y).1 (glyphPen fs x y).2 g.toNat fs false true ++
        .ctr .rx ((glyphPen fs x y).1 + fs / 2) ::
          stringLoopOps fs ((glyphPen fs x y).1 + fs / 2) (glyphPen fs x y).2 (k + 1) gs) := by
  simp only [stringLoopOps, decide_eq_true_eq]
  rfl

/-- After the tests the glyph's cell is on the screen and the next pen at most at its right edge, so the byte operands
of a DRAW_CHAR and a DRAW_STRING hold them. -/
theorem glyphPen_lt {fs : Nat} (hfs : fs ∈ [12, 16, 24]) (x y : Nat) :
    (glyphPen fs x y).1 + fs / 2 < 2 ^ 8 ∧ (glyphPen fs x y).2 < 2 ^ 8 := by
  have hhalf : fs / 2 ≤ 12 := by
    simp only [List.mem_cons, List.not_mem_nil, or_false] at hfs
    omega
  simp only [glyphPen, pagePen, linePen, width, height]
  constructor <;> split_ifs <;> omega

theorem lineOps_run {fs x y : Nat} {s : State} (h : pen s = (x, y)) :
    canvas (rasRun (lineOps fs x y) s) = canvas s ∧ pen (rasRun (lineOps fs x y) s) = linePen fs x y := by
  unfold lineOps linePen
  split
  · simp
  · exact ⟨rfl, h⟩

/-- The state with the whole buffer cleared if the page test says so. -/
def clearedPage (fs y : Nat) (s : State) : State :=
  if y > height - fs then inFlight [] (rasRun fbClearProgram s) else s

theorem pageOps_run {fs : Nat} {p : Nat × Nat} {s : State} (h : pen s = p) :
    canvas (rasRun (pageOps fs p.2) s) = canvas (clearedPage fs p.2 s) ∧
      pen (rasRun (pageOps fs p.2) s) = pagePen fs p.1 p.2 := by
  unfold pageOps pagePen clearedPage
  split
  · rw [canvas_inFlight, rasRun_cons, rasRun_cons, pen_rasRun fbClearProgram_keepsPen]
    exact ⟨canvas_rasRun_congr _ rfl, rfl⟩
  · exact ⟨rfl, h⟩

theorem clearedPage_canvas_congr (fs y : Nat) {s t : State} (h : canvas s = canvas t) :
    canvas (clearedPage fs y s) = canvas (clearedPage fs y t) := by
  unfold clearedPage
  split
  · rw [canvas_inFlight, canvas_inFlight, canvas_rasRun_congr fbClearProgram h]
  · exact h

/-- The rest of a string does not depend on how many glyphs came before it. -/
theorem DrawAlike.stringLoop (fs x y k k' : Nat) (gs : List Byte) {s t : State} (h : DrawAlike s t) :
    DrawAlike (rasRun (stringLoopOps fs x y k gs) s) (rasRun (stringLoopOps fs x y k' gs) t) := by
  induction gs generalizing x y k k' s t with
  | nil => exact h
  | cons g gs ih =>
    simp only [stringLoopOps_cons, rasRun_cons, rasRun_append]
    exact ih _ _ _ _ ((h.ctr_rk k k').run _ |>.run _ |>.run _ |>.step _)

theorem stringOps_of_fontSize {fs : Nat} (h : fs ∈ [12, 16, 24]) (x y : Nat) (gs : List Byte) :
    stringOps x y fs gs = .ctr .rx x :: .ctr .ry y :: stringLoopOps fs x y 0 gs := if_pos (isFontSize_iff.2 h)

/-- A string draws like the rest of it from the advanced pen, after its first glyph on the page the tests leave. -/
theorem stringOps_cons_alike {fs x y : Nat} (hfs : fs ∈ [12, 16, 24]) (g : Byte) (gs : List Byte) {s b : State}
    (hb : canvas b = canvas (rasRun (charOps (glyphPen fs x y).1 (glyphPen fs x y).2 g.toNat fs false true)
      (clearedPage fs (linePen fs x y).2 s))) :
    DrawAlike (rasRun (stringOps ((glyphPen fs x y).1 + fs / 2) (glyphPen fs x y).2 fs gs) b)
      (rasRun (stringOps x y fs (g :: gs)) s) := by
  simp only [stringOps_of_fontSize hfs, stringLoopOps_cons, rasRun_cons, rasRun_append]
  obtain ⟨hlc, hlp⟩ := lineOps_run (fs := fs) (x := x) (y := y)
    (s := rasDo (.ctr .rk 0) (rasDo (.ctr .ry y) (rasDo (.ctr .rx x) s))) rfl
  obtain ⟨hpc, hpp⟩ := pageOps_run (fs := fs) hlp
  refine .stringLoop _ _ _ _ _ _ ⟨?_, ?_⟩
  · simp only [canvas_ctr] at hlc ⊢
    rw [hb]
    exact canvas_rasRun_congr _ ((hpc.trans (clearedPage_canvas_congr _ _ hlc)).symm)
  · rw [pen_rx, pen_ry, pen_rx, pen_rasRun (charOps_keepsPen _ _ _ _ _ _), hpp]
    rfl

theorem clearedPage_alone {s : State} (h : RasterAlone s) (fs y : Nat) : RasterAlone (clearedPage fs y s) := by
  unfold clearedPage
  split
  · exact h.afterRun _
  · exact h

/-- The page test's clear is FB_CLEAR. -/
theorem exec_fbClear_clearedPage {s : State} (h : RasterAlone s) (fs y : Nat) :
    if y > height - fs then exec .fbClear s = .next (clearedPage fs y s) else clearedPage fs y s = s := by
  unfold clearedPage
  split
  · exact exec_raster_alone rfl h
  · rfl

/-- Settles O25: the string, and its first glyph with the rest of it, draw alike. -/
theorem drawStringIsGlyphAfterGlyph : Obligations.DrawStringIsGlyphAfterGlyph := by
  intro s x y fs n n' g gs h hfs lineWrap x1 y1 pageWrap x2 y2
  obtain ⟨hnext, hy2⟩ : x2 + fs.toNat / 2 < 2 ^ 8 ∧ y2 < 2 ^ 8 := glyphPen_lt hfs x.toNat y.toNat
  have hbx : (BitVec.ofNat 8 x2).toNat = x2 := Nat.mod_eq_of_lt (by omega)
  have hby : (BitVec.ofNat 8 y2).toNat = y2 := Nat.mod_eq_of_lt hy2
  have hbnext : (BitVec.ofNat 8 (x2 + fs.toNat / 2)).toNat = x2 + fs.toNat / 2 := Nat.mod_eq_of_lt hnext
  have hbg : (g.setWidth 16).toNat = g.toNat := BitVec.toNat_setWidth_of_le (by decide)
  have ha := clearedPage_alone h fs.toNat y1
  have hchar := exec_raster_alone (i := .drawChar (BitVec.ofNat 8 x2) (BitVec.ofNat 8 y2) fs (g.setWidth 16) false true)
    rfl ha
  have hrest := exec_raster_alone (i := .drawString (BitVec.ofNat 8 (x2 + fs.toNat / 2)) (BitVec.ofNat 8 y2) fs n' gs)
    rfl (ha.afterRun (charOps x2 y2 g.toNat fs.toNat false true))
  rw [rasterProgram, drawCharProgram, hbx, hby, hbg] at hchar
  rw [rasterProgram, drawStringProgram, hbnext, hby] at hrest
  obtain ⟨hcanvas, hpens⟩ := stringOps_cons_alike (x := x.toNat) (y := y.toNat) (s := s) hfs g gs
    (canvas_inFlight [] (rasRun (charOps x2 y2 g.toNat fs.toNat false true) (clearedPage fs.toNat y1 s)))
  refine ⟨_, _, _, _, exec_fbClear_clearedPage h _ _, hchar, hrest, exec_raster_alone rfl h, ?_⟩
  obtain ⟨hfb, htrace, hdraws, -⟩ := canvas_eq_iff.1 hcanvas
  obtain ⟨hrx, hry⟩ := Prod.mk.inj hpens
  exact ⟨hfb.symm, congrArg List.reverse htrace.symm, hdraws.symm, hrx.symm, hry.symm⟩

/-- Settles O26: at most the counters of the pen are written. -/
theorem drawStringOfNothingDrawsNothing : Obligations.DrawStringOfNothingDrawsNothing := by
  intro s x y fs n gs h hno
  have hcanvas : canvas (rasRun (stringOps x.toNat y.toNat fs.toNat gs) s) = canvas s := by
    by_cases hfs : fs.toNat ∈ [12, 16, 24]
    · rw [stringOps_of_fontSize hfs, hno.resolve_right (not_not_intro hfs)]
      rfl
    · rw [stringOps, if_neg (mt isFontSize_iff.1 hfs), rasRun_nil]
  obtain ⟨hfb, htrace, -⟩ := canvas_eq_iff.1 hcanvas
  exact ⟨_, exec_raster_alone rfl h, hfb, congrArg List.reverse htrace, rasRun_rasterFrame _ s⟩

end Sys2Proof.Machine

/-! CONFIGURE with no other agent acting (42_lifecycle_pins.md): its rejections, and the requests of AcquirePins with
the rollback that undoes them. -/

namespace Sys2Proof.Machine

/-! ## Rejections before anything is touched (R138, R140) -/

/-- Settles O33: the guard of each command is tested first. -/
theorem guardRejectsBeforeTouchingHardware : Obligations.GuardRejectsBeforeTouchingHardware := by
  intro s i hmay hi hprs
  rw [exec_of_owner (isGuarded_control hi) hmay, controlBody_notReady hi (by exact hprs), conclude,
    finish_eq_answered]
  rfl

/-- Validation accepts four different identifiers that the platform has (R140). -/
theorem validatePins_iff {clk dout rst dc : PinId} {s : State} : validatePins clk dout rst dc s = true ↔
    [clk, dout, rst, dc].Nodup ∧ ∀ id ∈ [clk, dout, rst, dc], id ≠ pinNone ∧ id ∈ s.params.validPads := by
  simp only [validatePins, validId, Bool.and_eq_true, bne_iff_ne, ne_eq, List.contains_iff_mem, List.nodup_cons,
    List.mem_cons, List.not_mem_nil, or_false, forall_eq_or_imp, forall_eq, List.nodup_nil, not_or]
  tauto

theorem configureBody_invalid {clk dout rst dc : PinId} {s : State} (hcfg : s.cfg = false)
    (h : validatePins clk dout rst dc s = false) : configureBody clk dout rst dc s = .raise .config s := by
  simp [configureBody, hcfg, h]

/-- Settles O41: validation fails before PINREG is written. -/
theorem configureRejectsInvalidPins : Obligations.ConfigureRejectsInvalidPins := by
  intro s clk dout rst dc hmay hcfg hbad
  have hinvalid : validatePins clk dout rst dc (begin s) = false := by
    rw [← Bool.not_eq_true, validatePins_iff]
    rintro ⟨hnodup, hvalid⟩
    rcases hbad with ⟨id, hid, hnot⟩ | hdup
    · obtain ⟨hnamed, hmem⟩ := hvalid id hid
      exact hnot.elim hnamed fun h => h hmem
    · exact hdup hnodup
  rw [exec_of_owner rfl hmay, controlBody, configureBody_invalid (by exact hcfg) hinvalid, conclude,
    finish_eq_answered]
  rfl

/-! ## One request and one release (R131, R132, R134) -/

/-- The state after the granted request of a role whose pad rests undriven (R131, R133). -/
def granted (r : Role) (s : State) : State :=
  setPrs r (emit (.acquire (s.pinreg.get r) true) (setPad (s.pinreg.get r) ⟨.self, .z⟩ s))

/-- The state after the release of an acquired role (R132, R134). -/
def givenBack (r : Role) (s : State) : State :=
  clearPin r (clearPrs r (emit (.release (s.pinreg.get r)) (setPad (s.pinreg.get r) ⟨.free, .z⟩ s)))

theorem acquireRole_free {r : Role} {s : State} (h : s.inp.agenda = [])
    (hp : padOf s (s.pinreg.get r) = some ⟨.free, .z⟩) : acquireRole r s = .ok (granted r s) := by
  simp [acquireRole, boundary_of_nil .seq h, hp, granted]

theorem acquireRole_taken {r : Role} {s : State} {p : Pad} (h : s.inp.agenda = [])
    (hp : padOf s (s.pinreg.get r) = some p) (htaken : p.owner ≠ .free) :
    acquireRole r s = .raise .pinUnavailable (emit (.acquire (s.pinreg.get r) false) s) := by
  simp [acquireRole, boundary_of_nil .seq h, hp, htaken]

theorem releaseRole_held {r : Role} {s : State} {p : Pad} (h : s.inp.agenda = []) (hbit : prsBit s.prs r = true)
    (hp : padOf s (s.pinreg.get r) = some p) : releaseRole r s = .ok (givenBack r s) := by
  simp [releaseRole, hbit, padRelease, boundary_of_nil .seq h, hp, givenBack]

theorem releaseRole_unheld {r : Role} {s : State} (hbit : prsBit s.prs r = false) :
    releaseRole r s = .ok (clearPin r s) := by
  simp [releaseRole, hbit]

theorem prsBit_zero (r : Role) : prsBit 0 r = false := by cases r <;> rfl

/-- Setting a clear bit of PRS and clearing it again changes nothing. -/
theorem prsClear_prsSet {p : BitVec 4} {r : Role} (h : prsBit p r = false) : prsClear (prsSet p r) r = p := by
  refine prs_ext fun q => ?_
  rw [prsBit_prsClear, prsBit_prsSet]
  by_cases hq : q = r
  · simp [hq, h]
  · simp [hq]

/-- Writing a pad and then what it held before changes nothing. -/
theorem setPad_setPad_pads {s : State} {id : PinId} {p : Pad} (q : Pad) (hp : padOf s id = some p) :
    (setPad id p (setPad id q s)).pads = s.pads := by
  refine pads_ext fun j => ?_
  by_cases hj : j = id
  · simp [hj, hp]
  · simp [hj]

/-! ## Requests undone by their rollback (R133, R136) -/

/-- PINREG with the registers of some roles cleared. -/
def unnamed (rs : List Role) (g : PinGroup) : PinGroup := rs.foldr (fun r g => g.put r pinNone) g

theorem unnamed_cons (r : Role) (rs : List Role) (g : PinGroup) :
    unnamed (r :: rs) g = (unnamed rs g).put r pinNone := rfl

theorem unnamed_get {rs : List Role} {r : Role} (h : r ∉ rs) (g : PinGroup) : (unnamed rs g).get r = g.get r := by
  induction rs with
  | nil => rfl
  | cons q rs ih =>
    obtain ⟨hq, hrs⟩ := not_or.1 (mt List.mem_cons.2 h)
    exact (PinGroup.get_put_other _ _ hq).trans (ih hrs)

/-- The events of some granted requests, one refused request and the releases in reverse order. -/
def refusedEvents (got : List PinId) (lost : PinId) : List Event :=
  got.map (fun id => .acquire id true) ++ [.acquire lost false] ++ got.reverse.map fun id => .release id

theorem refusedEvents_cons (id : PinId) (got : List PinId) (lost : PinId) : (refusedEvents (id :: got) lost).reverse =
    .release id :: ((refusedEvents got lost).reverse ++ [.acquire id true]) := by
  simp [refusedEvents]

/-- A role's pad can be requested. -/
abbrev padFree (s : State) (r : Role) : Prop := (padOf s (s.pinreg.get r)).map Pad.owner = some .free

/-- The state after the releases that follow a refused request: only TRACE and PINREG differ from `s`. -/
def undone (rs got : List Role) (lost : Role) (s : State) : State :=
  { s with
    pinreg := unnamed rs s.pinreg
    traceRev := (refusedEvents (got.map s.pinreg.get) (s.pinreg.get lost)).reverse ++ s.traceRev }

/-- With no role acquired the releases clear PINREG only (R134). -/
theorem releaseRoles_unheld (rs : List Role) {s : State} (h : ∀ r ∈ rs, prsBit s.prs r = false) :
    runAll (rs.reverse.map releaseRole) s = .ok { s with pinreg := unnamed rs s.pinreg } := by
  induction rs with
  | nil => rfl
  | cons r rs ih =>
    rw [List.reverse_cons, List.map_append, runAll_append, ih fun q hq => h q (List.mem_cons_of_mem _ hq),
      Res.andThen_ok]
    exact runAll_step (releaseRole_unheld (h r (by simp)))

/-- The release of a role granted before a refused request and its releases gives back the state before the grant. -/
theorem givenBack_undone_granted {rs got : List Role} {lost r : Role} {s : State} (hr : r ∉ rs)
    (hbit : prsBit s.prs r = false) (hp : padOf s (s.pinreg.get r) = some ⟨.free, .z⟩) :
    givenBack r (undone rs got lost (granted r s)) = undone (r :: rs) (r :: got) lost s := by
  have hpads := setPad_setPad_pads ⟨.self, .z⟩ hp
  simp only [setPad_pads] at hpads
  simp [givenBack, undone, granted, clearPin, clearPrs, setPrs, emit, setPad, unnamed_get hr, hpads,
    prsClear_prsSet hbit, refusedEvents_cons, unnamed_cons]

/-- No other agent acts, the roles to request are not acquired, the four name different pads, and a free pad rests
undriven. -/
structure Requests (rs : List Role) (s : State) : Prop where
  agenda : s.inp.agenda = []
  unheld : ∀ r ∈ rs, prsBit s.prs r = false
  named : ∀ r, s.pinreg.get r ≠ pinNone
  distinct : ∀ r q, s.pinreg.get r = s.pinreg.get q → r = q
  rest : ∀ id p, padOf s id = some p → p.owner = .free → p.drv = .z

theorem padFree_iff {rs : List Role} {s : State} (h : Requests rs s) (r : Role) :
    padFree s r ↔ padOf s (s.pinreg.get r) = some ⟨.free, .z⟩ := by
  obtain ⟨⟨owner, drv⟩, hp⟩ := padOf_isSome (s := s) (h.named r)
  have := h.rest _ _ hp
  simp_all [padFree]

theorem padOf_granted {r : Role} {s : State} (hfree : padFree s r) (id : PinId) :
    padOf (granted r s) id = if id = s.pinreg.get r then some ⟨.self, .z⟩ else padOf s id := by
  obtain ⟨p, hp, -⟩ := Option.map_eq_some_iff.1 hfree
  show padOf (setPad _ _ s) id = _
  rw [padOf_setPad]
  split
  · rw [hp, Option.map_some]
  · rfl

/-- A grant leaves the other roles' pads as they are. -/
theorem padFree_granted {rs : List Role} {r q : Role} {s : State} (h : Requests rs s) (hfree : padFree s r)
    (hq : q ≠ r) : padFree (granted r s) q ↔ padFree s q := by
  show (padOf (granted r s) (s.pinreg.get q)).map Pad.owner = _ ↔ _
  rw [padOf_granted hfree, if_neg fun he => hq (h.distinct q r he)]

theorem Requests.granted {r : Role} {rs : List Role} {s : State} (h : Requests (r :: rs) s) (hr : r ∉ rs)
    (hfree : padFree s r) : Requests rs (granted r s) := by
  refine ⟨h.agenda, fun q hq => ?_, h.named, h.distinct, fun id p hp ho => ?_⟩
  · show prsBit (prsSet s.prs r) q = false
    rw [prsBit_prsSet, h.unheld q (List.mem_cons_of_mem _ hq), Bool.or_false]
    exact decide_eq_false fun he => hr (he ▸ hq)
  · rw [padOf_granted hfree] at hp
    split at hp
    · cases hp
      rfl
    · exact h.rest id p hp ho

/-- Requests of which one is refused, and the releases after it in reverse order (R131, R133, R136). -/
theorem acquireRoles_refused (rs : List Role) (hnodup : rs.Nodup) {s : State} (h : Requests rs s)
    (htaken : ∃ r ∈ rs, ¬ padFree s r) :
    ∃ got lost t, runAll (rs.map acquireRole) s = .raise .pinUnavailable t ∧
      runAll (rs.reverse.map releaseRole) t = .ok (undone rs got lost s) ∧
      (got ++ [lost]) <+: rs ∧ (∀ r ∈ got, padFree s r) ∧ ¬ padFree s lost := by
  induction rs generalizing s with
  | nil => simp at htaken
  | cons r rs ih =>
    obtain ⟨hr, hnodup'⟩ := List.nodup_cons.1 hnodup
    by_cases hfree : padFree s r
    · have hp := (padFree_iff h r).1 hfree
      have hothers : ∀ q ∈ rs, (padFree (granted r s) q ↔ padFree s q) := fun q hq =>
        padFree_granted h hfree fun he => hr (he ▸ hq)
      have htaken' : ∃ q ∈ rs, ¬ padFree (granted r s) q := by
        obtain ⟨q, hq, hnot⟩ := htaken
        rcases List.mem_cons.1 hq with rfl | hq
        · exact absurd hfree hnot
        · exact ⟨q, hq, mt (hothers q hq).1 hnot⟩
      obtain ⟨got, lost, t, hacq, hrel, hpre, hgot, hlost⟩ := ih hnodup' (h.granted hr hfree) htaken'
      have hmem : ∀ q ∈ got ++ [lost], q ∈ rs := fun q hq => hpre.subset hq
      refine ⟨r :: got, lost, t, ?_, ?_, List.cons_prefix_cons.2 ⟨rfl, hpre⟩, ?_,
        mt (hothers lost (hmem lost (by simp))).2 hlost⟩
      · rw [List.map_cons, runAll_step (acquireRole_free h.agenda hp), hacq]
      · have hheld : prsBit (undone rs got lost (granted r s)).prs r = true := by
          simp [undone, granted, prsBit_prsSet]
        have hown : padOf (undone rs got lost (granted r s)) ((undone rs got lost (granted r s)).pinreg.get r) =
            some ⟨.self, .z⟩ := by
          show padOf (granted r s) ((unnamed rs s.pinreg).get r) = _
          rw [unnamed_get hr, padOf_granted hfree, if_pos rfl]
        rw [List.reverse_cons, List.map_append, runAll_append, hrel, Res.andThen_ok, List.map_singleton,
          runAll_step (releaseRole_held (by exact h.agenda) hheld hown),
          givenBack_undone_granted hr (h.unheld r (by simp)) hp, runAll_nil]
      · intro q hq
        rcases List.mem_cons.1 hq with rfl | hq
        · exact hfree
        · exact (hothers q (hmem q (by simp [hq]))).1 (hgot q hq)
    · obtain ⟨p, hp⟩ := padOf_isSome (s := s) (h.named r)
      have howner : p.owner ≠ .free := by simpa [padFree, hp] using hfree
      refine ⟨[], r, _, by rw [List.map_cons, runAll_cons, acquireRole_taken h.agenda hp howner, Res.andThen_raise],
        ?_, by simp, by simp, hfree⟩
      rw [releaseRoles_unheld (r :: rs) (by exact h.unheld)]
      rfl

/-! ## CONFIGURE with a pad taken (R160) -/

/-- The four roles in the order of their numbers. -/
abbrev allRoles : List Role := [.clk, .dout, .rst, .dc]

theorem acquirePins_eq (s : State) : acquirePins s =
    (runAll (allRoles.map acquireRole) s).andThen (runAll [idleLevels, update (setLc .pinsAcquired)]) :=
  runAll_append (allRoles.map acquireRole) _ s

theorem rollback_eq (lc0 : Lifecycle) (s : State) : rollback lc0 s =
    (runAll (allRoles.reverse.map releaseRole) s).andThen
      (runAll [update fun s => { s with lc := lc0, cfg := false }]) :=
  runAll_append (allRoles.reverse.map releaseRole) _ s

/-- `PINREG[0..3] <- clk, dout, rst, dc` (R133). -/
def setPinreg (g : PinGroup) (s : State) : State := { s with pinreg := g }

/-- A failed bring-up is rolled back, then reported (R136, R160). -/
theorem configureBody_rolledBack {clk dout rst dc : PinId} {s t u : State} {c : Code} (hcfg : s.cfg = false)
    (hvalid : validatePins clk dout rst dc s = true)
    (hraise : bringUp (setPinreg ⟨clk, dout, rst, dc⟩ s) = .raise c t) (hback : rollback s.lc t = .ok u) :
    configureBody clk dout rst dc s = .raise c u := by
  rw [setPinreg] at hraise
  rw [configureBody, if_neg (by simp [hcfg]), if_neg (by simp [hvalid]), hraise]
  simp only [hback, Res.andThen_ok]

/-- A request refused: the rollback leaves PINREG cleared, LC as it was, and the events (R131, R136). -/
theorem configureBody_padTaken {clk dout rst dc : PinId} {s : State} (hag : s.inp.agenda = []) (hcfg : s.cfg = false)
    (hprs : s.prs = 0) (hvalid : validatePins clk dout rst dc s = true)
    (hrest : ∀ id p, padOf s id = some p → p.owner = .free → p.drv = .z)
    (htaken : ∃ r ∈ allRoles, ¬ padFree (setPinreg ⟨clk, dout, rst, dc⟩ s) r) :
    ∃ got lost, configureBody clk dout rst dc s =
        .raise .pinUnavailable (undone allRoles got lost (setPinreg ⟨clk, dout, rst, dc⟩ s)) ∧
      (got ++ [lost]) <+: allRoles ∧ (∀ r ∈ got, padFree (setPinreg ⟨clk, dout, rst, dc⟩ s) r) ∧
      ¬ padFree (setPinreg ⟨clk, dout, rst, dc⟩ s) lost := by
  obtain ⟨hnamed, hdistinct⟩ := validatePins_spec hvalid
  have hbits : ∀ r, prsBit s.prs r = false := fun r => by rw [hprs, prsBit_zero]
  obtain ⟨got, lost, t, hacq, hrel, h⟩ := acquireRoles_refused allRoles (by decide)
    (s := setPinreg ⟨clk, dout, rst, dc⟩ s) ⟨hag, fun r _ => hbits r, hnamed, hdistinct, hrest⟩ htaken
  refine ⟨got, lost, configureBody_rolledBack hcfg hvalid (t := t) ?_ ?_, h⟩
  · rw [bringUp, runAll_cons, acquirePins_eq, hacq, Res.andThen_raise, Res.andThen_raise]
  · rw [rollback_eq, hrel, Res.andThen_ok, runAll_cons, update_apply, Res.andThen_ok, runAll_nil]
    simp [undone, setPinreg, hcfg]

/-- Settles O42: the rollback undoes the requests granted before the refused one. -/
theorem configureRollsBackWhenAPadIsTaken : Obligations.ConfigureRollsBackWhenAPadIsTaken := by
  intro s clk dout rst dc hmay halone hcfg hprs hreg hnodup hids hrest htaken
  have hvalid : validatePins clk dout rst dc (begin s) = true := validatePins_iff.2 ⟨hnodup, hids⟩
  have hroles : allRoles.map (PinGroup.mk clk dout rst dc).get = [clk, dout, rst, dc] := rfl
  have hlostRole : ∃ r ∈ allRoles, ¬ padFree (setPinreg ⟨clk, dout, rst, dc⟩ (begin s)) r := by
    obtain ⟨id, hid, hnot⟩ := htaken
    obtain ⟨r, hr, rfl⟩ := List.mem_map.1 (hroles ▸ hid)
    refine ⟨r, hr, fun hfree => ?_⟩
    obtain ⟨p, hp, hfree⟩ := Option.map_eq_some_iff.1 hfree
    exact hnot p hp hfree
  obtain ⟨got, lost, hbody, hpre, hgot, hlost⟩ :=
    configureBody_padTaken (by exact halone.agenda) (by exact hcfg) (by exact hprs) hvalid hrest hlostRole
  refine ⟨got.map (PinGroup.mk clk dout rst dc).get, (PinGroup.mk clk dout rst dc).get lost, ?_, ?_, ?_, hlost⟩
  · have hunnamed : unnamed allRoles ⟨clk, dout, rst, dc⟩ = s.pinreg := hreg ▸ rfl
    rw [exec_of_owner rfl hmay, controlBody, hbody, conclude, finish_alone _ _ (by exact halone.agenda)]
    simp [respond, undone, setPinreg, emit, begin, hunnamed, refusedEvents, Code.byte, controlOpcode]
  · rw [← hroles, ← List.map_singleton (f := (PinGroup.mk clk dout rst dc).get), ← List.map_append]
    exact hpre.map _
  · intro id hid
    obtain ⟨r, hr, rfl⟩ := List.mem_map.1 hid
    exact hgot r hr

end Sys2Proof.Machine

/-! CONFIGURE whatever the other agents do and whichever pin write fails (R133, R136, R160): the pads the block owns
through the bring-up and its rollback, and the errors a part can raise. -/

namespace Sys2Proof.Machine

open Sys2Proof.Config (width)

/-! ## How a part ends, with the error it raises -/

/-- Where the part goes on, the state has the property `P`; where it raises an error, the error and the state have the
property `E`. -/
structure Res.Leads (P : State → Prop) (E : Code → State → Prop) (r : Res) : Prop where
  goesOn : ∀ t, r = .ok t → P t
  raises : ∀ c t, r = .raise c t → E c t

theorem Res.Leads.ok {P : State → Prop} {E : Code → State → Prop} {s : State} (h : P s) : (Res.ok s).Leads P E :=
  ⟨fun _ ht => Res.ok.inj ht ▸ h, fun _ _ ht => by cases ht⟩

theorem Res.Leads.raise {P : State → Prop} {E : Code → State → Prop} {c : Code} {s : State} (h : E c s) :
    (Res.raise c s).Leads P E :=
  ⟨fun _ ht => (by cases ht), fun _ _ ht => by cases ht; exact h⟩

theorem Res.Leads.fault {P : State → Prop} {E : Code → State → Prop} (f : Fault) : (Res.fault f).Leads P E :=
  ⟨fun _ ht => (by cases ht), fun _ _ ht => by cases ht⟩

theorem Res.Leads.mono {P Q : State → Prop} {E F : Code → State → Prop} {r : Res} (h : r.Leads P E)
    (hP : ∀ t, P t → Q t) (hE : ∀ c t, E c t → F c t) : r.Leads Q F :=
  ⟨fun t ht => hP t (h.goesOn t ht), fun c t ht => hE c t (h.raises c t ht)⟩

theorem Res.Leads.andThen {P Q : State → Prop} {E : Code → State → Prop} {r : Res} {k : State → Res}
    (h : r.Leads P E) (hk : ∀ t, P t → (k t).Leads Q E) : (r.andThen k).Leads Q E := by
  cases r with
  | ok t => exact hk t (h.goesOn t rfl)
  | raise c t => exact .raise (h.raises c t rfl)
  | fault f => exact .fault f

/-! ## Parts on the bus: the owners of the pads, and ERR_IO as the only error (R90) -/

/-- PRS, PINREG and which pads are the block's are the same. -/
structure SameOwners (s t : State) : Prop where
  prs : t.prs = s.prs
  pinreg : t.pinreg = s.pinreg
  owns : ∀ id, ownsPad t id ↔ ownsPad s id

theorem SameOwners.refl (s : State) : SameOwners s s := ⟨rfl, rfl, fun _ => Iff.rfl⟩

theorem SameOwners.trans {s t u : State} (h : SameOwners s t) (k : SameOwners t u) : SameOwners s u :=
  ⟨k.prs.trans h.prs, k.pinreg.trans h.pinreg, fun id => (k.owns id).trans (h.owns id)⟩

theorem Elsewhere.sameOwners {s t : State} (h : Elsewhere s t) : SameOwners s t := by
  refine ⟨h.prs, h.pinreg, fun id => ?_⟩
  have := h.pads id
  cases hs : padOf s id <;> cases ht : padOf t id <;> simp_all

theorem boundary_sameOwners (s : State) : SameOwners s (boundary .seq s) := (boundary_elsewhere .seq s).sameOwners

/-- A change of other fields. -/
theorem SameOwners.of_pads {s t : State} (hprs : t.prs = s.prs) (hreg : t.pinreg = s.pinreg)
    (hpads : t.pads = s.pads) : SameOwners s t :=
  ⟨hprs, hreg, fun id => by rw [ownsPad, padOf, hpads]; rfl⟩

/-- The part leaves the owners of the pads alone, and raises no error but ERR_IO. -/
abbrev Res.KeepsOwners (s : State) (r : Res) : Prop := r.Leads (SameOwners s) fun c t => c = .io ∧ SameOwners s t

@[simp] theorem Res.keepsOwners_ok {s t : State} : (Res.ok t).KeepsOwners s ↔ SameOwners s t :=
  ⟨fun h => h.goesOn t rfl, .ok⟩

theorem Res.KeepsOwners.after {s t : State} {r : Res} (k : r.KeepsOwners t) (h : SameOwners s t) :
    r.KeepsOwners s := k.mono (fun _ => h.trans) fun _ _ ⟨hc, ht⟩ => ⟨hc, h.trans ht⟩

theorem Res.KeepsOwners.andThen {s : State} {r : Res} {k : State → Res} (h : r.KeepsOwners s)
    (hk : ∀ t, (k t).KeepsOwners t) : (r.andThen k).KeepsOwners s := Res.Leads.andThen h fun t => (hk t).after

theorem runAll_keepsOwners {ps : List (State → Res)} (hp : ∀ p ∈ ps, ∀ s, (p s).KeepsOwners s) (s : State) :
    (runAll ps s).KeepsOwners s := by
  induction ps generalizing s with
  | nil => exact .ok (.refl s)
  | cons p ps ih => exact (hp p (by simp) s).andThen fun t => ih (fun q hq => hp q (by simp [hq])) t

theorem pinDrive_keepsOwners (r : Role) (v : Level) (s : State) : (pinDrive r v s).KeepsOwners s := by
  obtain ⟨rest, hask⟩ := askOracle_state s
  rcases pinDrive_cases r v s with ⟨p, hp, -, h⟩ | ⟨-, h⟩ | ⟨f, h⟩ <;> rw [h]
  · rw [hask]
    refine .ok ⟨rfl, rfl, fun id => ?_⟩
    show (padOf (setPad _ _ s) id).map Pad.owner = _ ↔ _
    rw [padOf_setPad]
    split
    · rename_i hid
      rw [hid, ownsPad, hp]
      rfl
    · exact Iff.rfl
  · rw [hask]
    exact .raise ⟨rfl, .of_pads rfl rfl rfl⟩
  · exact .fault f

theorem pinWrite_keepsOwners (r : Role) (v : Level) (s : State) : (pinWrite r v s).KeepsOwners s :=
  (pinDrive_keepsOwners r v _).after (boundary_sameOwners s)

theorem wait_keepsOwners (d : Nat) (s : State) : (wait d s).KeepsOwners s := by
  unfold wait
  split
  · exact .ok (.refl s)
  · exact .ok ((boundary_sameOwners s).trans (.of_pads rfl rfl rfl))

theorem seqWrite_keepsOwners (a : Nat) (v : Byte) (s : State) : (seqWrite a v s).KeepsOwners s := by
  unfold seqWrite
  split
  · exact .ok ((boundary_sameOwners s).trans (.of_pads rfl rfl rfl))
  · exact .fault _

theorem seqRead_keepsOwners (a : Nat) {k : Byte → State → Res} (hk : ∀ v t, (k v t).KeepsOwners t) (s : State) :
    (seqRead a k s).KeepsOwners s := by
  unfold seqRead
  split
  · exact (hk _ _).after ((boundary_sameOwners s).trans (memRead_elsewhere a _).sameOwners)
  · exact .fault _

theorem setSeqr_sameOwners (q : SeqRegs) (s : State) : SameOwners s { s with seqr := q } := .of_pads rfl rfl rfl

theorem selectWrite_keepsOwners (isData : Bool) (s : State) : (selectWrite isData s).KeepsOwners s :=
  pinWrite_keepsOwners .dc _ s

theorem dataWrite_keepsOwners (s : State) : (dataWrite s).KeepsOwners s := pinWrite_keepsOwners .dout _ s

theorem delay_keepsOwners (s : State) : (delay s).KeepsOwners s := wait_keepsOwners _ s

theorem bitCell_keepsOwners (i : Nat) (s : State) : (bitCell i s).KeepsOwners s := by
  have hcnt : ∀ u, SameOwners u (setBitcnt i u) := fun u => setSeqr_sameOwners _ u
  have hshift : ∀ u, SameOwners u (shiftSr u) := fun u => setSeqr_sameOwners _ u
  exact runAll_keepsOwners
    (by simp [hcnt, hshift, pinWrite_keepsOwners, dataWrite_keepsOwners, delay_keepsOwners]) s

theorem sendByte_keepsOwners (b : Byte) (isData : Bool) (s : State) : (sendByte b isData s).KeepsOwners s := by
  have hload : ∀ u, SameOwners u (loadSr b u) := fun u => setSeqr_sameOwners _ u
  exact runAll_keepsOwners (by simp [hload, selectWrite_keepsOwners, delay_keepsOwners, bitCell_keepsOwners]) s

theorem sendSeqFrom_keepsOwners (isData : Bool) (k : Nat) (bytes : List Byte) (s : State) :
    (sendSeqFrom isData k bytes s).KeepsOwners s := by
  induction bytes generalizing k s with
  | nil => exact .ok (.refl s)
  | cons b bs ih =>
    exact ((sendByte_keepsOwners b isData _).after (setSeqr_sameOwners _ s)).andThen fun t => ih (k + 1) t

theorem sendSeq_keepsOwners (bytes : List Byte) (isData : Bool) (s : State) :
    (sendSeq bytes isData s).KeepsOwners s := sendSeqFrom_keepsOwners isData 0 bytes s

theorem refreshColumn_keepsOwners (q col : Nat) (s : State) : (refreshColumn q col s).KeepsOwners s :=
  (seqRead_keepsOwners (q * width + col) (fun v => sendByte_keepsOwners v true) (setCol col s)).after
    (setSeqr_sameOwners _ s)

theorem refreshPage_keepsOwners (pg : Nat) (s : State) : (refreshPage pg s).KeepsOwners s := by
  have hpg : SameOwners s (setPg pg s) := setSeqr_sameOwners _ s
  unfold refreshPage
  simp only
  split
  · exact .ok hpg
  · exact ((sendSeq_keepsOwners _ false _).after hpg).andThen fun t =>
      runAll_keepsOwners (by simp [refreshColumn_keepsOwners]) t

theorem clearBody_keepsOwners (s : State) : (clearBody s).KeepsOwners s := by
  have hzero : ∀ u, (seqZero u).KeepsOwners u := runAll_keepsOwners (by simp [seqWrite_keepsOwners])
  have hrefresh : ∀ u, (refreshBody u).KeepsOwners u := runAll_keepsOwners (by simp [refreshPage_keepsOwners])
  exact runAll_keepsOwners (by simp [hzero, hrefresh]) s

theorem idleLevels_keepsOwners (s : State) : (idleLevels s).KeepsOwners s :=
  runAll_keepsOwners (by simp [pinWrite_keepsOwners, selectWrite_keepsOwners]) s

theorem resetAndInit_keepsOwners (s : State) : (resetAndInit s).KeepsOwners s :=
  runAll_keepsOwners (by simp [pinWrite_keepsOwners, wait_keepsOwners, sendSeq_keepsOwners]) s

/-! ## Requests and releases (R131, R134) -/

theorem SameOwners.ownedExactly {s t : State} (h : SameOwners s t) (k : ownedExactly s) : ownedExactly t := by
  intro id
  rw [h.prs, h.pinreg]
  exact (h.owns id).trans (k id)

/-- A granted request makes the role's pad the block's; a refused one changes no owner. -/
theorem acquireRole_leads (r : Role) {s : State} (h : ownedExactly s) : (acquireRole r s).Leads
    (fun t => ownedExactly t ∧ t.pinreg = s.pinreg ∧ t.prs = prsSet s.prs r)
    fun c t => c = .pinUnavailable ∧ ownedExactly t := by
  have hb := boundary_sameOwners s
  have k := hb.ownedExactly h
  unfold acquireRole
  simp only
  split
  · exact .fault _
  · rename_i p hp
    split
    · refine .ok ⟨fun id => ?_, hb.pinreg, by rw [setPrs_prs, emit_prs, setPad_prs, hb.prs]⟩
      show (padOf (setPad _ _ _) id).map Pad.owner = _ ↔
        ∃ q, prsBit (prsSet (boundary .seq s).prs r) q = true ∧ (boundary .seq s).pinreg.get q = id
      simp only [padOf_setPad, prsBit_prsSet, Bool.or_eq_true, decide_eq_true_eq, or_and_right, exists_or,
        exists_eq_left, ← k id]
      split
      · rename_i hid
        simp [hid, hp]
      · rename_i hid
        simp [Ne.symm hid]
    · exact .raise ⟨rfl, SameOwners.ownedExactly (.of_pads rfl rfl rfl) k⟩

theorem acquireRoles_leads (rs : List Role) {s : State} (h : ownedExactly s) : (runAll (rs.map acquireRole) s).Leads
    (fun t => ownedExactly t ∧ t.pinreg = s.pinreg ∧ ∀ q, q ∈ rs ∨ prsBit s.prs q = true → prsBit t.prs q = true)
    fun c t => c = .pinUnavailable ∧ ownedExactly t := by
  induction rs generalizing s with
  | nil => exact .ok ⟨h, rfl, fun q hq => hq.resolve_left (by simp)⟩
  | cons r rs ih =>
    refine (acquireRole_leads r h).andThen fun t ⟨ht, hreg, hprs⟩ =>
      (ih ht).mono (fun u ⟨hu, hreg', hbits⟩ => ⟨hu, hreg'.trans hreg, fun q hq => hbits q ?_⟩) fun _ _ hc => hc
    rw [hprs, prsBit_prsSet, Bool.or_eq_true, decide_eq_true_eq]
    rcases hq with hq | hq
    · exact (List.mem_cons.1 hq).symm.imp id .inl
    · exact .inr (.inr hq)

/-- Only pads that acquired roles name are the block's: what a release keeps, whatever else PINREG names. -/
def OwnedByRoles (s : State) : Prop :=
  ∀ id, ownsPad s id → ∃ r, prsBit s.prs r = true ∧ s.pinreg.get r = id

theorem OwnedByRoles.clearPin {s : State} {r : Role} (h : OwnedByRoles s) (hbit : prsBit s.prs r = false) :
    OwnedByRoles (clearPin r s) := by
  intro id hid
  obtain ⟨q, hq, hqid⟩ := h id hid
  exact ⟨q, hq, (PinGroup.get_put_other _ _ fun he => by rw [he, hbit] at hq; cases hq).trans hqid⟩

theorem releaseRole_ownedByRoles (r : Role) {s : State} (h : OwnedByRoles s) :
    (releaseRole r s).Runs OwnedByRoles := by
  unfold releaseRole
  split
  · have hb := boundary_sameOwners s
    simp only [runAll_cons, padRelease]
    split
    · exact .fault _
    · rename_i p hp
      refine .ok (OwnedByRoles.clearPin (fun id hid => ?_) (by simp [prsBit_prsClear]))
      replace hid : (padOf (setPad _ _ _) id).map Pad.owner = _ := hid
      rw [padOf_setPad] at hid
      split at hid
      · simp [hp] at hid
      · rename_i hne
        obtain ⟨q, hq, hqid⟩ := h id ((hb.owns id).1 hid)
        have hqr : q ≠ r := fun he => hne (by rw [hb.pinreg, ← he, hqid])
        refine ⟨q, ?_, by rw [← hqid]; exact congrArg (PinGroup.get · q) hb.pinreg⟩
        show prsBit (prsClear (boundary .seq s).prs r) q = true
        rw [prsBit_prsClear, hb.prs, hq]
        simpa using hqr
  · rename_i hbit
    exact .ok (h.clearPin (by simpa using hbit))

/-! ## CONFIGURE (R160) -/

/-- A block with no pad of its own: CFG, PRS and PINREG cleared (R15). -/
structure Unconfigured (l : Lifecycle) (s : State) : Prop where
  cfg : s.cfg = false
  prs : s.prs = 0
  pinreg : s.pinreg = ⟨pinNone, pinNone, pinNone, pinNone⟩
  lc : s.lc = l
  unowned : ∀ id, ¬ ownsPad s id

/-- A block that owns the four pads of its group and no other, just initialized (R160). -/
structure Configured (g : PinGroup) (s : State) : Prop where
  cfg : s.cfg = true
  prs : s.prs = prsAll
  pinreg : s.pinreg = g
  lc : s.lc = .initialized
  owned : ownedExactly s

theorem rollback_unconfigured (l : Lifecycle) {s : State} (h : OwnedByRoles s) :
    (rollback l s).Runs (Unconfigured l) := by
  have howned : (rollback l s).Runs OwnedByRoles := by
    rw [rollback_eq]
    refine (runAll_runs (fun p hp t ht => ?_) h).andThen fun t ht => .ok ht
    obtain ⟨r, -, rfl⟩ := List.mem_map.1 hp
    exact releaseRole_ownedByRoles r ht
  refine ((rollback_runs l s).and howned.always).mono fun t ⟨⟨_, hprs, hreg, hcfg, hlc⟩, ht⟩ =>
    ⟨hcfg, hprs, hreg, hlc, fun id hid => ?_⟩
  obtain ⟨r, hr, -⟩ := ht id hid
  rw [hprs, prsBit_zero] at hr
  cases hr

theorem acquirePins_leads {s : State} (h : ownedExactly s) : (acquirePins s).Leads
    (fun t => ownedExactly t ∧ t.pinreg = s.pinreg ∧ t.prs = prsAll) fun c t => c ≠ .ok ∧ ownedExactly t := by
  rw [acquirePins_eq]
  refine ((acquireRoles_leads allRoles h).mono (fun _ ht => ht) fun c t ⟨hc, ht⟩ => ⟨by simp [hc], ht⟩).andThen
    fun t ⟨ht, hreg, hbits⟩ => ?_
  have hprs : t.prs = prsAll := prs_ext fun r =>
    (hbits r (.inl (by cases r <;> simp))).trans (prsBit_prsAll r).symm
  have hlc : ∀ u, SameOwners u (setLc .pinsAcquired u) := fun _ => .of_pads rfl rfl rfl
  exact (runAll_keepsOwners (by simp [hlc, idleLevels_keepsOwners]) t).mono
    (fun u hu => ⟨hu.ownedExactly ht, hu.pinreg.trans hreg, hu.prs.trans hprs⟩)
    fun c u ⟨hc, hu⟩ => ⟨by simp [hc], hu.ownedExactly ht⟩

/-- What follows AcquirePins: PowerOn, CFG and the cleared display (R137, R160). -/
theorem afterAcquire_leads (s : State) :
    (runAll [powerOn, update fun s => { s with cfg := true }, clearBody] s).Leads
      (fun t => SameOwners s t ∧ t.cfg = true ∧ t.lc = .initialized) fun c t => c = .io ∧ SameOwners s t := by
  rw [runAll_cons, powerOn_eq, Res.andThen_assoc]
  refine Res.Leads.andThen (resetAndInit_keepsOwners s) fun t ht => ?_
  have hset : SameOwners s { t with lc := .initialized, cfg := true } := ht.trans (.of_pads rfl rfl rfl)
  have hclear := (clearBody_keepsOwners { t with lc := .initialized, cfg := true }).after hset
  have hbus := clearBody_onBus { t with lc := .initialized, cfg := true }
  rw [runAll_cons, update_apply, Res.andThen_ok, runAll_nil, Res.andThen_ok, runAll_cons, update_apply,
    Res.andThen_ok, runAll_cons]
  exact Res.Leads.andThen (P := fun u => SameOwners s u ∧ u.cfg = true ∧ u.lc = .initialized)
    ⟨fun u hu => ⟨hclear.goesOn u hu, (hbus.goesOn u hu).cfg, (hbus.goesOn u hu).lc⟩, hclear.raises⟩ fun _ hu => .ok hu

theorem bringUp_leads {s : State} (h : ownedExactly s) :
    (bringUp s).Leads (Configured s.pinreg) fun c t => c ≠ .ok ∧ ownedExactly t := by
  refine (acquirePins_leads h).andThen fun t ⟨ht, hreg, hprs⟩ => ?_
  exact (afterAcquire_leads t).mono
    (fun u ⟨hu, hcfg, hlc⟩ =>
      ⟨hcfg, hu.prs.trans hprs, hu.pinreg.trans hreg, hlc, hu.ownedExactly ht⟩)
    fun c u ⟨hc, hu⟩ => ⟨by simp [hc], hu.ownedExactly ht⟩

/-- CONFIGURE's body configures the block, or reports an error from an unconfigured one (R133, R136). -/
theorem configureBody_leads {s : State} (h : Unconfigured s.lc s) (clk dout rst dc : PinId) :
    (configureBody clk dout rst dc s).Leads (Configured ⟨clk, dout, rst, dc⟩)
      fun c t => c ≠ .ok ∧ Unconfigured s.lc t := by
  have hbits : ∀ r, prsBit s.prs r = false := fun r => by rw [h.prs, prsBit_zero]
  have howned : ownedExactly { s with pinreg := ⟨clk, dout, rst, dc⟩ } := fun id =>
    ⟨fun hid => absurd hid (h.unowned id), fun ⟨r, hr, _⟩ => by cases (hbits r).symm.trans hr⟩
  have hup := bringUp_leads howned
  rw [configureBody, if_neg (by simp [h.cfg])]
  split
  · exact .raise ⟨by decide, h⟩
  · split
    · rename_i t ht
      exact .ok (hup.goesOn t ht)
    · rename_i c t ht
      obtain ⟨hc, hheld⟩ := hup.raises c t ht
      have hback := rollback_unconfigured s.lc fun id => (hheld id).1
      exact Res.Leads.andThen (P := Unconfigured s.lc) ⟨hback.goesOn, fun c u hu => (hback.raises c u hu).elim⟩
        fun u hu => .raise ⟨hc, hu⟩
    · exact .fault _

theorem Unconfigured.begin {l : Lifecycle} {s : State} (h : Unconfigured l s) : Unconfigured l (begin s) :=
  ⟨h.cfg, h.prs, h.pinreg, h.lc, h.unowned⟩

/-- What the other agents do before the response, and the response, disturb neither. -/
theorem Configured.finish {g : PinGroup} {s : State} (h : Configured g s) (op : Byte) (c : Code) :
    Configured g (finish op c s) := by
  have hb := boundary_elsewhere .seq s
  exact ⟨hb.cfg.trans h.cfg, hb.prs.trans h.prs, hb.pinreg.trans h.pinreg, hb.lc.trans h.lc,
    hb.sameOwners.ownedExactly h.owned⟩

theorem Unconfigured.finish {l : Lifecycle} {s : State} (h : Unconfigured l s) (op : Byte) (c : Code) :
    Unconfigured l (finish op c s) := by
  have hb := boundary_elsewhere .seq s
  exact ⟨hb.cfg.trans h.cfg, hb.prs.trans h.prs, hb.pinreg.trans h.pinreg, hb.lc.trans h.lc,
    fun id => mt (hb.sameOwners.owns id).1 (h.unowned id)⟩

/-- An unconfigured block answers CONFIGURE with OK, configured, or with an error, as unconfigured as before. -/
theorem exec_configure_next {s t : State} {clk dout rst dc : PinId} (h : Unconfigured s.lc s)
    (hexec : exec (.configure clk dout rst dc) s = .next t) :
    (t.status = Code.ok.byte ∧ Configured ⟨clk, dout, rst, dc⟩ t) ∨
      ∃ c, c ≠ .ok ∧ t.status = Code.byte c ∧ Unconfigured s.lc t := by
  rw [exec_eq_controlFrame rfl] at hexec
  obtain ⟨-, ⟨-, -, rfl⟩ | ⟨-, hbody⟩⟩ := controlFrame_next hexec
  · exact .inr ⟨.noSession, by decide, rfl, h.begin.finish _ _⟩
  · have hleads := configureBody_leads (s := begin s) h.begin clk dout rst dc
    obtain ⟨c, u, ⟨hu, rfl⟩ | hu, rfl⟩ := conclude_next hbody
    · exact .inl ⟨rfl, (hleads.goesOn u hu).finish _ _⟩
    · obtain ⟨hc, ku⟩ := hleads.raises c u hu
      exact .inr ⟨c, hc, rfl, ku.finish _ _⟩

/-- OK is the only code with its number (R200). -/
theorem Code.byte_ne_ok {c : Code} (h : c ≠ .ok) : c.byte ≠ 0x00 := by
  revert h
  cases c <;> decide

/-- Settles O44: CONFIGURE from an unconfigured block, with the pads of a configured one spelled out. -/
theorem configureIsAllOrNothing : Obligations.ConfigureIsAllOrNothing := by
  intro s t clk dout rst dc hcfg hprs hreg hown hexec
  rcases exec_configure_next ⟨hcfg, hprs, hreg, rfl, hown⟩ hexec with ⟨hst, k⟩ | ⟨c, hc, hst, k⟩
  · refine .inl ⟨hst, k.prs, k.cfg, k.pinreg, k.lc, fun id => (k.owned id).trans ?_⟩
    have hroles : [clk, dout, rst, dc] = allRoles.map t.pinreg.get := by rw [k.pinreg]; rfl
    rw [hroles, List.mem_map, k.prs]
    exact exists_congr fun r => and_congr_left fun _ => by cases r <;> simp
  · exact .inr ⟨hst ▸ Code.byte_ne_ok hc, k.prs, k.cfg, k.pinreg, k.lc, k.unowned⟩

/-! ## The moves of LC (R139) -/

theorem Inv.unconfigured {s : State} (h : Inv s) (hcfg : s.cfg = false) : Unconfigured s.lc s := by
  obtain ⟨hprs, -, hreg⟩ := h.registers.unconfigured hcfg
  refine ⟨hcfg, hprs, hreg, rfl, fun id hid => ?_⟩
  obtain ⟨r, hr, -⟩ := (h.owners id).1 hid
  rw [hprs, prsBit_zero] at hr
  cases hr

/-- From `s` to `t` LC stays or moves by a row of its table. -/
def LcMoves (s t : State) : Prop := lifecycleMove s.lc t.lc = true

theorem LcMoves.of_same {s t : State} (h : t.lc = s.lc) : LcMoves s t := by simp [LcMoves, lifecycleMove, h]

theorem LcMoves.released {s t : State} (h : t.lc = .released) : LcMoves s t := by simp [LcMoves, lifecycleMove, h]

/-- CONFIGURE of an unconfigured block. -/
theorem LcMoves.initialized {s t : State} (hs : s.lc = .unbound ∨ s.lc = .released) (h : t.lc = .initialized) :
    LcMoves s t := by
  rcases hs with hs | hs <;> rw [LcMoves, hs, h] <;> rfl

/-- DISPLAY_ON and DISPLAY_OFF of a configured block. -/
theorem LcMoves.display {s t : State} (hs : s.lc = .initialized ∨ s.lc = .opened ∨ s.lc = .closed)
    (h : t.lc = .opened ∨ t.lc = .closed) : LcMoves s t := by
  rcases hs with hs | hs | hs <;> rcases h with h | h <;> rw [LcMoves, hs, h] <;> rfl

theorem WorksOnBus.lcMoves {s t : State} (h : WorksOnBus s t) : LcMoves s t := .of_same h.lc

/-- SESSION_CLOSE and TEARDOWN release, unless the power-down ends them before (R182, R187). -/
theorem closeBody_lcMoves (s : State) : (closeBody s).Always (LcMoves s) := by
  unfold closeBody
  rw [runAll_cons]
  refine ((powerDown_onBus s).mono fun _ h => h.lcMoves).andThen fun t _ => ?_
  rw [runAll_cons]
  have hrelease := (releasePins_runs t).mono (Q := fun _ => True) fun _ _ => trivial
  refine Res.Ends.andThen ⟨hrelease.goesOn, fun c u hu => (hrelease.raises c u hu).elim⟩ fun u _ => .ok ?_
  exact .released (boundary_elsewhere .seq { u with cfg := false, lc := .released }).lc

theorem guarded_lcMoves {body : State → Res} {s : State} (hbody : s.prs = prsAll → (body s).Always (LcMoves s)) :
    (guarded body s).Always (LcMoves s) := by
  unfold guarded
  split
  · rename_i hguard
    exact hbody (by simpa [guardOk] using hguard)
  · exact .raise (.of_same rfl)

theorem sendThenSetLc_lcMoves {s : State} (k : registersAgree s) (bytes : Config.Params → List Byte) {l : Lifecycle}
    (hl : l = .opened ∨ l = .closed) : (guarded (runAll [fun t => sendSeq (bytes t.params) false t,
      update (setLc l)]) s).Always (LcMoves s) := by
  refine guarded_lcMoves fun hprs => ?_
  obtain ⟨-, -, hlc, -⟩ := k.configured (by rw [hprs]; decide)
  exact Res.Ends.andThen ((sendSeq_onBus _ false s).mono fun _ h => h.lcMoves) fun t _ => .ok (.display hlc hl)

theorem configureBody_lcMoves {s : State} (k : registersAgree s) (hown : s.cfg = false → Unconfigured s.lc s)
    (clk dout rst dc : PinId) : (configureBody clk dout rst dc s).Always (LcMoves s) := by
  cases hcfg : s.cfg with
  | true =>
    rw [configureBody, if_pos hcfg]
    exact .ok (.of_same rfl)
  | false =>
    have hleads := configureBody_leads (hown hcfg) clk dout rst dc
    exact ⟨fun t ht => .initialized (k.unconfigured hcfg).2.1 (hleads.goesOn t ht).lc,
      fun c t ht => .of_same (hleads.raises c t ht).2.lc⟩

/-- The body of every command moves LC by the table. -/
theorem controlBody_lcMoves (i : Instr) {s : State} (k : registersAgree s)
    (hown : s.cfg = false → Unconfigured s.lc s) : (controlBody i s).Always (LcMoves s) := by
  have hstays : LcMoves s s := .of_same rfl
  cases i with
  | sessionOpen =>
    show (openBody s).Always _
    unfold openBody
    split
    · exact .raise hstays
    · exact .ok (.of_same rfl)
  | sessionClose =>
    show (sessionCloseBody s).Always _
    unfold sessionCloseBody
    split
    · exact closeBody_lcMoves s
    · exact .ok hstays
  | configure clk dout rst dc => exact configureBody_lcMoves k hown clk dout rst dc
  | displayOn => exact sendThenSetLc_lcMoves k (fun p => p.onSeq.toList) (.inl rfl)
  | displayOff => exact sendThenSetLc_lcMoves k (fun p => p.offSeq.toList) (.inr rfl)
  | refresh => exact guarded_lcMoves fun _ => (refreshBody_onBus s).mono fun _ h => h.lcMoves
  | clear => exact guarded_lcMoves fun _ => (clearBody_onBus s).mono fun _ h => h.lcMoves
  | mapFb size =>
    show (mapBody size s).Always _
    unfold mapBody
    split
    · exact .raise hstays
    · split
      · exact .raise hstays
      · exact .ok (.of_same rfl)
  | bulkWrite off len payload =>
    show (bulkBody off len payload s).Always _
    unfold bulkBody
    split
    · exact .raise hstays
    · exact (writeBytes_quietly _ payload s).always.mono fun _ h => h.toWorksOnBus.lcMoves
  | queryInfo => exact .ok (.of_same rfl)
  | teardown =>
    exact (closeBody_lcMoves { s with tdreq := false }).andThen fun t ht => .ok ht
  | _ => exact .ok hstays

theorem exec_lcMoves {i : Instr} {s t : State} (h : Inv s) (hexec : exec i s = .next t) : LcMoves s t := by
  cases hport : i.port with
  | control =>
    obtain ⟨c, u, hu, rfl⟩ := exec_control_next (P := LcMoves s) hport hexec (.of_same rfl) fun _ =>
      controlBody_lcMoves i (s := begin s) h.registers fun hcfg =>
        (h.unconfigured hcfg).begin
    rw [LcMoves, finish, respond_lc, (boundary_elsewhere .seq u).lc]
    exact hu
  | raster => exact (exec_raster_next hport hexec).toWorksOnBus.lcMoves
  | phy => exact (exec_phy_next hport hexec).lcMoves

/-- Settles O56: other agents and an answer to a reserved word leave LC alone, and every instruction moves it by the
table. -/
theorem lifecycleMovesByItsTable : Obligations.LifecycleMovesByItsTable := by
  intro s t h hstep
  obtain ⟨u, hu, hcase⟩ := step_next hstep
  show LcMoves s t
  rw [LcMoves, ← hu.lc]
  rcases hcase with rfl | ⟨op, hi⟩ | ⟨i, hi⟩
  · exact LcMoves.of_same rfl
  · rw [illegal_next hi]
    exact LcMoves.of_same (boundary_elsewhere .seq (begin u)).lc
  · exact exec_lcMoves (h.of_quietly hu) hi

end Sys2Proof.Machine

/-! The control and refresh commands (43_control_refresh.md): alone, event by event, and among the other agents, their
own events whole and in order. -/

namespace Sys2Proof.Machine

open Sys2Proof.Config (width height npages fbSize)

/-! ## The frame of a guarded command of the owner (R138, R165) -/

theorem guardOk_of_prs {s : State} (h : s.prs = prsAll) : guardOk s = true := by simp [guardOk, h]

/-- With the pads acquired a guarded command is its body and the response. -/
theorem exec_guarded {i : Instr} {body : State → Res} (hport : i.port = .control) (hbody : controlBody i = guarded body)
    {s u : State} (hmay : OwnerMayIssue s) (hprs : s.prs = prsAll) (hrun : body (begin s) = .ok u) :
    exec i s = .next (finish (controlOpcode i) .ok u) := by
  rw [exec_of_owner hport hmay, hbody, guarded, if_pos (guardOk_of_prs (by exact hprs)), hrun, conclude]

/-- Settles O40: the body tests CFG first and ends there. -/
theorem configureWhenConfiguredIsANoOp : Obligations.ConfigureWhenConfiguredIsANoOp := by
  intro s clk dout rst dc hmay hcfg
  have hbody : configureBody clk dout rst dc (begin s) = .ok (begin s) := if_pos hcfg
  rw [exec_of_owner rfl hmay, controlBody, hbody, conclude, finish_eq_answered]
  rfl

/-! ## What a part on the bus leaves unchanged -/

/-- A change of the fields a run of transactions may change, the pads set aside. -/
theorem BusFrame.of_same {s t : State} (e : t = { s with
    seqr := t.seqr, traceRev := t.traceRev, status := t.status, busy := t.busy, lc := t.lc, fb := t.fb
    draws := t.draws, answer := t.answer }) : BusFrame s t := by
  rw [e]
  exact ⟨rfl, rfl, rfl, rfl, rfl, rfl, rfl, rfl, rfl, rfl, rfl, rfl, rfl, rfl, fun _ _ => rfl, fun _ => rfl⟩

theorem BusFrame.trans {s t u : State} (h : BusFrame s t) (k : BusFrame t u) : BusFrame s u :=
  ⟨k.pinreg.trans h.pinreg, k.prs.trans h.prs, k.cfg.trans h.cfg, k.slock.trans h.slock, k.owner.trans h.owner,
    k.mapped.trans h.mapped, k.rbusy.trans h.rbusy, k.ras.trans h.ras, k.tdreq.trans h.tdreq, k.dead.trans h.dead,
    k.dlyCfg.trans h.dlyCfg, k.params.trans h.params, k.inp.trans h.inp, k.extByte.trans h.extByte,
    fun id hid => (k.otherPads id (h.pinreg ▸ hid)).trans (h.otherPads id hid),
    fun id => (k.padOwners id).trans (h.padOwners id)⟩

theorem BusFrame.ready {s t : State} (h : BusFrame s t) (hs : Ready s) : Ready t :=
  ⟨⟨h.inp ▸ hs.agenda, h.inp ▸ hs.oracle⟩, ⟨h.prs.trans hs.prs, h.pinreg ▸ hs.named, h.pinreg ▸ hs.distinct⟩⟩

/-- The acceptance of a command and its response are outside the frame of what it does on the bus. -/
theorem BusFrame.command {s t : State} (h : BusFrame (begin s) t) (op : Byte) (c : Code) :
    BusFrame s (respond op c t) :=
  (BusFrame.of_same (s := s) (t := begin s) rfl).trans (h.trans (.of_same rfl))

theorem SentLast.command {s t : State} {last : Byte} (h : SentLast (begin s) t last) (op : Byte) (c : Code) :
    SentLast s (respond op c t) last := ⟨h.dc, h.clk, h.dout, h.rst⟩

theorem Ready.begin {s : State} (halone : Alone s) (howns : OwnsPins s) : Ready (begin s) :=
  BusFrame.ready (.of_same rfl) ⟨halone, howns⟩

/-- `SendSeq` alone, which writes neither PG nor COL (R91). -/
theorem sendSeq_counters {s : State} (h : Ready s) (bytes : List Byte) (isData : Bool) :
    ∃ t, sendSeq bytes isData s = .ok t ∧
      Streamed bytes (bytesEvents s.params s.pinreg s.dlyCfg.toNat bytes isData) s t ∧
      t.seqr.pg = s.seqr.pg ∧ t.seqr.col = s.seqr.col ∧ t.draws = s.draws := by
  obtain ⟨q, hq, hpg, hcol⟩ := sendSeqFrom_ready h isData 0 bytes
  exact ⟨_, hq, rfl, hpg, hcol, rfl⟩

/-! ## A guarded command among the other agents (R47, R204) -/

/-- The response and the acts due before it. -/
theorem finish_along (op : Byte) (c : Code) (s : State) : Along [.resp op c.byte] s (finish op c s) := by
  refine (boundary_along s).trans (b := [.resp op c.byte]) ?_
  exact ⟨⟨_, respond_trace op c _, .refl _⟩, rfl, rfl, rfl, rfl, rfl, rfl, rfl, rfl, fun k => k.respond op c⟩

/-- With the pads acquired a guarded command records what its body does, then the response as the newest event. -/
theorem exec_guarded_along {i : Instr} {body : State → Res} (hport : i.port = .control)
    (hbody : controlBody i = guarded body) {s r u : State} {own : List Event} (hmay : OwnerMayIssue s)
    (hprs : s.prs = prsAll) (hrun : body (begin s) = .ok u) (h : Along own r u) :
    ∃ t es, exec i s = .next t ∧ t.trace = r.trace ++ es ++ [.resp (controlOpcode i) 0x00] ∧ Interleaved own es ∧
      Along (own ++ [.resp (controlOpcode i) 0x00]) r t := by
  have hb := h.trans (boundary_along u)
  rw [List.append_nil] at hb
  obtain ⟨es, he, hi⟩ := hb.trace
  exact ⟨_, es, exec_guarded hport hbody hmay hprs hrun, by rw [finish, respond_trace, he]; rfl, hi,
    h.trans (finish_along _ .ok u)⟩

theorem begin_along (s : State) : Along [] s (begin s) :=
  ⟨⟨[], (List.append_nil _).symm, .refl _⟩, rfl, rfl, rfl, rfl, rfl, rfl, rfl, rfl, fun k => ⟨k.contents, k.reads⟩⟩

theorem Along.of_begin {own : List Event} {s t : State} (h : Along own (begin s) t) : Along own s t :=
  (begin_along s).trans h

/-- No part looks at LC. -/
theorem Along.setLc {own : List Event} {s t : State} (h : Along own s t) (l : Lifecycle) :
    Along own (setLc l s) (setLc l t) :=
  ⟨h.trace, h.pinreg, h.prs, h.cfg, rfl, h.dead, h.params, h.dlyCfg, h.oracle, fun k =>
    have hk := h.single ⟨k.contents, k.reads⟩
    ⟨hk.contents, hk.reads⟩⟩

theorem Steady.begin {s : State} (howns : OwnsPins s) (ho : s.inp.pinFault = []) : Steady (begin s) :=
  (begin_along s).steady ⟨howns, ho⟩

/-! ## DISPLAY_ON and DISPLAY_OFF (R161, R162) -/

section
variable {i : Instr} {bytes : Config.Params → Vector Byte 3} {l : Lifecycle} (hport : i.port = .control)
  (hbody : controlBody i = guarded (runAll [fun t => sendSeq (bytes t.params).toList false t, update (setLc l)]))
  {s : State}
include hport hbody

/-- The three bytes as commands, LC, and nothing else. -/
theorem exec_sendThenSetLc_alone (hmay : OwnerMayIssue s) (halone : Alone s) (howns : OwnsPins s) :
    ∃ t, exec i s = .next t ∧
      t.trace = s.trace ++ bytesEvents s.params s.pinreg s.dlyCfg.toNat (bytes s.params).toList false ++
        [.resp (controlOpcode i) 0x00] ∧
      t.lc = l ∧ t.status = 0x00 ∧ t.busy = false ∧ t.fb = s.fb ∧ t.draws = s.draws ∧
      t.seqr.pg = s.seqr.pg ∧ t.seqr.col = s.seqr.col ∧
      SentLast s t (bytes s.params)[2] ∧ BusFrame s t := by
  have hready := Ready.begin halone howns
  obtain ⟨u, hsend, hst, hpg, hcol, hdraws⟩ := sendSeq_counters hready (bytes s.params).toList false
  have hlast := hst.sentLast hready.toOwnsPins (last := (bytes s.params)[2]) (by simp [List.getLast?_eq_getElem?])
  have hrun : runAll [fun t => sendSeq (bytes t.params).toList false t, update (setLc l)] (begin s) =
    .ok (setLc l u) := runAll_step hsend
  refine ⟨_, exec_guarded hport hbody hmay howns.prs hrun, ?_⟩
  rw [finish_alone _ _ (by exact (hst.ready hready).agenda)]
  refine ⟨?_, rfl, rfl, rfl, hst.fb_eq, hdraws, hpg, hcol, ⟨hlast.dc, hlast.clk, hlast.dout, hlast.rst⟩,
    (hst.busFrame.trans (.of_same rfl)).command _ _⟩
  rw [respond_trace]
  exact congrArg (· ++ _) hst.trace_eq

/-- The same among the other agents. -/
theorem exec_sendThenSetLc_along (hmay : OwnerMayIssue s) (howns : OwnsPins s) (ho : s.inp.pinFault = []) :
    ∃ t es, exec i s = .next t ∧ t.trace = s.trace ++ es ++ [.resp (controlOpcode i) 0x00] ∧
      Interleaved (bytesEvents s.params s.pinreg s.dlyCfg.toNat (bytes s.params).toList false) es ∧
      t.lc = l ∧ t.dead = false := by
  obtain ⟨u, hsend, ha⟩ := sendSeqFrom_along (.begin howns ho) false 0 (bytes s.params).toList
  have hrun : runAll [fun t => sendSeq (bytes t.params).toList false t, update (setLc l)] (begin s) =
    .ok (setLc l u) := runAll_step hsend
  obtain ⟨t, es, hexec, htrace, hes, hend⟩ := exec_guarded_along hport hbody hmay howns.prs hrun (ha.setLc l)
  exact ⟨t, es, hexec, htrace, hes, hend.lc, hend.dead.trans hmay.alive⟩

end

/-- Settles O45: DISPLAY_ON and DISPLAY_OFF are one body with two sequences. -/
theorem displayOnAndOffSendTheirSequences : Obligations.DisplayOnAndOffSendTheirSequences := by
  refine ⟨fun s hmay halone howns => ⟨?_, ?_⟩, fun s hmay howns ho => ⟨?_, ?_⟩⟩
  · exact exec_sendThenSetLc_alone (i := .displayOn) (bytes := Config.Params.onSeq) rfl rfl hmay halone howns
  · exact exec_sendThenSetLc_alone (i := .displayOff) (bytes := Config.Params.offSeq) rfl rfl hmay halone howns
  · exact exec_sendThenSetLc_along (i := .displayOn) (bytes := Config.Params.onSeq) rfl rfl hmay howns ho
  · exact exec_sendThenSetLc_along (i := .displayOff) (bytes := Config.Params.offSeq) rfl rfl hmay howns ho

/-! ## REFRESH (R163) -/

/-- The last byte of the stream is the last of the framebuffer (R166). -/
theorem refreshStream_getLast? (p : Config.Params) (v : Nat → Byte) :
    ((refreshStream p v).map Prod.fst).getLast? = some (v (fbSize - 1)) := by
  obtain ⟨pages, hpages⟩ : ∃ pages, (List.range npages).reverse = pages ++ [0] := ⟨[7, 6, 5, 4, 3, 2, 1], rfl⟩
  have hcolumns : List.range width = List.range 127 ++ [127] := List.range_succ
  have haddr : (npages - 1) * width + 127 = fbSize - 1 := rfl
  simp [refreshStream, hpages, hcolumns, List.getLast?_cons, List.getLast?_append, haddr]

theorem refreshEvents_congr (p : Config.Params) (g : PinGroup) (d : Nat) {v w : Nat → Byte}
    (h : ∀ a, a < fbSize → v a = w a) : refreshEvents p g d v = refreshEvents p g d w := by
  refine flatMap_congr_mem fun pg hpg => pageEvents_congr p g d fun a _ ha => h a ?_
  have hpg' := List.mem_range.1 (List.mem_reverse.1 hpg)
  simp only [npages, height, width, fbSize] at hpg' ha ⊢
  omega

/-- Settles O46: the body alone is the stream of its reads; among the other agents its events are theirs beside it. -/
theorem refreshStreamsThePages : Obligations.RefreshStreamsThePages := by
  constructor
  · intro s hmay halone howns
    have hready := Ready.begin halone howns
    obtain ⟨u, hrun, hst⟩ := refreshBody_streamed hready
    have hlast := hst.sentLast hready.toOwnsPins (refreshStream_getLast? _ _)
    have hlc : u.lc = s.lc := by rw [hst]; rfl
    refine ⟨_, readInTurn s.fb s.draws, exec_guarded rfl rfl hmay howns.prs hrun,
      fun a w _ hw => readInTurn_written _ hw, ?_⟩
    rw [finish_alone _ _ (hst.ready hready).agenda]
    refine ⟨?_, rfl, rfl, hlc, hst.fb_eq, hlast.command _ _, hst.busFrame.command _ _⟩
    rw [respond_trace]
    exact congrArg (· ++ _) hst.trace_eq
  · intro s hmay howns ho
    obtain ⟨u, v, hrun, ha⟩ := refreshBody_along (.begin howns ho)
    obtain ⟨t, es, hexec, htrace, hes, hend⟩ :=
      exec_guarded_along (i := .refresh) rfl rfl hmay howns.prs hrun ha.of_begin
    exact ⟨t, v, es, hexec, htrace, hes, hend.lc, hend.cfg, hend.prs, hend.dead.trans hmay.alive, hend.single⟩

/-! ## The zeroing and CLEAR (R164) -/

/-- SEQ has written one value at a list of addresses, in that order. -/
structure FilledAt (as : List Nat) (v : Byte) (s t : State) : Prop extends BusFrame s t where
  trace : t.trace = s.trace ++ as.map fun a => .fbWrite .seq a v
  contents : ∀ b, Memory.read t.fb b = if b ∈ as then some v else Memory.read s.fb b
  lines : ∀ r, line t r = line s r
  lc : t.lc = s.lc
  draws : t.draws = s.draws

theorem seqWrites_alone (as : List Nat) (h : ∀ a ∈ as, a < fbSize) (v : Byte) {s : State} (hag : s.inp.agenda = []) :
    ∃ t, runAll (as.map fun a => seqWrite a v) s = .ok t ∧ FilledAt as v s t := by
  induction as generalizing s with
  | nil => exact ⟨s, rfl, .of_same rfl, by simp, by simp, fun _ => rfl, rfl, rfl⟩
  | cons a as ih =>
    obtain ⟨t, ht, hf⟩ := ih (s := memWrite .seq a v s) (fun b hb => h b (by simp [hb])) hag
    refine ⟨t, by rw [List.map_cons, runAll_step (seqWrite_alone v hag (h a (by simp))), ht],
      (BusFrame.of_same rfl).trans hf.toBusFrame, ?_, fun b => ?_, hf.lines, hf.lc, hf.draws⟩
    · rw [hf.trace]
      simp [State.trace]
    · rw [hf.contents, memWrite_fb, Memory.read_write]
      by_cases hb : b ∈ as <;> simp [hb]

/-- A framebuffer written everywhere is sent without a draw (R47). -/
theorem refreshBody_draws {s t : State} (hs : Ready s) (hw : ∀ a, a < fbSize → (Memory.read s.fb a).isSome)
    (h : refreshBody s = .ok t) : t.draws = s.draws := by
  have hnone : ∀ a, a ≤ fbSize → unwritten s.fb a = 0 := fun a ha => by
    refine List.countP_eq_zero.2 fun k hk => ?_
    have := hw k (Nat.lt_of_lt_of_le (List.mem_range.1 hk) ha)
    simpa [Option.isSome_iff_ne_none] using this
  have hpages : (refreshBody s).Runs fun u => Ready u ∧ u.fb = s.fb ∧ u.draws = s.draws := by
    refine runAll_runs (fun p hp u ⟨hu, hfb, hd⟩ => ?_) ⟨hs, rfl, rfl⟩
    obtain ⟨pg, hpg, rfl⟩ := List.mem_map.1 hp
    have hpg' := List.mem_range.1 (List.mem_reverse.1 hpg)
    have hroom : (npages - 1 - pg) * width + width ≤ fbSize := by
      simp only [npages, height, width, fbSize] at hpg' ⊢
      omega
    obtain ⟨w, hw, hst, hn⟩ := refreshPage_streamed hu (n := s.draws) hpg'
      (by rw [ReadBelow, hfb, hnone _ (by omega), hd, Nat.add_zero])
    have hwfb : w.fb = s.fb := hst.fb_eq.trans hfb
    rw [ReadBelow, hwfb, hnone _ hroom] at hn
    rw [hw]
    exact .ok ⟨hst.ready hu, hwfb, hn⟩
  obtain ⟨-, -, hdraws⟩ := hpages.goesOn t h
  exact hdraws

/-- What `ClearBody()` does alone (R164). -/
structure Cleared (s t : State) : Prop extends BusFrame s t, SentLast s t 0x00 where
  trace : t.trace = s.trace ++ fillEvents .seq 0x00 ++ refreshEvents s.params s.pinreg s.dlyCfg.toNat fun _ => 0x00
  zero : ∀ a, a < fbSize → Memory.read t.fb a = some 0x00
  beyond : ∀ a, fbSize ≤ a → Memory.read t.fb a = Memory.read s.fb a
  lc : t.lc = s.lc
  draws : t.draws = s.draws

theorem clearBody_alone {s : State} (hs : Ready s) : ∃ t, clearBody s = .ok t ∧ Cleared s t := by
  obtain ⟨z, hzero, hfill⟩ := seqWrites_alone (List.range fbSize) (fun _ ha => List.mem_range.1 ha) 0x00 hs.agenda
  have hzero : seqZero s = .ok z := hzero
  have hframe := hfill.toBusFrame
  have hready := hframe.ready hs
  have hwritten : ∀ a, a < fbSize → Memory.read z.fb a = some 0x00 := fun a ha => by
    rw [hfill.contents, if_pos (List.mem_range.2 ha)]
  have hvalue : ∀ a, a < fbSize → readInTurn z.fb z.draws a = 0x00 := fun a ha => readInTurn_written _ (hwritten a ha)
  obtain ⟨t, ht, hst⟩ := refreshBody_streamed hready
  have hlast := hst.sentLast hready.toOwnsPins (refreshStream_getLast? _ _)
  rw [hvalue (fbSize - 1) (by decide)] at hlast
  refine ⟨t, by rw [clearBody, runAll_step hzero, runAll_step ht, runAll_nil], hframe.trans hst.busFrame,
    ⟨hframe.params ▸ hlast.dc, hlast.clk, hlast.dout, hlast.rst.trans (hfill.lines .rst)⟩, ?_, fun a ha => ?_,
    fun a ha => ?_, ?_, ?_⟩
  · rw [hst.trace_eq, hfill.trace, refreshEvents_congr _ _ _ hvalue, hframe.params, hframe.pinreg, hframe.dlyCfg,
      fillEvents]
  · rw [hst.fb_eq, hwritten a ha]
  · rw [hst.fb_eq, hfill.contents, if_neg fun hm => Nat.not_lt.2 ha (List.mem_range.1 hm)]
  · rw [hst]
    exact hfill.lc
  · exact (refreshBody_draws hready (fun a ha => by rw [hwritten a ha]; rfl) ht).trans hfill.draws

theorem clearBody_along {s : State} (h : Steady s) : ∃ (t : State) (v : Nat → Byte), clearBody s = .ok t ∧
    Along (fillEvents .seq 0x00 ++ refreshEvents s.params s.pinreg s.dlyCfg.toNat v) s t := by
  obtain ⟨t, ht, a⟩ := seqZero_along s
  obtain ⟨u, v, hu, b⟩ := refreshBody_along (a.steady h)
  rw [a.params, a.pinreg, a.dlyCfg] at b
  exact ⟨u, v, by rw [clearBody, runAll_step ht, runAll_step hu, runAll_nil], a.trans b⟩

/-- Settles O47: the zeroing leaves REFRESH nothing but zeros to read; among the other agents both go on to their
end. -/
theorem clearZeroesThenRefreshes : Obligations.ClearZeroesThenRefreshes := by
  constructor
  · intro s hmay halone howns
    obtain ⟨u, hrun, hu⟩ := clearBody_alone (Ready.begin halone howns)
    refine ⟨_, exec_guarded rfl rfl hmay howns.prs hrun, ?_⟩
    rw [finish_alone _ _ (hu.ready (.begin halone howns)).agenda]
    refine ⟨?_, hu.zero, hu.beyond, rfl, rfl, hu.lc, hu.draws, hu.toSentLast.command _ _, hu.toBusFrame.command _ _⟩
    rw [respond_trace]
    exact congrArg (· ++ _) hu.trace
  · intro s hmay howns ho
    obtain ⟨u, v, hrun, ha⟩ := clearBody_along (.begin howns ho)
    obtain ⟨t, es, hexec, htrace, hes, hend⟩ :=
      exec_guarded_along (i := .clear) rfl rfl hmay howns.prs hrun ha.of_begin
    exact ⟨t, v, es, hexec, htrace, hes, hend.lc, hend.dead.trans hmay.alive, hend.single⟩

end Sys2Proof.Machine

/-! CONFIGURE with no other agent acting and the four pads free (42_lifecycle_pins.md, R160): the requests, the powered
bus and the cleared display. -/

namespace Sys2Proof.Machine

open Sys2Proof.Config (width height npages fbSize)

/-! ## What a part records on the bus alone -/

/-- What a part records on the bus, with nothing of FB changed. -/
structure Drove (es : List Event) (s t : State) : Prop extends BusFrame s t where
  trace : t.trace = s.trace ++ es
  fb : t.fb = s.fb

theorem Streamed.drove {bytes : List Byte} {es : List Event} {s t : State} (h : Streamed bytes es s t) : Drove es s t :=
  ⟨h.busFrame, h.trace_eq, h.fb_eq⟩

theorem Drove.refl (s : State) : Drove [] s s := ⟨.of_same rfl, (List.append_nil _).symm, rfl⟩

theorem Drove.trans {es fs : List Event} {s t u : State} (h : Drove es s t) (k : Drove fs t u) :
    Drove (es ++ fs) s u :=
  ⟨h.toBusFrame.trans k.toBusFrame, by rw [k.trace, h.trace, List.append_assoc], k.fb.trans h.fb⟩

/-- Alone and with the pads owned, the part goes on and records `es` of the parameters, the pin group and DLY. -/
def Records (p : State → Res) (es : Config.Params → PinGroup → Nat → List Event) : Prop :=
  ∀ s, Ready s → ∃ t, p s = .ok t ∧ Drove (es s.params s.pinreg s.dlyCfg.toNat) s t

theorem Records.nil : Records (runAll []) fun _ _ _ => [] := fun s _ => ⟨s, rfl, .refl s⟩

/-- The parts in order record one after another. -/
theorem Records.cons {p : State → Res} {ps : List (State → Res)}
    {es fs : Config.Params → PinGroup → Nat → List Event} (hp : Records p es) (hps : Records (runAll ps) fs) :
    Records (runAll (p :: ps)) fun c g d => es c g d ++ fs c g d := by
  intro s hs
  obtain ⟨t, ht, h⟩ := hp s hs
  obtain ⟨u, hu, k⟩ := hps t (h.ready hs)
  rw [h.params, h.pinreg, h.dlyCfg] at k
  exact ⟨u, (runAll_step ht).trans hu, h.trans k⟩

theorem pinWrite_records (r : Role) (v : Level) : Records (pinWrite r v) fun _ g _ => [.pin r (g.get r) v] := by
  intro s hs
  have hother : ∀ id, s.pinreg.get r ≠ id → padOf (pinned r v s) id = padOf s id := fun id hid =>
    (getElem?_drivePad s.pads (s.pinreg.get r) id v).trans (if_neg hid.symm)
  refine ⟨_, pinWrite_alone r v hs.toAlone hs.prs (hs.named r), ?_, by simp [State.trace, pinned], rfl⟩
  exact ⟨rfl, rfl, rfl, rfl, rfl, rfl, rfl, rfl, rfl, rfl, rfl, rfl, rfl, rfl, fun id hid => hother id (hid r),
    fun id => owner_drivePad s.pads (s.pinreg.get r) id v⟩

/-- The select line at its idle level. -/
theorem selectData_records : Records (selectWrite true) fun p g _ => [.pin .dc (g.get .dc) p.dcData] := fun s hs =>
  pinWrite_records .dc s.params.dcData s hs

theorem wait_records (d : Config.Params → Nat) :
    Records (fun s => wait (d s.params) s) fun p _ _ => delayEvents (d p) := fun s hs =>
  ⟨_, wait_alone _ hs.agenda, .of_same rfl, by simp [State.trace, delayEvents_reverse], rfl⟩

theorem sendSeq_records (bytes : Config.Params → List Byte) (isData : Bool) :
    Records (fun s => sendSeq (bytes s.params) isData s) fun p g d => bytesEvents p g d (bytes p) isData := by
  intro s hs
  obtain ⟨t, ht, hst, -⟩ := sendSeq_streamed hs (bytes s.params) isData
  exact ⟨t, ht, hst.drove⟩

theorem setLc_records (l : Lifecycle) : Records (update (setLc l)) fun _ _ _ => [] := fun _ _ =>
  ⟨_, rfl, .of_same rfl, (List.append_nil _).symm, rfl⟩

/-- The events of the idle levels, the reset pulse and the initialisation sequence (R135, R137). -/
def powerOnEvents (p : Config.Params) (g : PinGroup) (d : Nat) : List Event :=
  [.pin .clk g.clk true, .pin .dout g.dout true, .pin .rst g.rst true, .pin .dc g.dc p.dcData,
    .pin .rst g.rst false] ++ delayEvents p.tResetLow ++ [.pin .rst g.rst true] ++ delayEvents p.tResetHigh ++
    bytesEvents p g d p.initSeq false

theorem idleLevels_records : Records idleLevels fun p g _ =>
    [.pin .clk g.clk true, .pin .dout g.dout true, .pin .rst g.rst true, .pin .dc g.dc p.dcData] :=
  (pinWrite_records .clk true).cons <| (pinWrite_records .dout true).cons <| (pinWrite_records .rst true).cons <|
    selectData_records.cons .nil

theorem powerOn_records : Records powerOn fun p g d => [.pin .rst g.rst false] ++ delayEvents p.tResetLow ++
    [.pin .rst g.rst true] ++ delayEvents p.tResetHigh ++ bytesEvents p g d p.initSeq false := by
  have h := (pinWrite_records .rst false).cons <| (wait_records Config.Params.tResetLow).cons <|
    (pinWrite_records .rst true).cons <| (wait_records Config.Params.tResetHigh).cons <|
    (sendSeq_records Config.Params.initSeq false).cons <| (setLc_records .initialized).cons .nil
  simp only [List.append_nil, ← List.append_assoc] at h
  exact h

/-- The part of the bring-up between the requests and `CFG <- 1`. -/
theorem poweredOn_records :
    Records (runAll [idleLevels, update (setLc .pinsAcquired), powerOn]) powerOnEvents := by
  intro s hs
  obtain ⟨t, ht, h⟩ := (idleLevels_records.cons ((setLc_records .pinsAcquired).cons (powerOn_records.cons .nil))) s hs
  refine ⟨t, ht, h.toBusFrame, ?_, h.fb⟩
  rw [h.trace]
  simp [powerOnEvents]

/-! ## The four requests granted (R131, R133) -/

/-- The state after the granted request of a role whose pad rests as `p`: its drive stays (R131, R133). -/
def grantedPad (r : Role) (p : Pad) (s : State) : State :=
  setPrs r (emit (.acquire (s.pinreg.get r) true) (setPad (s.pinreg.get r) { p with owner := .self } s))

theorem acquireRole_grants {r : Role} {p : Pad} {s : State} (h : s.inp.agenda = [])
    (hp : padOf s (s.pinreg.get r) = some p) (hfree : p.owner = .free) : acquireRole r s = .ok (grantedPad r p s) := by
  simp [acquireRole, boundary_of_nil .seq h, hp, hfree, grantedPad]

theorem padOf_grantedPad {r : Role} {p : Pad} {s : State} (hp : padOf s (s.pinreg.get r) = some p) (id : PinId) :
    padOf (grantedPad r p s) id = if id = s.pinreg.get r then some { p with owner := .self } else padOf s id :=
  (padOf_setPad _ id _ s).trans (by rw [hp, Option.map_some])

/-- The requests of some roles have been granted, whatever their pads' drive. -/
structure Acquired (rs : List Role) (s t : State) : Prop where
  same : t = { s with
    prs := rs.foldl prsSet s.prs
    pads := t.pads
    traceRev := (rs.map fun r => Event.acquire (s.pinreg.get r) true).reverse ++ s.traceRev }
  owned : ∀ r ∈ rs, ownsPad t (s.pinreg.get r)
  otherPads : ∀ id, (∀ r ∈ rs, s.pinreg.get r ≠ id) → padOf t id = padOf s id

theorem acquireRoles_free (rs : List Role) (hnodup : rs.Nodup) {s : State} (hag : s.inp.agenda = [])
    (hdistinct : ∀ r q, s.pinreg.get r = s.pinreg.get q → r = q) (hfree : ∀ r ∈ rs, padFree s r) :
    ∃ t, runAll (rs.map acquireRole) s = .ok t ∧ Acquired rs s t := by
  induction rs generalizing s with
  | nil => exact ⟨s, rfl, rfl, by simp, fun _ _ => rfl⟩
  | cons r rs ih =>
    obtain ⟨hr, hnodup'⟩ := List.nodup_cons.1 hnodup
    have hne : ∀ q ∈ rs, s.pinreg.get q ≠ s.pinreg.get r := fun q hq he => hr (hdistinct q r he ▸ hq)
    obtain ⟨p, hp, hpfree⟩ := Option.map_eq_some_iff.1 (hfree r (by simp))
    have hpad := padOf_grantedPad hp
    obtain ⟨t, ht, h⟩ := ih hnodup' (s := grantedPad r p s) hag hdistinct fun q hq => by
      show (padOf _ (s.pinreg.get q)).map Pad.owner = _
      rw [hpad, if_neg (hne q hq)]
      exact hfree q (List.mem_cons_of_mem _ hq)
    refine ⟨t, (runAll_step (acquireRole_grants hag hp hpfree)).trans ht, ?_, fun q hq => ?_, fun id hid => ?_⟩
    · refine h.same.trans ?_
      simp [grantedPad, setPrs, emit, setPad]
    · rcases List.mem_cons.1 hq with rfl | hq
      · show (padOf t _).map Pad.owner = _
        rw [h.otherPads _ hne, hpad, if_pos rfl, Option.map_some]
      · exact h.owned q hq
    · rw [h.otherPads id fun q hq => hid q (List.mem_cons_of_mem _ hq), hpad, if_neg (hid r (by simp)).symm]

theorem Acquired.ready {s t : State} (h : Acquired allRoles s t) (halone : Alone s) (hprs : s.prs = 0)
    (hnamed : ∀ r, s.pinreg.get r ≠ pinNone) (hdistinct : ∀ r q, s.pinreg.get r = s.pinreg.get q → r = q) :
    Ready t := by
  rw [h.same, hprs]
  exact ⟨⟨halone.agenda, halone.oracle⟩, ⟨rfl, hnamed, hdistinct⟩⟩

/-! ## The bring-up (R160) -/

theorem bringUp_eq (s : State) : bringUp s = (runAll (allRoles.map acquireRole) s).andThen fun u =>
    (runAll [idleLevels, update (setLc .pinsAcquired), powerOn] u).andThen
      (runAll [update fun s => { s with cfg := true }, clearBody]) := by
  rw [bringUp, runAll_cons, acquirePins_eq, Res.andThen_assoc]
  congr 1
  funext u
  exact (runAll_append [idleLevels, update (setLc .pinsAcquired)] [powerOn, _, clearBody] u).symm.trans
    (runAll_append [idleLevels, update (setLc .pinsAcquired), powerOn] _ u)

/-- CFG is outside what is done on the bus. -/
theorem BusFrame.setCfg {s t : State} (h : BusFrame s t) (c : Bool) :
    BusFrame { s with cfg := c } { t with cfg := c } :=
  ⟨h.pinreg, h.prs, rfl, h.slock, h.owner, h.mapped, h.rbusy, h.ras, h.tdreq, h.dead, h.dlyCfg, h.params, h.inp,
    h.extByte, h.otherPads, h.padOwners⟩

/-- What the bring-up does to a block with the pads acquired (R137, R160, R164). -/
structure BroughtUp (s t : State) : Prop extends BusFrame { s with cfg := true } t where
  trace : t.trace = s.trace ++ powerOnEvents s.params s.pinreg s.dlyCfg.toNat ++ fillEvents .seq 0x00 ++
    refreshEvents s.params s.pinreg s.dlyCfg.toNat fun _ => 0x00
  zero : ∀ a, a < fbSize → Memory.read t.fb a = some 0x00
  beyond : ∀ a, fbSize ≤ a → Memory.read t.fb a = Memory.read s.fb a
  dout : line t .dout = .driven false

theorem bringUp_alone {s : State} (halone : Alone s) (hprs : s.prs = 0) (hnamed : ∀ r, s.pinreg.get r ≠ pinNone)
    (hdistinct : ∀ r q, s.pinreg.get r = s.pinreg.get q → r = q) (hfree : ∀ r, padFree s r) :
    ∃ u t, bringUp s = .ok t ∧ Acquired allRoles s u ∧ BroughtUp u t := by
  obtain ⟨u, hu, hacq⟩ := acquireRoles_free allRoles (by decide) halone.agenda hdistinct fun r _ => hfree r
  have hready := hacq.ready halone hprs hnamed hdistinct
  obtain ⟨w, hw, hdrove⟩ := poweredOn_records u hready
  have hframe := hdrove.toBusFrame.setCfg true
  obtain ⟨t, ht, hclear⟩ := clearBody_alone (s := { w with cfg := true })
    (hframe.ready ⟨⟨hready.agenda, hready.oracle⟩, ⟨hready.prs, hready.named, hready.distinct⟩⟩)
  refine ⟨u, t, ?_, hacq, hframe.trans hclear.toBusFrame, ?_, hclear.zero,
    fun a ha => (hclear.beyond a ha).trans (by rw [← hdrove.fb]), hclear.dout⟩
  · rw [bringUp_eq, hu, Res.andThen_ok, hw, Res.andThen_ok, runAll_step (update_apply _ _), runAll_step ht, runAll_nil]
  · have htrace : ({ w with cfg := true } : State).trace = w.trace := rfl
    rw [hclear.trace, htrace, hdrove.trace, hframe.params, hframe.pinreg, hframe.dlyCfg]

/-- Settles O43: the requests are granted, the bus is powered on and the cleared framebuffer is sent. -/
theorem configureBringsTheDisplayUp : Obligations.ConfigureBringsTheDisplayUp := by
  intro s clk dout rst dc hmay halone hcfg hprs hnodup hids hfree
  have hvalid : validatePins clk dout rst dc (begin s) = true := validatePins_iff.2 ⟨hnodup, hids⟩
  obtain ⟨hnamed, hdistinct⟩ := validatePins_spec hvalid
  have hroles : allRoles.map (PinGroup.mk clk dout rst dc).get = [clk, dout, rst, dc] := rfl
  have hrole : ∀ r, (PinGroup.mk clk dout rst dc).get r ∈ [clk, dout, rst, dc] := fun r => by
    rw [← hroles]
    exact List.mem_map_of_mem (by cases r <;> decide)
  obtain ⟨u, t, hrun, hacq, hup⟩ := bringUp_alone (s := setPinreg ⟨clk, dout, rst, dc⟩ (begin s))
    ⟨halone.agenda, halone.oracle⟩ hprs hnamed hdistinct fun r => hfree _ (hrole r)
  obtain ⟨hidle, hcfg', hlc, hreg⟩ := (bringUp_ends (by exact hnamed) (by exact hdistinct)
    (by exact halone.oracle)).goesOn t hrun
  have hbody : configureBody clk dout rst dc (begin s) = .ok t := by
    rw [setPinreg] at hrun
    rw [configureBody, if_neg (by simp [hcfg]), if_neg (by simp [hvalid]), hrun]
  rw [hacq.same] at hup
  have hinp : t.inp = s.inp := hup.inp
  have hexec : exec (.configure clk dout rst dc) s = .next (respond 0x03 .ok t) := by
    rw [exec_of_owner rfl hmay, controlBody, hbody, conclude, finish_alone _ _ (hinp ▸ halone.agenda)]
    rfl
  refine ⟨_, hexec, ⟨?_, hreg⟩, hidle.prs, hcfg', hlc, rfl, rfl, hup.zero, hup.beyond, fun id hid => ?_,
    fun id hid => ?_, hidle.clk, hidle.rst, ?_, hup.dout, hup.slock, hup.owner, hup.mapped, hup.ras, hup.rbusy,
    hup.tdreq, hup.dead, hup.dlyCfg, hup.params, hinp, hup.extByte⟩
  · rw [respond_trace, hup.trace]
    simp [State.trace, powerOnEvents, setPinreg, PinGroup.get, Code.byte]
  · obtain ⟨r, hr, rfl⟩ := List.mem_map.1 (hroles ▸ hid)
    exact (hup.padOwners _).trans (hacq.owned r hr)
  · have hne : ∀ r, (PinGroup.mk clk dout rst dc).get r ≠ id := fun r he => hid (he ▸ hrole r)
    exact (hup.otherPads id hne).trans (hacq.otherPads id fun r _ => hne r)
  · exact hidle.dc.trans (by rw [hup.params]; rfl)

end Sys2Proof.Machine

/-! The session interface (44_session_interface.md): the commands answered from the flags alone, and BULK_WRITE. -/

namespace Sys2Proof.Machine

open Sys2Proof.Config (fbSize)

/-! ## A control command from its body to its response (R165, R205) -/

theorem sessionOk_eq_false {s : State} (h : s.slock = false ∨ s.inp.cid ≠ s.owner) : sessionOk s = false := by
  rcases h with h | h <;> simp [sessionOk, h]

section
variable {i : Instr} {s : State} (hport : i.port = .control) (hdead : s.dead = false)
include hport hdead

/-- Without the session a command that needs it is answered at once (R205). -/
theorem exec_noSession (hneeds : needsSession i = true) (hsession : sessionOk s = false) :
    exec i s = .next (answered (controlOpcode i) 0x09 (begin s)) := by
  rw [exec_eq_controlFrame hport, controlFrame, hdead, hneeds, hsession]
  rfl

variable {u : State} (hsession : needsSession i = true → sessionOk s = true)
include hsession

/-- A body that goes on to its end is answered with OK. -/
theorem exec_answersOk (hbody : controlBody i (begin s) = .ok u) :
    exec i s = .next (answered (controlOpcode i) 0x00 u) := by
  rw [exec_eq_controlFrame hport, controlFrame_runs hdead hsession, hbody]
  rfl

/-- The same with no other agent acting before the response. -/
theorem exec_respondsOk (hbody : controlBody i (begin s) = .ok u) (hag : u.inp.agenda = []) :
    exec i s = .next (respond (controlOpcode i) .ok u) := by
  rw [← finish_alone _ _ hag]
  exact exec_answersOk hport hdead hsession hbody

/-- A body that raises an error is answered with its code (R203). -/
theorem exec_answersError {c : Code} (hbody : controlBody i (begin s) = .raise c u) :
    exec i s = .next (answered (controlOpcode i) c.byte u) := by
  rw [exec_eq_controlFrame hport, controlFrame_runs hdead hsession, hbody]
  rfl

end

/-! ## SESSION_OPEN, SESSION_CLOSE by others and QUERY_INFO (R180, R182, R185) -/

/-- Settles O31: the body is one test of SLOCK. -/
theorem sessionOpenTakesTheLockOrFails : Obligations.SessionOpenTakesTheLockOrFails := by
  refine ⟨decodeCommand_of_encode rfl rfl, fun s hdead => ⟨fun hfree => ⟨none, ?_⟩, fun hheld => ⟨none, ?_⟩⟩⟩
  · have hbody : openBody (begin s) = .ok { begin s with slock := true, owner := s.inp.cid } :=
      if_neg (by simp [hfree])
    exact exec_answersOk (i := .sessionOpen) rfl hdead nofun hbody
  · have hbody : openBody (begin s) = .raise .busy (begin s) := if_pos hheld
    exact exec_answersError (i := .sessionOpen) rfl hdead nofun hbody

/-- Settles O34: the body tests the session first and ends there. -/
theorem sessionCloseByOthersIsANoOp : Obligations.SessionCloseByOthersIsANoOp := by
  intro s hdead hother
  have hsession : sessionOk (begin s) = false := sessionOk_eq_false hother
  have hbody : sessionCloseBody (begin s) = .ok (begin s) := if_neg (by simp [hsession])
  exact exec_answersOk (i := .sessionClose) rfl hdead nofun hbody

/-- Settles O39: the body writes the three numbers and looks at nothing. -/
theorem queryInfoAnswersTheSizes : Obligations.QueryInfoAnswersTheSizes :=
  ⟨decodeCommand_of_encode rfl rfl, fun _ hdead => exec_answersOk (i := .queryInfo) rfl hdead nofun rfl⟩

/-! ## MAP_FB (R183) -/

/-- MAP_SIZE is the least multiple of the granule that is not below FBSIZE. -/
theorem mapSize_spec (p : Config.Params) (h : 0 < p.mapGranule) :
    p.mapSize % p.mapGranule = 0 ∧ fbSize ≤ p.mapSize ∧ p.mapSize < fbSize + p.mapGranule := by
  have hsplit := Nat.div_add_mod' (fbSize + p.mapGranule - 1) p.mapGranule
  have hrest := Nat.mod_lt (fbSize + p.mapGranule - 1) h
  refine ⟨Nat.mul_mod_left _ _, ?_, ?_⟩ <;> unfold Config.Params.mapSize <;> omega

/-- Settles O37: the body's two tests in their order. -/
theorem mapFbChecksSizeThenMapping : Obligations.MapFbChecksSizeThenMapping := by
  refine ⟨fun size => decodeCommand_of_encode (i := .mapFb size) rfl rfl, mapSize_spec,
    fun s size hdead hsession => ⟨none, exec_noSession rfl hdead rfl hsession⟩,
    fun s size hmay => ⟨fun hsize => ⟨none, ?_⟩, fun hsize hmapped => ⟨none, ?_⟩, fun hsize hunmapped => ⟨none, ?_⟩⟩⟩
  · have hbody : mapBody size (begin s) = .raise .sizeMismatch (begin s) := if_pos hsize
    exact exec_answersError (i := .mapFb size) rfl hmay.alive (fun _ => hmay.session) hbody
  · have hbody : mapBody size (begin s) = .raise .alreadyMapped (begin s) :=
      (if_neg (not_not_intro hsize)).trans (if_pos hmapped)
    exact exec_answersError (i := .mapFb size) rfl hmay.alive (fun _ => hmay.session) hbody
  · have hbody : mapBody size (begin s) = .ok { begin s with mapped := true } :=
      (if_neg (not_not_intro hsize)).trans (if_neg (by simp [hunmapped]))
    exact exec_answersOk (i := .mapFb size) rfl hmay.alive (fun _ => hmay.session) hbody

/-! ## BULK_WRITE (R184) -/

/-- The framebuffer after a payload is written from address `a` up. -/
def payloadStored : Nat → List Byte → Memory → Memory
  | _, [], m => m
  | a, d :: ds, m => payloadStored (a + 1) ds (Memory.write m a d)

theorem read_payloadStored_outside {a b : Nat} {payload : List Byte} (h : b < a ∨ a + payload.length ≤ b)
    (m : Memory) : Memory.read (payloadStored a payload m) b = Memory.read m b := by
  induction payload generalizing a m with
  | nil => rfl
  | cons d ds ih =>
    rw [List.length_cons] at h
    rw [payloadStored, ih (by omega), Memory.read_write_other m d (by omega)]

theorem read_payloadStored_inside {a k : Nat} {payload : List Byte} (h : k < payload.length) (m : Memory) :
    Memory.read (payloadStored a payload m) (a + k) = payload[k]? := by
  induction payload generalizing a k m with
  | nil => simp at h
  | cons d ds ih =>
    rw [payloadStored]
    cases k with
    | zero =>
      rw [read_payloadStored_outside (by omega), Nat.add_zero, Memory.read_write_same]
      rfl
    | succ k =>
      rw [show a + (k + 1) = a + 1 + k by omega, ih (by simpa using h)]
      rfl

/-- The state after a payload is written from address `a` up, ascending. -/
def payloadWritten (a : Nat) (payload : List Byte) (s : State) : State :=
  { s with
    fb := payloadStored a payload s.fb
    traceRev := ((payload.zipIdx a).map fun d => Event.fbWrite .seq d.2 d.1).reverse ++ s.traceRev }

theorem writeBytes_alone {a : Nat} {payload : List Byte} {s : State} (hag : s.inp.agenda = [])
    (hroom : a + payload.length ≤ fbSize) : writeBytes a payload s = .ok (payloadWritten a payload s) := by
  induction payload generalizing a s with
  | nil => rfl
  | cons d ds ih =>
    rw [List.length_cons] at hroom
    rw [writeBytes, seqWrite_alone d hag (by omega), Res.andThen_ok, ih (by exact hag) (by omega)]
    simp [payloadWritten, payloadStored, memWrite, emit]

/-- Settles O38: the sum is tested before the first write, and the payload is written byte after byte. -/
theorem bulkWriteCopiesOrRejects : Obligations.BulkWriteCopiesOrRejects := by
  refine ⟨fun off len payload hlen => decodeCommand_of_encode (i := .bulkWrite off len payload) ?_ rfl,
    fun s off len payload hdead hsession => ⟨none, exec_noSession rfl hdead rfl hsession⟩,
    fun s off len payload hmay hag hlen hroom => ?_, fun s off len payload hmay hover => ⟨none, ?_⟩⟩
  · simpa [Instr.wellFormed] using hlen
  · have hbody : bulkBody off len payload (begin s) = .ok (payloadWritten off.toNat payload (begin s)) :=
      (if_neg (Nat.not_lt.2 hroom)).trans (writeBytes_alone hag (hlen ▸ hroom))
    refine ⟨payloadStored off.toNat payload s.fb, none, ?_,
      fun k hk => read_payloadStored_inside (hlen ▸ hk) s.fb, fun a ha => read_payloadStored_outside (hlen ▸ ha) s.fb⟩
    exact exec_respondsOk (i := .bulkWrite off len payload) rfl hmay.alive (fun _ => hmay.session) hbody hag
  · have hbody : bulkBody off len payload (begin s) = .raise .boundary (begin s) := if_pos hover
    exact exec_answersError (i := .bulkWrite off len payload) rfl hmay.alive (fun _ => hmay.session) hbody

end Sys2Proof.Machine

/-! The end of a session with no other agent acting (R182, R187): the power-down, the four releases, the flags. -/

namespace Sys2Proof.Machine

/-! ## The releases (R134) -/

/-- The roles of a list, in its order, have been released where PRS marks them, and their registers cleared. -/
structure GaveBack (rs : List Role) (s t : State) : Prop where
  same : t = { s with
    prs := t.prs
    pinreg := t.pinreg
    pads := t.pads
    traceRev := ((rs.filter (prsBit s.prs)).map fun r => Event.release (s.pinreg.get r)).reverse ++ s.traceRev }
  otherRoles : ∀ q, q ∉ rs → prsBit t.prs q = prsBit s.prs q ∧ t.pinreg.get q = s.pinreg.get q
  freed : ∀ r ∈ rs, prsBit s.prs r = true → padOf t (s.pinreg.get r) = some ⟨.free, .z⟩
  otherPads : ∀ id, (∀ r ∈ rs, prsBit s.prs r = true → s.pinreg.get r ≠ id) → padOf t id = padOf s id

theorem GaveBack.nil (s : State) : GaveBack [] s s := ⟨rfl, fun _ _ => ⟨rfl, rfl⟩, by simp, fun _ _ => rfl⟩

theorem givenBack_gaveBack {r : Role} {s : State} {p : Pad} (hbit : prsBit s.prs r = true)
    (hp : padOf s (s.pinreg.get r) = some p) : GaveBack [r] s (givenBack r s) := by
  have hpad : ∀ id, padOf (givenBack r s) id = if id = s.pinreg.get r then some ⟨.free, .z⟩ else padOf s id :=
    fun id => (padOf_setPad _ id _ s).trans (by rw [hp, Option.map_some])
  refine ⟨by simp [givenBack, clearPin, clearPrs, emit, setPad, hbit], fun q hq => ?_, fun q hq _ => ?_,
    fun id hid => ?_⟩
  · have hqr : q ≠ r := by simpa using hq
    exact ⟨(prsBit_prsClear _ _ _).trans (by simp [hqr]), PinGroup.get_put_other _ _ hqr⟩
  · rw [List.mem_singleton.1 hq, hpad, if_pos rfl]
  · rw [hpad, if_neg (hid r (by simp) hbit).symm]

theorem clearPin_gaveBack {r : Role} {s : State} (hbit : prsBit s.prs r = false) : GaveBack [r] s (clearPin r s) := by
  refine ⟨by simp [clearPin, hbit], fun q hq => ⟨rfl, PinGroup.get_put_other _ _ (by simpa using hq)⟩, ?_,
    fun _ _ => rfl⟩
  simp [hbit]

theorem releaseRole_alone {r : Role} {s : State} (hag : s.inp.agenda = [])
    (hnamed : prsBit s.prs r = true → s.pinreg.get r ≠ pinNone) :
    ∃ t, releaseRole r s = .ok t ∧ GaveBack [r] s t := by
  cases hbit : prsBit s.prs r with
  | false => exact ⟨_, releaseRole_unheld hbit, clearPin_gaveBack hbit⟩
  | true =>
    obtain ⟨p, hp⟩ := padOf_isSome (s := s) (hnamed hbit)
    exact ⟨_, releaseRole_held hag hbit hp, givenBack_gaveBack hbit hp⟩

/-- One release and then those of other roles, which may free the same pad once more. -/
theorem GaveBack.cons {r : Role} {rs : List Role} {s t u : State} (hr : r ∉ rs) (h : GaveBack [r] s t)
    (k : GaveBack rs t u) : GaveBack (r :: rs) s u := by
  have hrs : ∀ q ∈ rs, prsBit t.prs q = prsBit s.prs q ∧ t.pinreg.get q = s.pinreg.get q := fun q hq =>
    h.otherRoles q fun hm => hr (List.mem_singleton.1 hm ▸ hq)
  have hfilter : rs.filter (prsBit t.prs) = rs.filter (prsBit s.prs) :=
    List.filter_congr fun q hq => (hrs q hq).1
  have hevents : (rs.filter (prsBit s.prs)).map (fun q => Event.release (t.pinreg.get q)) =
      (rs.filter (prsBit s.prs)).map fun q => Event.release (s.pinreg.get q) :=
    List.map_congr_left fun q hq => by rw [(hrs q (List.mem_of_mem_filter hq)).2]
  have hfreed : ∀ q ∈ rs, prsBit s.prs q = true → padOf u (s.pinreg.get q) = some ⟨.free, .z⟩ := fun q hq hbit => by
    obtain ⟨hprs, hreg⟩ := hrs q hq
    exact hreg ▸ k.freed q hq (hprs.trans hbit)
  have hother : ∀ id, (∀ q ∈ rs, prsBit s.prs q = true → s.pinreg.get q ≠ id) → padOf u id = padOf t id :=
    fun id hid => k.otherPads id fun q hq hbit => by
      obtain ⟨hprs, hreg⟩ := hrs q hq
      exact hreg ▸ hid q hq (hprs.symm.trans hbit)
  refine ⟨?_, fun q hq => ?_, fun q hq hbit => ?_, fun id hid => ?_⟩
  · rw [k.same, hfilter, hevents, h.same]
    cases hbit : prsBit s.prs r <;> simp [hbit]
  · obtain ⟨hqr, hqrs⟩ := not_or.1 (mt List.mem_cons.2 hq)
    obtain ⟨hprs, hreg⟩ := k.otherRoles q hqrs
    obtain ⟨hprs', hreg'⟩ := h.otherRoles q (by simpa using hqr)
    exact ⟨hprs.trans hprs', hreg.trans hreg'⟩
  · rcases List.mem_cons.1 hq with rfl | hq
    · by_cases hagain : ∃ q' ∈ rs, prsBit s.prs q' = true ∧ s.pinreg.get q' = s.pinreg.get q
      · obtain ⟨q', hq', hbit', heq⟩ := hagain
        exact heq ▸ hfreed q' hq' hbit'
      · rw [hother _ fun q' hq' hbit' heq => hagain ⟨q', hq', hbit', heq⟩]
        exact h.freed q (by simp) hbit
    · exact hfreed q hq hbit
  · rw [hother id fun q hq => hid q (List.mem_cons_of_mem _ hq)]
    exact h.otherPads id fun q hq => hid q (List.mem_singleton.1 hq ▸ by simp)

theorem releaseRoles_alone (rs : List Role) (hnodup : rs.Nodup) {s : State} (hag : s.inp.agenda = [])
    (hnamed : ∀ r ∈ rs, prsBit s.prs r = true → s.pinreg.get r ≠ pinNone) :
    ∃ t, runAll (rs.map releaseRole) s = .ok t ∧ GaveBack rs s t := by
  induction rs generalizing s with
  | nil => exact ⟨s, rfl, .nil s⟩
  | cons r rs ih =>
    obtain ⟨hr, hnodup'⟩ := List.nodup_cons.1 hnodup
    obtain ⟨t, ht, h⟩ := releaseRole_alone hag (hnamed r (by simp))
    have hinp : t.inp = s.inp := by rw [h.same]
    obtain ⟨u, hu, k⟩ := ih hnodup' (s := t) (hinp ▸ hag) fun q hq hbit => by
      obtain ⟨hprs, hreg⟩ := h.otherRoles q fun hm => hr (List.mem_singleton.1 hm ▸ hq)
      exact hreg ▸ hnamed q (List.mem_cons_of_mem _ hq) (hprs.symm.trans hbit)
    exact ⟨u, (runAll_step ht).trans hu, h.cons hr k⟩

/-! ## The power-down (R182) -/

/-- The power-down happens: the four pads are held and the platform asks for it. -/
abbrev PowersDown (s : State) : Prop := s.prs = prsAll ∧ s.params.closePowersDown = true

/-- The events of the power-down, oldest first. -/
def powerDownEvents (s : State) : List Event :=
  if PowersDown s then bytesEvents s.params s.pinreg s.dlyCfg.toNat s.params.offSeq.toList false else []

/-- The power-down leaves PG, COL and the pads no held role names alone. -/
structure PoweredDown (s t : State) : Prop where
  same : t = { s with seqr := t.seqr, pads := t.pads, traceRev := (powerDownEvents s).reverse ++ s.traceRev }
  pg : t.seqr.pg = s.seqr.pg
  col : t.seqr.col = s.seqr.col
  otherPads : ∀ id, (∀ r, prsBit s.prs r = true → s.pinreg.get r ≠ id) → padOf t id = padOf s id

theorem HeldPins.ready {s : State} (h : HeldPins s) (halone : Alone s) (hprs : s.prs = prsAll) : Ready s :=
  ⟨halone, hprs, fun r => h.named r (hprs ▸ prsBit_prsAll r), h.distinct hprs⟩

theorem powerDown_alone {s : State} (halone : Alone s) (hheld : HeldPins s) :
    ∃ t, powerDown s = .ok t ∧ PoweredDown s t := by
  by_cases hdown : PowersDown s
  · obtain ⟨hprs, hparam⟩ := hdown
    obtain ⟨q, hsend, hpg, hcol⟩ := sendSeqFrom_ready (hheld.ready halone hprs) false 0 s.params.offSeq.toList
    refine ⟨_, (if_pos (by simp [guardOk, hprs, hparam])).trans hsend, ?_, hpg, hcol, fun id hid => ?_⟩
    · rw [powerDownEvents, if_pos ⟨hprs, hparam⟩]
      rfl
    · exact getElem?_padsAfter_other _ _ _ fun r => hid r (hprs ▸ prsBit_prsAll r)
  · refine ⟨s, if_neg (by simpa [guardOk] using hdown), ?_, rfl, rfl, fun _ _ => rfl⟩
    rw [powerDownEvents, if_neg hdown]
    rfl

/-! ## CloseBody (R182) -/

/-- The events of the releases in role order, oldest first. -/
def releaseEvents (s : State) : List Event :=
  (allRoles.filter (prsBit s.prs)).map fun r => .release (s.pinreg.get r)

/-- What `CloseBody()` does alone. -/
structure Closed (s t : State) : Prop where
  same : t = { s with
    prs := 0
    pinreg := ⟨pinNone, pinNone, pinNone, pinNone⟩
    cfg := false
    lc := .released
    mapped := false
    slock := false
    seqr := t.seqr
    pads := t.pads
    traceRev := (powerDownEvents s ++ releaseEvents s).reverse ++ s.traceRev }
  pg : t.seqr.pg = s.seqr.pg
  col : t.seqr.col = s.seqr.col
  freed : ∀ r, prsBit s.prs r = true → padOf t (s.pinreg.get r) = some ⟨.free, .z⟩
  otherPads : ∀ id, (∀ r, prsBit s.prs r = true → s.pinreg.get r ≠ id) → padOf t id = padOf s id

theorem mem_allRoles (r : Role) : r ∈ allRoles := by cases r <;> decide

theorem closeBody_alone {s : State} (halone : Alone s) (hheld : HeldPins s) :
    ∃ t, closeBody s = .ok t ∧ Closed s t := by
  obtain ⟨a, ha, hdown⟩ := powerDown_alone halone hheld
  have hsame := hdown.same
  have hprs : a.prs = s.prs := by rw [hsame]
  have hreg : a.pinreg = s.pinreg := by rw [hsame]
  have hag : a.inp.agenda = [] := by rw [hsame]; exact halone.agenda
  obtain ⟨b, hb, hgave⟩ := releaseRoles_alone allRoles (by decide) hag fun r _ =>
    hprs ▸ hreg ▸ hheld.named r
  obtain ⟨-, hprs0, hreg0⟩ := (releasePins_runs a).goesOn b hb
  have hinp : b.inp = a.inp := by rw [hgave.same]
  have hseqr : b.seqr = a.seqr := by rw [hgave.same]
  refine ⟨{ b with cfg := false, lc := .released, mapped := false, slock := false }, ?_, ?_, ?_, ?_, ?_, ?_⟩
  · have hquiet := boundary_of_nil .seq (s := { b with cfg := false, lc := .released }) (hinp ▸ hag)
    rw [closeBody, runAll_step ha, runAll_step (show releasePins a = .ok b from hb)]
    simp [hquiet]
  · rw [hgave.same, hprs0, hreg0, hsame]
    simp [releaseEvents]
  · exact (congrArg SeqRegs.pg hseqr).trans hdown.pg
  · exact (congrArg SeqRegs.col hseqr).trans hdown.col
  · intro r hbit
    exact hreg ▸ hgave.freed r (mem_allRoles r) (hprs ▸ hbit)
  · intro id hid
    exact (hgave.otherPads id fun r _ => hprs ▸ hreg ▸ hid r).trans (hdown.otherPads id hid)

theorem Closed.agenda {s t : State} (h : Closed s t) (hag : s.inp.agenda = []) : t.inp.agenda = [] := by
  rw [h.same]
  exact hag

/-- The response to a closed block (R165). -/
theorem Closed.closedDown {s u : State} (h : Closed s u) (op : Byte) : ClosedDown s (respond op .ok u) op := by
  have hsame := h.same
  have hprs : u.prs = 0 := by rw [hsame]
  have htrace : u.trace = s.trace ++ (powerDownEvents s ++ releaseEvents s) := by
    rw [hsame]
    simp [State.trace]
  have hline : ∀ r, line u r = .z := fun r => by
    rw [line, hprs, prsBit_zero]
    rfl
  refine ⟨?_, rfl, rfl, hprs, ?_, ?_, ?_, ?_, ?_, hline, h.freed, h.otherPads, h.pg, h.col, ?_, ?_, ?_, ?_, ?_⟩
  · rw [respond_trace, htrace, ← List.append_assoc]
    rfl
  all_goals
    rw [hsame]
    rfl

/-- Neither BUSY nor the answer nor TDREQ is looked at. -/
theorem ClosedDown.of_start {s t : State} {op : Byte} {busy tdreq : Bool} {answer : Option Answer}
    (h : ClosedDown { s with busy := busy, tdreq := tdreq, answer := answer } t op) : ClosedDown s t op := { h with }

/-- DEAD, the framebuffer and the rasteriser are left open. -/
theorem ClosedDown.die {s u : State} {op : Byte} (h : ClosedDown s (respond op .ok u) op) :
    ClosedDown s (respond op .ok (die u)) op := { h with }

/-- Settles O35: the owner's command is CloseBody and its response. -/
theorem sessionCloseReleasesEverything : Obligations.SessionCloseReleasesEverything := by
  intro s hmay halone hheld
  obtain ⟨u, hu, hclosed⟩ := closeBody_alone (s := begin s) ⟨halone.agenda, halone.oracle⟩
    ⟨hheld.named, hheld.distinct⟩
  have hbody : sessionCloseBody (begin s) = .ok u := (if_pos hmay.session).trans hu
  refine ⟨_, exec_respondsOk (i := .sessionClose) rfl hmay.alive nofun hbody (hclosed.agenda halone.agenda),
    (hclosed.closedDown 0x02).of_start, ?_⟩
  rw [hclosed.same]
  exact ⟨rfl, rfl, rfl, rfl, rfl, rfl⟩

/-- Settles O36: CloseBody whoever asks, then the end of the block. -/
theorem teardownReleasesEverythingAndDies : Obligations.TeardownReleasesEverythingAndDies := by
  intro s hdead halone hheld
  obtain ⟨u, hu, hclosed⟩ := closeBody_alone (s := { begin s with tdreq := false }) ⟨halone.agenda, halone.oracle⟩
    ⟨hheld.named, hheld.distinct⟩
  have htdreq : u.tdreq = false := by rw [hclosed.same]
  have hbody : teardownBody (begin s) = .ok (die u) := by
    rw [teardownBody, runAll_step (update_apply _ _), runAll_step hu]
    rfl
  exact ⟨_, exec_respondsOk (i := .teardown) rfl hdead nofun hbody (hclosed.agenda halone.agenda),
    .of_start (s := s) (hclosed.closedDown 0x0B).die, rfl, htdreq, rfl, rfl, rfl⟩

end Sys2Proof.Machine

/-! The codes a control command answers (60_exceptions.md): the session check and the errors of each body (R202, R205),
what an error leaves behind (R203, R207), and the teardown request (R210). -/

namespace Sys2Proof.Machine

/-! ## A pending teardown request (R210) -/

/-- Settles O12: the request is tested ahead of the ports' turns. -/
theorem teardownRequestIsTakenFirst : Obligations.TeardownRequestIsTakenFirst := by
  intro s b hdead hb htdreq hbusy
  rw [step_eq_serve hdead hb, serve, if_pos (by rw [htdreq, hbusy]; rfl)]

/-! ## The errors a part raises -/

/-- The part raises no error but those of the list. -/
abbrev Res.RaisesOnly (codes : List Code) (r : Res) : Prop := r.Leads (fun _ => True) fun c _ => c ∈ codes

theorem Res.RaisesOnly.weaken {codes more : List Code} {r : Res} (h : r.RaisesOnly codes) (hsub : codes ⊆ more) :
    r.RaisesOnly more := h.mono (fun _ => id) fun _ _ hc => hsub hc

theorem Res.RaisesOnly.andThen {codes : List Code} {r : Res} {k : State → Res} (h : r.RaisesOnly codes)
    (hk : ∀ t, (k t).RaisesOnly codes) : (r.andThen k).RaisesOnly codes := Res.Leads.andThen h fun t _ => hk t

theorem Res.Runs.raisesOnly {P : State → Prop} {r : Res} (h : r.Runs P) (codes : List Code) : r.RaisesOnly codes :=
  ⟨fun _ _ => trivial, fun c t ht => (h.raises c t ht).elim⟩

/-- On the bus ERR_IO is the only error (R90). -/
theorem Res.KeepsOwners.raisesOnly {s : State} {r : Res} (h : r.KeepsOwners s) : r.RaisesOnly [.io] :=
  h.mono (fun _ _ => trivial) fun _ _ ⟨hc, _⟩ => List.mem_singleton.2 hc

theorem runAll_raisesOnly {codes : List Code} {ps : List (State → Res)} (hp : ∀ p ∈ ps, ∀ s, (p s).RaisesOnly codes)
    (s : State) : (runAll ps s).RaisesOnly codes := by
  induction ps generalizing s with
  | nil => exact .ok trivial
  | cons p ps ih => exact (hp p (by simp) s).andThen (ih fun q hq => hp q (by simp [hq]))

/-! ## The errors of each body (R202) -/

theorem guarded_raisesOnly {body : State → Res} (hbody : ∀ s, (body s).RaisesOnly [.io]) (s : State) :
    (guarded body s).RaisesOnly [.notReady, .io] := by
  unfold guarded
  split
  · exact (hbody s).weaken (by simp)
  · exact .raise (by simp)

theorem sendThenSetLc_raisesOnly (bytes : Config.Params → List Byte) (l : Lifecycle) (s : State) :
    (runAll [fun t => sendSeq (bytes t.params) false t, update (setLc l)] s).RaisesOnly [.io] :=
  (sendSeq_keepsOwners _ false s).raisesOnly.andThen fun _ => .ok trivial

theorem refreshBody_keepsOwners (s : State) : (refreshBody s).KeepsOwners s :=
  runAll_keepsOwners (by simp [refreshPage_keepsOwners]) s

theorem powerDown_keepsOwners (s : State) : (powerDown s).KeepsOwners s := by
  unfold powerDown
  split
  · exact sendSeq_keepsOwners _ false s
  · exact .ok (.refl s)

theorem closeBody_raisesOnly (s : State) : (closeBody s).RaisesOnly [.io] :=
  (powerDown_keepsOwners s).raisesOnly.andThen fun t =>
    ((releasePins_runs t).raisesOnly [.io]).andThen fun _ => .ok trivial

theorem acquireRole_raisesOnly (r : Role) (s : State) : (acquireRole r s).RaisesOnly [.pinUnavailable] := by
  unfold acquireRole
  simp only
  split
  · exact .fault _
  · split
    · exact .ok trivial
    · exact .raise (by simp)

theorem acquirePins_raisesOnly (s : State) : (acquirePins s).RaisesOnly [.pinUnavailable, .io] := by
  have hrequests : (runAll (allRoles.map acquireRole) s).RaisesOnly [.pinUnavailable] :=
    runAll_raisesOnly (by simp [acquireRole_raisesOnly]) s
  rw [acquirePins_eq]
  exact (hrequests.weaken (by simp)).andThen fun t =>
    ((idleLevels_keepsOwners t).raisesOnly.weaken (by simp)).andThen fun _ => .ok trivial

theorem bringUp_raisesOnly (s : State) : (bringUp s).RaisesOnly [.pinUnavailable, .io] := by
  have hafter : ∀ t, (runAll [powerOn, update fun s => { s with cfg := true }, clearBody] t).RaisesOnly [.io] :=
    fun t => (afterAcquire_leads t).mono (fun _ _ => trivial) fun _ _ ⟨hc, _⟩ => List.mem_singleton.2 hc
  exact (acquirePins_raisesOnly s).andThen fun t => (hafter t).weaken (by simp)

/-- The rollback raises no error, so CONFIGURE reports the bring-up's (R136). -/
theorem configureBody_raisesOnly (clk dout rst dc : PinId) (s : State) :
    (configureBody clk dout rst dc s).RaisesOnly [.config, .pinUnavailable, .io] := by
  unfold configureBody
  split
  · exact .ok trivial
  · split
    · exact .raise (by simp)
    · split
      · exact .ok trivial
      · rename_i c t ht
        have hc := (bringUp_raisesOnly _).raises c t ht
        exact ((rollback_runs s.lc t).raisesOnly _).andThen fun _ => .raise (List.mem_cons_of_mem _ hc)
      · exact .fault _

/-- The codes of a command's row (R202) but for the session check's. -/
def bodyCodes (i : Instr) : List Code := (answerable i).filter (· ≠ .noSession)

theorem mem_bodyCodes {i : Instr} {c : Code} : c ∈ bodyCodes i ↔ c ∈ answerable i ∧ c ≠ .noSession := by
  simp [bodyCodes]

theorem controlBody_raisesOnly (i : Instr) (s : State) : (controlBody i s).RaisesOnly (bodyCodes i) := by
  cases i with
  | sessionOpen =>
    show (openBody s).RaisesOnly _
    unfold openBody
    split
    · exact .raise (by decide)
    · exact .ok trivial
  | sessionClose =>
    show (sessionCloseBody s).RaisesOnly _
    unfold sessionCloseBody
    split
    · exact (closeBody_raisesOnly s).weaken (by decide)
    · exact .ok trivial
  | configure clk dout rst dc =>
    exact (configureBody_raisesOnly clk dout rst dc s).weaken (by simp [bodyCodes, answerable])
  | displayOn =>
    exact (guarded_raisesOnly (sendThenSetLc_raisesOnly (fun p => p.onSeq.toList) .opened) s).weaken (by decide)
  | displayOff =>
    exact (guarded_raisesOnly (sendThenSetLc_raisesOnly (fun p => p.offSeq.toList) .closed) s).weaken (by decide)
  | refresh => exact (guarded_raisesOnly (fun u => (refreshBody_keepsOwners u).raisesOnly) s).weaken (by decide)
  | clear => exact (guarded_raisesOnly (fun u => (clearBody_keepsOwners u).raisesOnly) s).weaken (by decide)
  | mapFb size =>
    show (mapBody size s).RaisesOnly _
    unfold mapBody
    split
    · exact .raise (by simp [bodyCodes, answerable])
    · split
      · exact .raise (by simp [bodyCodes, answerable])
      · exact .ok trivial
  | bulkWrite off len payload =>
    show (bulkBody off len payload s).RaisesOnly _
    unfold bulkBody
    split
    · exact .raise (by simp [bodyCodes, answerable])
    · exact (writeBytes_quietly _ payload s).raisesOnly _
  | teardown =>
    exact ((closeBody_raisesOnly { s with tdreq := false }).weaken (by decide)).andThen fun _ => .ok trivial
  | _ => exact .ok trivial

/-! ## The code a command answers (R202, R205) -/

theorem ok_mem_bodyCodes {i : Instr} (h : i.port = .control) : .ok ∈ bodyCodes i := by
  cases i <;> simp only [Instr.port, reduceCtorEq] at h <;> simp [bodyCodes, answerable]

theorem noSession_mem_answerable {i : Instr} (h : needsSession i = true) : .noSession ∈ answerable i := by
  cases i <;> simp only [needsSession, reduceCtorEq] at h <;> simp [answerable]

theorem needsSession_control {i : Instr} (h : needsSession i = true) : i.port = .control := by
  cases i <;> simp only [needsSession, reduceCtorEq] at h <;> rfl

/-- ERR_NO_SESSION is the only code with its number (R200). -/
theorem Code.byte_ne_noSession {c : Code} (h : c ≠ .noSession) : c.byte ≠ 0x09 := by
  revert h
  cases c <;> decide

/-- A control command answers the session check's code where the check fails, and a code of its body otherwise. -/
theorem exec_control_code {i : Instr} {s t : State} (hport : i.port = .control) (h : exec i s = .next t) :
    (needsSession i = true ∧ sessionOk s = false ∧ t.status = Code.noSession.byte) ∨
      ∃ c ∈ bodyCodes i, t.status = c.byte := by
  rw [exec_eq_controlFrame hport] at h
  obtain ⟨-, ⟨hneeds, hsession, rfl⟩ | ⟨-, hbody⟩⟩ := controlFrame_next h
  · exact .inl ⟨hneeds, hsession, rfl⟩
  · obtain ⟨c, u, ⟨-, rfl⟩ | hu, rfl⟩ := conclude_next hbody
    · exact .inr ⟨.ok, ok_mem_bodyCodes hport, rfl⟩
    · exact .inr ⟨c, (controlBody_raisesOnly i (begin s)).raises c u hu, rfl⟩

/-- Settles O57: the session check's code and those of the bodies are the rows of R202. -/
theorem commandsAnswerOnlyTheirCodes : Obligations.CommandsAnswerOnlyTheirCodes := by
  intro i s t hport h
  rcases exec_control_code hport h with ⟨hneeds, -, hst⟩ | ⟨c, hc, hst⟩
  · exact ⟨.noSession, noSession_mem_answerable hneeds, hst⟩
  · exact ⟨c, (mem_bodyCodes.1 hc).1, hst⟩

/-- Settles O32: the check comes before the body, no body raises its code, and the raster frame has no check. -/
theorem sessionCheckDecidesNoSession : Obligations.SessionCheckDecidesNoSession := by
  refine ⟨fun s i hdead hneeds hno => ⟨none, ?_⟩, fun s t i hport hmay h => ?_, fun s i hdead hport => ?_⟩
  · exact exec_noSession (needsSession_control hneeds) hdead hneeds (sessionOk_eq_false hno)
  · rcases exec_control_code hport h with ⟨hneeds, hsession, -⟩ | ⟨c, hc, hst⟩
    · rcases hmay with hfree | ⟨hslock, hcid⟩
      · simp [hfree] at hneeds
      · simp [sessionOk, hslock, hcid] at hsession
    · rw [hst]
      exact Code.byte_ne_noSession (mem_bodyCodes.1 hc).2
  · rw [exec_eq_rasterFrame hport, rasterFrame, hdead]
    exact ⟨_, rfl⟩

/-! ## What a rejected body leaves behind (R203, R207) -/

/-- A request for a pad, granted or refused, or the release of one (R131, R132). -/
def IsPadRequest (e : Event) : Prop := (∃ id ok, e = .acquire id ok) ∨ ∃ id, e = .release id

/-- Only TRACE differs from `s`, by requests and releases of pads. -/
def OnlyRequested (s u : State) : Prop :=
  ∃ es, u = { s with traceRev := es ++ s.traceRev } ∧ ∀ e ∈ es, IsPadRequest e

theorem OnlyRequested.refl (s : State) : OnlyRequested s s := ⟨[], rfl, by simp⟩

/-- Where the part raises an error, it has changed nothing but TRACE. -/
abbrev Res.Rejects (s : State) (r : Res) : Prop := r.Ends (fun _ => True) (OnlyRequested s)

theorem Res.Runs.rejects {P : State → Prop} {s : State} {r : Res} (h : r.Runs P) : r.Rejects s :=
  ⟨fun _ _ => trivial, fun c t ht => (h.raises c t ht).elim⟩

theorem isPadRequest_of_mem_refusedEvents {e : Event} {got : List PinId} {lost : PinId}
    (h : e ∈ refusedEvents got lost) : IsPadRequest e := by
  simp only [refusedEvents, List.mem_append, List.mem_map, List.mem_singleton] at h
  rcases h with (⟨id, -, rfl⟩ | rfl) | ⟨id, -, rfl⟩
  · exact .inl ⟨id, true, rfl⟩
  · exact .inl ⟨lost, false, rfl⟩
  · exact .inr ⟨id, rfl⟩

/-- With PINREG clear before the requests, their rollback leaves nothing but its events (R136). -/
theorem undone_onlyRequested {s : State} (hreg : s.pinreg = ⟨pinNone, pinNone, pinNone, pinNone⟩) (g : PinGroup)
    (got : List Role) (lost : Role) : OnlyRequested s (undone allRoles got lost (setPinreg g s)) := by
  have hunnamed : unnamed allRoles g = s.pinreg := hreg ▸ rfl
  refine ⟨(refusedEvents (got.map g.get) (g.get lost)).reverse, by simp [undone, setPinreg, hunnamed], fun e he => ?_⟩
  exact isPadRequest_of_mem_refusedEvents (List.mem_reverse.1 he)

section
variable {s : State} (k : Standing s) (halone : Alone s)
include k halone

/-- With the pads acquired the bus is idle; where the body raises no error from there, only the guard does (R138). -/
theorem guarded_rejects {body : State → Res} {P : State → Prop} (hbody : BusIdle s → (body s).Runs P) :
    (guarded body s).Rejects s := by
  unfold guarded
  split
  · rename_i hguard
    exact (hbody (k.busIdle halone.oracle (by simpa [guardOk] using hguard))).rejects
  · exact .raise (.refl s)

variable (hrest : ∀ id p, padOf s id = some p → p.owner = .free → p.drv = .z)
include hrest

/-- CONFIGURE alone fails by its validation or at a pad that is taken, and not after its requests (R133, R160). -/
theorem configureBody_rejects (clk dout rst dc : PinId) : (configureBody clk dout rst dc s).Rejects s := by
  by_cases hcfg : s.cfg = true
  · rw [configureBody, if_pos hcfg]
    exact .ok trivial
  rw [Bool.not_eq_true] at hcfg
  obtain ⟨hprs, -, hreg⟩ := k.registers.unconfigured hcfg
  by_cases hvalid : validatePins clk dout rst dc s = true
  · by_cases htaken : ∃ r ∈ allRoles, ¬ padFree (setPinreg ⟨clk, dout, rst, dc⟩ s) r
    · obtain ⟨got, lost, hbody, -⟩ := configureBody_padTaken halone.agenda hcfg hprs hvalid hrest htaken
      rw [hbody]
      exact .raise (undone_onlyRequested hreg _ got lost)
    · obtain ⟨hnamed, hdistinct⟩ := validatePins_spec hvalid
      have hfree : ∀ r, padFree (setPinreg ⟨clk, dout, rst, dc⟩ s) r := fun r =>
        by_contra fun h => htaken ⟨r, mem_allRoles r, h⟩
      obtain ⟨-, t, hup, -⟩ := bringUp_alone (s := setPinreg ⟨clk, dout, rst, dc⟩ s)
        ⟨halone.agenda, halone.oracle⟩ hprs hnamed hdistinct hfree
      rw [setPinreg] at hup
      rw [configureBody, if_neg (by simp [hcfg]), if_neg (by simp [hvalid]), hup]
      exact .ok trivial
  · rw [configureBody_invalid hcfg (by simpa using hvalid)]
    exact .raise (.refl s)

/-- A body that raises an error has requested pads and given them back, and done nothing else. -/
theorem controlBody_rejects (i : Instr) : (controlBody i s).Rejects s := by
  cases i with
  | sessionOpen =>
    show (openBody s).Rejects s
    unfold openBody
    split
    · exact .raise (.refl s)
    · exact .ok trivial
  | sessionClose =>
    show (sessionCloseBody s).Rejects s
    unfold sessionCloseBody
    split
    · exact (closeBody_standing k halone.oracle).rejects
    · exact .ok trivial
  | configure clk dout rst dc => exact configureBody_rejects k halone hrest clk dout rst dc
  | displayOn =>
    exact guarded_rejects k halone fun h => sendThenSetLc_standing k h (fun p => p.onSeq.toList) (.inl rfl)
  | displayOff =>
    exact guarded_rejects k halone fun h => sendThenSetLc_standing k h (fun p => p.offSeq.toList) (.inr rfl)
  | refresh => exact guarded_rejects k halone refreshBody_runs
  | clear => exact guarded_rejects k halone clearBody_runs
  | mapFb size =>
    show (mapBody size s).Rejects s
    unfold mapBody
    split
    · exact .raise (.refl s)
    · split
      · exact .raise (.refl s)
      · exact .ok trivial
  | bulkWrite off len payload =>
    show (bulkBody off len payload s).Rejects s
    unfold bulkBody
    split
    · exact .raise (.refl s)
    · exact (writeBytes_quietly _ payload s).rejects
  | teardown => exact (teardownBody_standing k halone.oracle).rejects
  | _ => exact .ok trivial

end

/-- The response to a rejected command, with no other agent acting before it. -/
theorem finish_onlyRequested {s u : State} (hbusy : s.busy = false) (hag : s.inp.agenda = [])
    (h : OnlyRequested (begin s) u) (op : Byte) (c : Code) :
    ∃ es, finish op c u = { s with status := c.byte, traceRev := es ++ s.traceRev, answer := none } ∧
      ∀ e ∈ es, (∃ id ok, e = .acquire id ok) ∨ (∃ id, e = .release id) ∨ ∃ op code, e = .resp op code := by
  obtain ⟨es, rfl, hes⟩ := h
  refine ⟨.resp op c.byte :: es, ?_, fun e he => ?_⟩
  · rw [finish_alone _ _ (by exact hag)]
    simp [respond, emit, begin, hbusy]
  · rcases List.mem_cons.1 he with rfl | he
    · exact .inr (.inr ⟨_, _, rfl⟩)
    · exact (hes e he).imp id .inl

/-- Settles O59: an error comes before a body touches anything, or after its requests have been rolled back. -/
theorem rejectedCommandsChangeNothing : Obligations.RejectedCommandsChangeNothing := by
  intro i s t hport hinv hag hexec hstatus
  have hrejected : ∃ c u, OnlyRequested (begin s) u ∧ t = finish (controlOpcode i) c u := by
    rw [exec_eq_controlFrame hport] at hexec
    obtain ⟨-, ⟨-, -, ht⟩ | ⟨-, hbody⟩⟩ := controlFrame_next hexec
    · exact ⟨_, _, .refl _, ht⟩
    · obtain ⟨c, u, ⟨-, rfl⟩ | hu, ht⟩ := conclude_next hbody
      · exact absurd (congrArg State.status ht) hstatus
      · have hrejects := controlBody_rejects (begin_standing hinv.standing) ⟨hag, hinv.oracle⟩
          (fun id p hp ho => hinv.undriven id p hp (by simp [ho])) i
        exact ⟨c, u, hrejects.raises c u hu, ht⟩
  obtain ⟨c, u, hu, rfl⟩ := hrejected
  exact finish_onlyRequested hinv.notBusy hag hu _ c

end Sys2Proof.Machine

/-! R256 as a comparison of two runs: two states that agree but for DLY and the Wait events of TRACE are taken by every
part of a command to two such states again, since the delays only record Wait events when no other agent acts in them
(R81, R86). -/

namespace Sys2Proof.Machine

open Sys2Proof.Config (width)

/-! ## States that differ in time alone -/

/-- TRACE without its Wait events. -/
def withoutWaits (es : List Event) : List Event := es.filter fun e => !isWait e

/-- The second state is the first one with another DLY and other Wait events, and no other agent acts. -/
inductive SameButTime (s : State) : State → Prop
  | intro (d : BitVec 32) (es : List Event) (htrace : withoutWaits es = withoutWaits s.traceRev)
      (hag : s.inp.agenda = []) : SameButTime s { s with dlyCfg := d, traceRev := es }

theorem SameButTime.timeless_eq {s u : State} (h : SameButTime s u) : timeless u = timeless s := by
  obtain ⟨d, es, htrace, -⟩ := h
  exact congrArg (fun tr => { s with dlyCfg := 0, traceRev := tr }) htrace

theorem SameButTime.agenda {s u : State} (h : SameButTime s u) : s.inp.agenda = [] ∧ u.inp.agenda = [] := by
  obtain ⟨d, es, -, hag⟩ := h
  exact ⟨hag, hag⟩

theorem SameButTime.pinreg {s u : State} (h : SameButTime s u) : u.pinreg = s.pinreg := by cases h; rfl

theorem SameButTime.ras {s u : State} (h : SameButTime s u) : u.ras = s.ras := by cases h; rfl

theorem SameButTime.dead {s u : State} (h : SameButTime s u) : u.dead = s.dead := by cases h; rfl

theorem SameButTime.padOf {s u : State} (h : SameButTime s u) (id : PinId) : padOf u id = padOf s id := by
  cases h; rfl

theorem sameButTime_withDelay {s : State} (hag : s.inp.agenda = []) (d : BitVec 32) :
    SameButTime s { s with dlyCfg := d } := .intro d s.traceRev rfl hag

theorem withoutWaits_cons {es tr : List Event} (h : withoutWaits es = withoutWaits tr) (e : Event) :
    withoutWaits (e :: es) = withoutWaits (e :: tr) := by
  simp only [withoutWaits, List.filter_cons] at h ⊢
  rw [h]

/-- A delay adds nothing but Wait events (R81). -/
theorem withoutWaits_delayEvents (t : Nat) (es : List Event) :
    withoutWaits (delayEvents t ++ es) = withoutWaits es := by
  unfold delayEvents
  split <;> rfl

/-! ## Updates and parts that do not look at time -/

/-- Two ends of a part that differ in time alone: both go on, both raise the same error, or both are the same fault. -/
inductive Res.SameButTime : Res → Res → Prop
  | ok {s u : State} (h : Machine.SameButTime s u) : Res.SameButTime (.ok s) (.ok u)
  | raise {s u : State} (c : Code) (h : Machine.SameButTime s u) : Res.SameButTime (.raise c s) (.raise c u)
  | fault (f : Fault) : Res.SameButTime (.fault f) (.fault f)

/-- The update takes states that differ in time alone to such states. -/
def BlindUpdate (f : State → State) : Prop := ∀ ⦃s u⦄, SameButTime s u → SameButTime (f s) (f u)

/-- The part takes states that differ in time alone to such ends. -/
def Blind (p : State → Res) : Prop := ∀ ⦃s u⦄, SameButTime s u → (p s).SameButTime (p u)

/-- An update that leaves DLY, TRACE and the agenda alone and commutes with any change of the first two. -/
theorem BlindUpdate.of_commutes {f : State → State}
    (hf : ∀ s d es, f { s with dlyCfg := d, traceRev := es } = { f s with dlyCfg := d, traceRev := es } ∧
      (f s).traceRev = s.traceRev ∧ (f s).inp.agenda = s.inp.agenda) : BlindUpdate f := by
  rintro s _ ⟨d, es, hes, hs⟩
  obtain ⟨hcommutes, htrace, hag⟩ := hf s d es
  rw [hcommutes]
  exact .intro d es (by rw [hes, htrace]) (by rw [hag, hs])

theorem emit_blind (e : Event) : BlindUpdate (emit e) := by
  rintro s _ ⟨d, es, hes, hag⟩
  exact .intro (s := emit e s) d (e :: es) (withoutWaits_cons hes e) hag

theorem Blind.ok : Blind .ok := fun _ _ h => .ok h

theorem Blind.raise (c : Code) : Blind (.raise c) := fun _ _ h => .raise c h

theorem Blind.fault (f : Fault) : Blind fun _ => .fault f := fun _ _ _ => .fault f

@[simp] theorem update_blind {f : State → State} (h : BlindUpdate f) : Blind (update f) := fun _ _ hsu => .ok (h hsu)

/-- A part that first reads something other than DLY and TRACE. -/
theorem Blind.reads {α : Type} {g : State → α} {p : α → State → Res}
    (hg : ∀ s d es, g { s with dlyCfg := d, traceRev := es } = g s) (hp : ∀ a, Blind (p a)) :
    Blind fun s => p (g s) s := by
  rintro s _ ⟨d, es, hes, hag⟩
  simp only [hg]
  exact hp (g s) (.intro d es hes hag)

/-- A part that first tests something other than DLY and TRACE. -/
theorem Blind.tests {c : State → Prop} [∀ s, Decidable (c s)] {p q : State → Res}
    (hc : ∀ s d es, c { s with dlyCfg := d, traceRev := es } = c s) (hp : Blind p) (hq : Blind q) :
    Blind fun s => if c s then p s else q s := by
  rintro s _ ⟨d, es, hes, hag⟩
  simp only [hc]
  split
  · exact hp (.intro d es hes hag)
  · exact hq (.intro d es hes hag)

/-- A part that begins at a boundary, at which no other agent acts. -/
theorem Blind.afterBoundary {p : State → Res} (g : Agent) (hp : Blind p) : Blind fun s => p (boundary g s) := by
  intro s u h
  simp only [boundary_of_nil g h.agenda.1, boundary_of_nil g h.agenda.2]
  exact hp h

/-- A part that begins with an update. -/
theorem Blind.afterUpdate {p : State → Res} {f : State → State} (hp : Blind p) (hf : BlindUpdate f) :
    Blind fun s => p (f s) := fun _ _ h => hp (hf h)

theorem Res.SameButTime.andThen {r r' : Res} {k : State → Res} (h : r.SameButTime r') (hk : Blind k) :
    (r.andThen k).SameButTime (r'.andThen k) := by
  cases h with
  | ok h => exact hk h
  | raise c h => exact .raise c h
  | fault f => exact .fault f

theorem Blind.andThen {p k : State → Res} (hp : Blind p) (hk : Blind k) : Blind fun s => (p s).andThen k :=
  fun _ _ h => (hp h).andThen hk

theorem runAll_blind {ps : List (State → Res)} (hp : ∀ p ∈ ps, Blind p) : Blind (runAll ps) := by
  induction ps with
  | nil => exact .ok
  | cons p ps ih => exact (hp p (by simp)).andThen (ih fun q hq => hp q (by simp [hq]))

/-! ## The micro-steps -/

theorem setPad_blind (id : PinId) (p : Pad) : BlindUpdate (setPad id p) := .of_commutes fun _ _ _ => ⟨rfl, rfl, rfl⟩

theorem memWrite_blind (g : Agent) (a : Nat) (v : Byte) : BlindUpdate (memWrite g a v) := fun _ _ h =>
  emit_blind _ ((BlindUpdate.of_commutes (f := fun s => { s with fb := Memory.write s.fb a v })
    fun _ _ _ => ⟨rfl, rfl, rfl⟩) h)

/-- Reads of states that differ in time alone return the same byte. -/
theorem memRead_blind (a : Nat) {s u : State} (h : SameButTime s u) :
    (memRead a s).1 = (memRead a u).1 ∧ SameButTime (memRead a s).2 (memRead a u).2 := by
  have hfb : u.fb = s.fb := by cases h; rfl
  have hdraws : u.draws = s.draws := by cases h; rfl
  have hdraw : BlindUpdate fun t => { t with draws := s.draws + 1 } := .of_commutes fun _ _ _ => ⟨rfl, rfl, rfl⟩
  cases hr : Memory.read s.fb a with
  | some v =>
    rw [memRead_written hr, memRead_written (hfb ▸ hr)]
    exact ⟨rfl, emit_blind _ h⟩
  | none =>
    rw [memRead_unwritten hr, memRead_unwritten (hfb ▸ hr), hdraws]
    exact ⟨rfl, emit_blind _ (hdraw h)⟩

theorem askOracle_blind {s u : State} (h : SameButTime s u) :
    (askOracle s).1 = (askOracle u).1 ∧ SameButTime (askOracle s).2 (askOracle u).2 := by
  obtain ⟨d, es, hes, hag⟩ := h
  unfold askOracle
  cases s.inp.pinFault with
  | nil => exact ⟨rfl, .intro d es hes hag⟩
  | cons fails rest =>
    exact ⟨rfl, .intro (s := { s with inp := { s.inp with pinFault := rest } }) d es hes hag⟩

theorem pinDrive_blind (r : Role) (v : Level) : Blind (pinDrive r v) := by
  refine .tests (fun _ _ _ => rfl) (.fault _) (.tests (fun _ _ _ => rfl) (.fault _) fun s u h => ?_)
  rw [h.pinreg, h.padOf]
  cases padOf s (s.pinreg.get r) with
  | none => exact .fault _
  | some p =>
    obtain ⟨hanswer, hasked⟩ := askOracle_blind h
    simp only [hanswer]
    split
    · exact .raise _ hasked
    · exact .ok (emit_blind _ (setPad_blind _ _ hasked))

@[simp] theorem pinWrite_blind (r : Role) (v : Level) : Blind (pinWrite r v) := (pinDrive_blind r v).afterBoundary .seq

/-- Waits of any two lengths differ in time alone (R81). -/
theorem wait_sameButTime (t t' : Nat) {s u : State} (h : SameButTime s u) :
    (wait t s).SameButTime (wait t' u) := by
  rw [wait_alone t h.agenda.1, wait_alone t' h.agenda.2]
  obtain ⟨d, es, hes, hag⟩ := h
  refine .ok (.intro (s := { s with traceRev := delayEvents t ++ s.traceRev }) d (delayEvents t' ++ es) ?_ hag)
  rw [withoutWaits_delayEvents, withoutWaits_delayEvents, hes]

@[simp] theorem wait_blind (t : State → Nat) : Blind fun s => wait (t s) s := fun s u => wait_sameButTime (t s) (t u)

@[simp] theorem delay_blind : Blind delay := wait_blind fun s => s.dlyCfg.toNat

theorem seqWrite_blind (a : Nat) (v : Byte) : Blind (seqWrite a v) := by
  refine .tests (fun _ _ _ => rfl) ?_ (.fault _)
  exact (update_blind (memWrite_blind .seq a v)).afterBoundary .seq

theorem seqRead_blind (a : Nat) {k : Byte → State → Res} (hk : ∀ v, Blind (k v)) : Blind (seqRead a k) := by
  refine .tests (fun _ _ _ => rfl) (fun s u h => ?_) (.fault _)
  obtain ⟨hs, hu⟩ := h.agenda
  obtain ⟨hv, hread⟩ := memRead_blind a h
  rw [boundary_of_nil .seq hs, boundary_of_nil .seq hu, ← hv]
  exact hk _ hread

@[simp] theorem seqZero_blind : Blind seqZero := by
  refine runAll_blind fun p hp => ?_
  obtain ⟨a, -, rfl⟩ := List.mem_map.1 hp
  exact seqWrite_blind a 0x00

/-! ## The procedures -/

@[simp] theorem selectWrite_blind (isData : Bool) : Blind (selectWrite isData) :=
  .reads (g := fun s => selectLevel s.params isData) (fun _ _ _ => rfl) (pinWrite_blind .dc)

@[simp] theorem dataWrite_blind : Blind dataWrite :=
  .reads (g := fun s => s.seqr.sr.getLsbD 7) (fun _ _ _ => rfl) (pinWrite_blind .dout)

/-- An update of the sequencer's counters from themselves. -/
theorem setSeqr_blind (q : SeqRegs → SeqRegs) : BlindUpdate fun s => { s with seqr := q s.seqr } :=
  .of_commutes fun _ _ _ => ⟨rfl, rfl, rfl⟩

@[simp] theorem bitCell_blind (i : Nat) : Blind (bitCell i) := by
  have hcnt : BlindUpdate (setBitcnt i) := setSeqr_blind fun q => { q with bitcnt := BitVec.ofNat 3 i }
  have hshift : BlindUpdate shiftSr := setSeqr_blind fun q => { q with sr := q.sr <<< 1 }
  exact runAll_blind (by simp [hcnt, hshift])

theorem sendByte_blind (b : Byte) (isData : Bool) : Blind (sendByte b isData) := by
  have hload : BlindUpdate (loadSr b) := setSeqr_blind fun q => { q with sr := b }
  exact runAll_blind (by simp [hload])

theorem sendSeqFrom_blind (isData : Bool) (k : Nat) (bytes : List Byte) : Blind (sendSeqFrom isData k bytes) := by
  induction bytes generalizing k with
  | nil => exact .ok
  | cons b bs ih =>
    have hidx : BlindUpdate (setIdx k) := setSeqr_blind fun q => { q with idx := BitVec.ofNat 8 k }
    exact ((sendByte_blind b isData).afterUpdate hidx).andThen (ih (k + 1))

/-- A sequence whose bytes are a parameter's (R91). -/
@[simp] theorem sendSeq_blind (bytes : Config.Params → List Byte) (isData : Bool) :
    Blind fun s => sendSeq (bytes s.params) isData s :=
  .reads (g := fun s => bytes s.params) (p := fun bs s => sendSeq bs isData s) (fun _ _ _ => rfl)
    fun bs => sendSeqFrom_blind isData 0 bs

theorem refreshColumn_blind (q col : Nat) : Blind (refreshColumn q col) :=
  (seqRead_blind _ fun v => sendByte_blind v true).afterUpdate
    (setSeqr_blind fun r => { r with col := BitVec.ofNat 7 col })

theorem refreshPage_blind (pg : Nat) : Blind (refreshPage pg) := by
  have hpg : BlindUpdate (setPg pg) := setSeqr_blind fun q => { q with pg := BitVec.ofNat 3 pg }
  have hcolumns : Blind (runAll ((List.range width).map fun col => refreshColumn (fbPageOf pg) col)) :=
    runAll_blind (by simp [refreshColumn_blind])
  exact .tests (fun _ _ _ => rfl) (update_blind hpg)
    (((sendSeq_blind (addressing · pg) false).andThen hcolumns).afterUpdate hpg)

@[simp] theorem refreshBody_blind : Blind refreshBody := runAll_blind (by simp [refreshPage_blind])

@[simp] theorem clearBody_blind : Blind clearBody := runAll_blind (by simp)

/-! ## The pins -/

@[simp] theorem setLc_blind (l : Lifecycle) : BlindUpdate (setLc l) := .of_commutes fun _ _ _ => ⟨rfl, rfl, rfl⟩

theorem setPrs_blind (r : Role) : BlindUpdate (setPrs r) := .of_commutes fun _ _ _ => ⟨rfl, rfl, rfl⟩

theorem clearPrs_blind (r : Role) : BlindUpdate (clearPrs r) := .of_commutes fun _ _ _ => ⟨rfl, rfl, rfl⟩

theorem clearPin_blind (r : Role) : BlindUpdate (clearPin r) := .of_commutes fun _ _ _ => ⟨rfl, rfl, rfl⟩

@[simp] theorem acquireRole_blind (r : Role) : Blind (acquireRole r) := by
  intro s u h
  obtain ⟨hs, hu⟩ := h.agenda
  simp only [acquireRole, boundary_of_nil .seq hs, boundary_of_nil .seq hu, h.pinreg, h.padOf]
  cases padOf s (s.pinreg.get r) with
  | none => exact .fault _
  | some p =>
    dsimp only
    split
    · exact .ok (setPrs_blind r (emit_blind _ (setPad_blind _ _ h)))
    · exact .raise _ (emit_blind _ h)

theorem padRelease_blind (r : Role) : Blind (padRelease r) := by
  intro s u h
  obtain ⟨hs, hu⟩ := h.agenda
  simp only [padRelease, boundary_of_nil .seq hs, boundary_of_nil .seq hu, h.pinreg, h.padOf]
  cases padOf s (s.pinreg.get r) with
  | none => exact .fault _
  | some p => exact .ok (emit_blind _ (setPad_blind _ _ h))

@[simp] theorem releaseRole_blind (r : Role) : Blind (releaseRole r) :=
  .tests (fun _ _ _ => rfl) (runAll_blind (by simp [padRelease_blind, clearPrs_blind, clearPin_blind]))
    (update_blind (clearPin_blind r))

@[simp] theorem releasePins_blind : Blind releasePins := runAll_blind (by simp)

theorem rollback_blind (lc0 : Lifecycle) : Blind (rollback lc0) := by
  have hflags : BlindUpdate fun s => { s with lc := lc0, cfg := false } := .of_commutes fun _ _ _ => ⟨rfl, rfl, rfl⟩
  exact runAll_blind (by simp [hflags])

@[simp] theorem idleLevels_blind : Blind idleLevels := runAll_blind (by simp)

@[simp] theorem acquirePins_blind : Blind acquirePins := runAll_blind (by simp)

@[simp] theorem powerOn_blind : Blind powerOn := runAll_blind (by simp [sendSeq_blind Config.Params.initSeq])

theorem bringUp_blind : Blind bringUp := by
  have hcfg : BlindUpdate fun s => { s with cfg := true } := .of_commutes fun _ _ _ => ⟨rfl, rfl, rfl⟩
  exact runAll_blind (by simp [hcfg])

/-! ## The bodies of the control commands -/

theorem configureBody_blind (clk dout rst dc : PinId) : Blind (configureBody clk dout rst dc) := by
  refine .tests (fun _ _ _ => rfl) .ok (.tests (fun _ _ _ => rfl) (.raise _) fun s u h => ?_)
  have hset : BlindUpdate fun s => { s with pinreg := ⟨clk, dout, rst, dc⟩ } :=
    .of_commutes fun _ _ _ => ⟨rfl, rfl, rfl⟩
  have hlc : u.lc = s.lc := by cases h; rfl
  have hup := bringUp_blind (hset h)
  generalize bringUp { s with pinreg := ⟨clk, dout, rst, dc⟩ } = r at hup ⊢
  generalize bringUp { u with pinreg := ⟨clk, dout, rst, dc⟩ } = r' at hup ⊢
  rw [hlc]
  cases hup with
  | ok h => exact .ok h
  | raise c h => exact (rollback_blind s.lc h).andThen (.raise c)
  | fault f => exact .fault f

theorem guarded_blind {body : State → Res} (h : Blind body) : Blind (guarded body) :=
  .tests (fun _ _ _ => rfl) h (.raise _)

/-- DISPLAY_ON and DISPLAY_OFF (R161, R162). -/
theorem sendThenSetLc_blind (bytes : Config.Params → List Byte) (l : Lifecycle) :
    Blind (runAll [fun t => sendSeq (bytes t.params) false t, update (setLc l)]) :=
  runAll_blind (by simp [sendSeq_blind bytes])

theorem openBody_blind : Blind openBody := by
  have htake : BlindUpdate fun s => { s with slock := true, owner := s.inp.cid } :=
    .of_commutes fun _ _ _ => ⟨rfl, rfl, rfl⟩
  exact .tests (fun _ _ _ => rfl) (.raise _) (update_blind htake)

theorem powerDown_blind : Blind powerDown :=
  .tests (fun _ _ _ => rfl) (sendSeq_blind (fun p => p.offSeq.toList) false) .ok

theorem closeBody_blind : Blind closeBody := by
  have hflags : BlindUpdate fun s => { s with cfg := false, lc := .released } :=
    .of_commutes fun _ _ _ => ⟨rfl, rfl, rfl⟩
  have hmapped : BlindUpdate fun s => { s with mapped := false } := .of_commutes fun _ _ _ => ⟨rfl, rfl, rfl⟩
  have hslock : BlindUpdate fun s => { s with slock := false } := .of_commutes fun _ _ _ => ⟨rfl, rfl, rfl⟩
  have hstep : Blind (updateStep fun s => { s with mapped := false }) := (update_blind hmapped).afterBoundary .seq
  exact runAll_blind (by simp [powerDown_blind, hflags, hstep, hslock])

theorem sessionCloseBody_blind : Blind sessionCloseBody := .tests (fun _ _ _ => rfl) closeBody_blind .ok

theorem mapBody_blind (size : BitVec 32) : Blind (mapBody size) := by
  have hmap : BlindUpdate fun s => { s with mapped := true } := .of_commutes fun _ _ _ => ⟨rfl, rfl, rfl⟩
  exact .tests (fun _ _ _ => rfl) (.raise _) (.tests (fun _ _ _ => rfl) (.raise _) (update_blind hmap))

theorem writeBytes_blind (a : Nat) (payload : List Byte) : Blind (writeBytes a payload) := by
  induction payload generalizing a with
  | nil => exact .ok
  | cons d ds ih => exact (seqWrite_blind a d).andThen (ih (a + 1))

theorem bulkBody_blind (off len : BitVec 16) (payload : List Byte) : Blind (bulkBody off len payload) :=
  .tests (fun _ _ _ => rfl) (.raise _) (writeBytes_blind off.toNat payload)

theorem teardownBody_blind : Blind teardownBody := by
  have hreq : BlindUpdate fun s => { s with tdreq := false } := .of_commutes fun _ _ _ => ⟨rfl, rfl, rfl⟩
  have hdie : BlindUpdate die := .of_commutes fun _ _ _ => ⟨rfl, rfl, rfl⟩
  exact runAll_blind (by simp [hreq, closeBody_blind, hdie])

theorem controlBody_blind (i : Instr) : Blind (controlBody i) := by
  cases i with
  | sessionOpen => exact openBody_blind
  | sessionClose => exact sessionCloseBody_blind
  | configure clk dout rst dc => exact configureBody_blind clk dout rst dc
  | displayOn => exact guarded_blind (sendThenSetLc_blind (fun p => p.onSeq.toList) .opened)
  | displayOff => exact guarded_blind (sendThenSetLc_blind (fun p => p.offSeq.toList) .closed)
  | refresh => exact guarded_blind refreshBody_blind
  | clear => exact guarded_blind clearBody_blind
  | mapFb size => exact mapBody_blind size
  | bulkWrite off len payload => exact bulkBody_blind off len payload
  | queryInfo => exact update_blind (.of_commutes fun _ _ _ => ⟨rfl, rfl, rfl⟩)
  | teardown => exact teardownBody_blind
  | _ => exact .ok

/-! ## The rasteriser -/

theorem rasDo_blind (op : RasOp) : BlindUpdate (rasDo op) := by
  intro s u h
  cases op with
  | ctr c v => exact BlindUpdate.of_commutes (f := rasDo (.ctr c v)) (fun _ _ _ => ⟨rfl, rfl, rfl⟩) h
  | fill a v => exact memWrite_blind .ras a.val v h
  | fetch a =>
    obtain ⟨hv, hread⟩ := memRead_blind a.val h
    have hset : BlindUpdate fun t => { t with ras := { s.ras with tmp := (memRead a.val s).1 } } :=
      .of_commutes fun _ _ _ => ⟨rfl, rfl, rfl⟩
    simp only [rasDo, h.ras, ← hv]
    exact hset hread
  | store a mask set =>
    simp only [rasDo, h.ras]
    exact memWrite_blind .ras a.val _ h

theorem inFlight_blind (ops : List RasOp) : BlindUpdate (inFlight ops) := .of_commutes fun _ _ _ => ⟨rfl, rfl, rfl⟩

theorem rasTick_idle {s : State} (h : s.ras.ops = []) : rasTick s = { s with rbusy := false } := by
  simp only [rasTick, h]

theorem rasTick_eq_rasDo {s : State} {op : RasOp} {rest : List RasOp} (h : s.ras.ops = op :: rest) :
    rasTick s = rasDo op (inFlight rest s) := by
  simp only [rasTick, h, inFlight]

theorem rasTick_blind : BlindUpdate rasTick := by
  have hidle : BlindUpdate fun s => { s with rbusy := false } := .of_commutes fun _ _ _ => ⟨rfl, rfl, rfl⟩
  intro s u h
  cases hops : s.ras.ops with
  | nil =>
    rw [rasTick_idle hops, rasTick_idle (h.ras ▸ hops)]
    exact hidle h
  | cons op rest =>
    rw [rasTick_eq_rasDo hops, rasTick_eq_rasDo (h.ras ▸ hops)]
    exact rasDo_blind op (inFlight_blind rest h)

theorem rasDrain_blind (n : Nat) : BlindUpdate (rasDrain n) := by
  induction n with
  | zero => exact fun _ _ h => h
  | succ n ih =>
    intro s u h
    obtain ⟨hs, hu⟩ := h.agenda
    simp only [rasDrain, h.ras, boundary_of_nil .ras hs, boundary_of_nil .ras hu, ite_self]
    cases s.ras.ops with
    | nil => exact h
    | cons op rest => exact ih (rasTick_blind h)

theorem rasFinish_blind : BlindUpdate rasFinish := by
  intro s u h
  rw [rasFinish, rasFinish, h.ras]
  exact rasDrain_blind _ h

/-! ## The three frames -/

/-- Where the first outcome is a next state, so is the second, and the two differ in time alone. -/
def NextSameButTime (o o' : Host.Outcome State Fault Refusal) : Prop :=
  ∀ t, o = .next t → ∃ u, o' = .next u ∧ SameButTime t u

theorem NextSameButTime.next {t u : State} (h : SameButTime t u) : NextSameButTime (.next t) (.next u) :=
  fun _ ht => ⟨u, rfl, Host.Outcome.next.inj ht ▸ h⟩

theorem NextSameButTime.fault (f : Fault) (o : Host.Outcome State Fault Refusal) : NextSameButTime (.fault f) o :=
  fun _ ht => by cases ht

theorem finish_blind (op : Byte) (c : Code) : BlindUpdate (finish op c) := by
  have hflags : BlindUpdate fun s => { s with status := c.byte, busy := false } :=
    .of_commutes fun _ _ _ => ⟨rfl, rfl, rfl⟩
  intro s u h
  rw [finish_alone op c h.agenda.1, finish_alone op c h.agenda.2]
  exact emit_blind (.resp op c.byte) (hflags h)

theorem conclude_blind (op : Byte) {r r' : Res} (h : r.SameButTime r') :
    NextSameButTime (conclude op r) (conclude op r') := by
  cases h with
  | ok h => exact .next (finish_blind op .ok h)
  | raise c h => exact .next (finish_blind op c h)
  | fault f => exact .fault f _

theorem controlFrame_blind (op : Byte) (needs : Bool) {body : State → Res} (hbody : Blind body) {s u : State}
    (h : SameButTime s u) : NextSameButTime (controlFrame op needs body s) (controlFrame op needs body u) := by
  have hsession : sessionOk u = sessionOk s := by cases h; rfl
  have hbegin : SameButTime (begin s) (begin u) :=
    BlindUpdate.of_commutes (f := begin) (fun _ _ _ => ⟨rfl, rfl, rfl⟩) h
  unfold controlFrame
  rw [h.dead, hsession]
  split
  · exact .fault _ _
  · split
    · exact .next (finish_blind op .noSession hbegin)
    · exact conclude_blind op (hbody hbegin)

theorem rasterFrame_blind (ops : List RasOp) {s u : State} (h : SameButTime s u) :
    NextSameButTime (rasterFrame ops s) (rasterFrame ops u) := by
  unfold rasterFrame
  rw [h.dead]
  split
  · exact .fault _ _
  · exact .next (rasFinish_blind (inFlight_blind ops (rasFinish_blind h)))

theorem phyFrame_blind (b : Byte) (isData : Bool) {s u : State} (h : SameButTime s u) :
    NextSameButTime (phyFrame b isData s) (phyFrame b isData u) := by
  have hsent := sendByte_blind b isData h
  unfold phyFrame
  generalize sendByte b isData s = r at hsent ⊢
  generalize sendByte b isData u = r' at hsent ⊢
  rw [h.dead]
  split
  · exact .fault _ _
  · cases hsent with
    | ok h => exact .next h
    | raise c h => exact .next h
    | fault f => exact .fault f _

theorem exec_blind (i : Instr) {s u : State} (h : SameButTime s u) : NextSameButTime (exec i s) (exec i u) := by
  cases hport : i.port with
  | control =>
    rw [exec_eq_controlFrame hport, exec_eq_controlFrame hport]
    exact controlFrame_blind _ _ (controlBody_blind i) h
  | raster =>
    rw [exec_eq_rasterFrame hport, exec_eq_rasterFrame hport]
    exact rasterFrame_blind _ h
  | phy =>
    obtain ⟨b, isData, hexec⟩ := exec_eq_phyFrame hport
    rw [hexec, hexec]
    exact phyFrame_blind b isData h

/-- Settles O60: every part of an instruction takes states that differ in time alone to such states. -/
theorem noResultDependsOnTheDelay : Obligations.NoResultDependsOnTheDelay := by
  intro i s t d hag hexec
  obtain ⟨u, hu, htu⟩ := exec_blind i (sameButTime_withDelay hag d) t hexec
  exact ⟨u, hu, htu.timeless_eq⟩

end Sys2Proof.Machine
